-- ==== Sys2Proof/Word.lean ====
section
/-! DEFINITION. The word types of the block and their plainest arithmetic (spec/00_scope.md R8, spec/10_state.md R32). -/

namespace Sys2Proof

/-- A byte of IN, OUT or of a job's data (R8). -/
abbrev Byte := BitVec 8

/-- A register or a command word (R32, R110). -/
abbrev Word := BitVec 32

/-- `ceil_div(a, b)`, the least integer not below a/b, for b > 0 (R8). -/
def ceilDiv (a b : Nat) : Nat := (a + b - 1) / b

end Sys2Proof
end

