-- ==== Sys2Proof/Syntax.lean ====
section
/-! DEFINITION. The 24 commands of the block, one constructor per row of spec/opcode_table.json
(spec/30_encoding.md R113), with the operands the command word carries (R112, R114). -/

namespace Sys2Proof

/-- The colour operand C: 0 white, 1 black (R110). -/
inductive Colour where
  | white
  | black
deriving DecidableEq, Repr

/-- A command. `n` is the raw 6-bit field N (R110); `WellFormed` bounds it as R114 does. -/
inductive Instr where
  | bsRload
  | bsPeek (n : BitVec 6)
  | bsRead (n : BitVec 6)
  | bsRalign
  | bsEod
  | bsWreset
  | bsWrite (n : BitVec 6)
  | bsWalign
  | ahxEnc
  | ahxDec
  | a85Enc
  | a85Dec
  | rlEnc
  | rlDec
  | predPre
  | predPost
  | lzwEnc
  | lzwDec
  | faxEnc
  | faxDec
  | hufLookup (c : Colour) (n : BitVec 6)
  | hufCode (c : Colour)
  | sysNop
  | sysSreset
deriving DecidableEq, Repr

end Sys2Proof
end

