-- ==== Sys2Proof/WellFormed.lean ====
section
/-! DEFINITION. Which commands are well formed: the legal ranges of N (spec/30_encoding.md R114). -/

namespace Sys2Proof

/-- The legal range of N for the operation (R114): 0..32 for the bitstream accesses, 1..13 for HUF.LOOKUP. -/
def Instr.wellFormed : Instr → Bool
  | .bsPeek n | .bsRead n | .bsWrite n => n.toNat ≤ 32
  | .hufLookup _ n => 1 ≤ n.toNat && n.toNat ≤ 13
  | .bsRload | .bsRalign | .bsEod | .bsWreset | .bsWalign
  | .ahxEnc | .ahxDec | .a85Enc | .a85Dec | .rlEnc | .rlDec | .predPre | .predPost
  | .lzwEnc | .lzwDec | .faxEnc | .faxDec | .hufCode _ | .sysNop | .sysSreset => true

/-- The command's operands are in their legal ranges (R114). -/
abbrev Instr.WellFormed (i : Instr) : Prop := i.wellFormed = true

end Sys2Proof
end

