-- ==== Sys2Proof/Decode.lean ====
section
/-! DEFINITION. Decoding a command word, in the order of spec/30_encoding.md R115, and encoding one (R110 to R113). -/

namespace Sys2Proof

/-- Why a command word is rejected (R115): the three decode-time causes of IllegalCommand. -/
inductive DecodeError where
  /-- ILLEGAL_CMD: (UNIT, OP) is no row of the operation map. -/
  | illegalCmd
  /-- RESERVED_FIELD: RSV, or an N or C the operation does not use, is not 0. -/
  | reservedField
  /-- BAD_BITCOUNT: N is used and outside its legal range. -/
  | badBitcount
deriving DecidableEq, Repr

/-- OP, bits 3:0 of the command word (R110). -/
def fieldOp (v : Word) : BitVec 4 := v.extractLsb' 0 4

/-- UNIT, bits 7:4 (R110). -/
def fieldUnit (v : Word) : BitVec 4 := v.extractLsb' 4 4

/-- N, bits 13:8 (R110). -/
def fieldN (v : Word) : BitVec 6 := v.extractLsb' 8 6

/-- C, bit 14 (R110). -/
def fieldC (v : Word) : BitVec 1 := v.extractLsb' 14 1

/-- RSV, bits 31:15 (R110). -/
def fieldRsv (v : Word) : BitVec 17 := v.extractLsb' 15 17

/-- The colour that C = 0 or C = 1 names (R110). -/
def colourOfBit (c : BitVec 1) : Colour := if c = 1#1 then .black else .white

/-- The C bit of a colour (R110, R119). -/
def colourBit : Colour → BitVec 1
  | .white => 0#1
  | .black => 1#1

/-- The row of the operation map that (UNIT, OP) selects (R113), with the operands N and C it uses. -/
def operationOf (unit op : BitVec 4) (n : BitVec 6) (c : Colour) : Option Instr :=
  match unit.toNat, op.toNat with
  | 0x0, 0x0 => some .bsRload
  | 0x0, 0x1 => some (.bsPeek n)
  | 0x0, 0x2 => some (.bsRead n)
  | 0x0, 0x3 => some .bsRalign
  | 0x0, 0x4 => some .bsEod
  | 0x0, 0x5 => some .bsWreset
  | 0x0, 0x6 => some (.bsWrite n)
  | 0x0, 0x7 => some .bsWalign
  | 0x1, 0x0 => some .ahxEnc
  | 0x1, 0x1 => some .ahxDec
  | 0x2, 0x0 => some .a85Enc
  | 0x2, 0x1 => some .a85Dec
  | 0x3, 0x0 => some .rlEnc
  | 0x3, 0x1 => some .rlDec
  | 0x4, 0x0 => some .predPre
  | 0x4, 0x1 => some .predPost
  | 0x5, 0x0 => some .lzwEnc
  | 0x5, 0x1 => some .lzwDec
  | 0x6, 0x0 => some .faxEnc
  | 0x6, 0x1 => some .faxDec
  | 0x7, 0x0 => some (.hufLookup c n)
  | 0x7, 0x1 => some (.hufCode c)
  | 0xF, 0x0 => some .sysNop
  | 0xF, 0x1 => some .sysSreset
  | _, _ => none

/-- The operation uses N (R114). -/
def Instr.usesN : Instr → Bool
  | .bsPeek _ | .bsRead _ | .bsWrite _ | .hufLookup _ _ => true
  | .bsRload | .bsRalign | .bsEod | .bsWreset | .bsWalign
  | .ahxEnc | .ahxDec | .a85Enc | .a85Dec | .rlEnc | .rlDec | .predPre | .predPost
  | .lzwEnc | .lzwDec | .faxEnc | .faxDec | .hufCode _ | .sysNop | .sysSreset => false

/-- The operation uses C (R114). -/
def Instr.usesC : Instr → Bool
  | .hufLookup _ _ | .hufCode _ => true
  | .bsRload | .bsPeek _ | .bsRead _ | .bsRalign | .bsEod | .bsWreset | .bsWrite _ | .bsWalign
  | .ahxEnc | .ahxDec | .a85Enc | .a85Dec | .rlEnc | .rlDec | .predPre | .predPost
  | .lzwEnc | .lzwDec | .faxEnc | .faxDec | .sysNop | .sysSreset => false

/-- `decode_cmd(v)` of rule R115: the first check that fails decides. -/
def decode (v : Word) : Except DecodeError Instr :=
  match operationOf (fieldUnit v) (fieldOp v) (fieldN v) (colourOfBit (fieldC v)) with
  | none => .error .illegalCmd
  | some i =>
    if fieldRsv v ≠ 0#17 then .error .reservedField
    else if fieldN v ≠ 0#6 ∧ i.usesN = false then .error .reservedField
    else if fieldC v ≠ 0#1 ∧ i.usesC = false then .error .reservedField
    else if i.wellFormed = false then .error .badBitcount
    else .ok i

/-- The command word with the given fields, RSV = 0 (R110). -/
def packCommand (unit op : BitVec 4) (n : BitVec 6) (c : BitVec 1) : Word :=
  0#17 ++ c ++ n ++ unit ++ op

/-- The word that encodes a command, `(C << 14) | (N << 8) | (UNIT << 4) | OP` (R113). -/
def encode : Instr → Word
  | .bsRload => packCommand 0x0 0x0 0 0
  | .bsPeek n => packCommand 0x0 0x1 n 0
  | .bsRead n => packCommand 0x0 0x2 n 0
  | .bsRalign => packCommand 0x0 0x3 0 0
  | .bsEod => packCommand 0x0 0x4 0 0
  | .bsWreset => packCommand 0x0 0x5 0 0
  | .bsWrite n => packCommand 0x0 0x6 n 0
  | .bsWalign => packCommand 0x0 0x7 0 0
  | .ahxEnc => packCommand 0x1 0x0 0 0
  | .ahxDec => packCommand 0x1 0x1 0 0
  | .a85Enc => packCommand 0x2 0x0 0 0
  | .a85Dec => packCommand 0x2 0x1 0 0
  | .rlEnc => packCommand 0x3 0x0 0 0
  | .rlDec => packCommand 0x3 0x1 0 0
  | .predPre => packCommand 0x4 0x0 0 0
  | .predPost => packCommand 0x4 0x1 0 0
  | .lzwEnc => packCommand 0x5 0x0 0 0
  | .lzwDec => packCommand 0x5 0x1 0 0
  | .faxEnc => packCommand 0x6 0x0 0 0
  | .faxDec => packCommand 0x6 0x1 0 0
  | .hufLookup c n => packCommand 0x7 0x0 n (colourBit c)
  | .hufCode c => packCommand 0x7 0x1 0 (colourBit c)
  | .sysNop => packCommand 0xF 0x0 0 0
  | .sysSreset => packCommand 0xF 0x1 0 0

/-- The command the decoder reads from the `nbits` low bits of `w`. Every command is one 32-bit word written to CMD
(R110), so the word needs no layout in bytes; bits above `nbits` are 0. -/
def decodeTableWord (nbits w : Nat) : Option Instr :=
  match decode (BitVec.ofNat 32 (w % 2 ^ nbits)) with
  | .ok i => some i
  | .error _ => none

end Sys2Proof
end

