-- ==== Sys2Proof/Machine/Bits.lean ====
section
/-! DEFINITION. Bit and row helpers of the units: stream bit order (spec/00_scope.md R7, spec/20_memory.md R87), the
internal reader and writer as lists of bits in stream order (spec/40_bitstream.md R170, R171), and rows. -/

namespace Sys2Proof.Machine

/-- The bits of a byte in stream order, most significant first (R7). -/
def byteBits (b : Byte) : List Bool :=
  [b.getLsbD 7, b.getLsbD 6, b.getLsbD 5, b.getLsbD 4, b.getLsbD 3, b.getLsbD 2, b.getLsbD 1, b.getLsbD 0]

/-- The bits of a byte sequence in stream order: element p is `bit(buf, p)` of rule R7. -/
def bitsOf (bs : List Byte) : List Bool := bs.flatMap byteBits

/-- The unsigned number whose bits, first bit most significant, are given (R152: `v <- 2*v + bit`). -/
def natOfBits (l : List Bool) : Nat := l.foldl (fun v b => 2 * v + b.toNat) 0

/-- The low `n` bits of `v`, most significant first: what `put(v, n)` appends (R171). -/
def lowBits (v n : Nat) : List Bool := (List.range n).map fun i => v.testBit (n - 1 - i)

/-- `n` zero bits. -/
def zeroBits (n : Nat) : List Bool := List.replicate n false

/-- The zero bits that `walign()` appends to a stream of `n` bits (R171). -/
def alignPad (n : Nat) : List Bool := zeroBits (8 * ceilDiv n 8 - n)

/-- The list cut into pieces of `n` elements, the last piece perhaps shorter; `fuel` bounds the pieces. -/
def piecesUpTo {α : Type} (n : Nat) : (fuel : Nat) → List α → List (List α)
  | 0, _ => []
  | _ + 1, [] => []
  | fuel + 1, x :: xs => (x :: xs).take n :: piecesUpTo n fuel ((x :: xs).drop n)

/-- The list cut into pieces of `n` elements (n > 0): rows of a buffer (R283, R402), bytes of a bit stream. -/
def pieces {α : Type} (n : Nat) (l : List α) : List (List α) := piecesUpTo n l.length l

/-- The byte whose first bits in stream order are given (at most 8), the others 0 (R171). -/
def byteOfBits (l : List Bool) : Byte := BitVec.ofNat 8 (natOfBits l * 2 ^ (8 - l.length))

/-- The bytes of a bit stream, the last one padded with zero bits: the writer's output after `flush()` (R171). -/
def packBits (l : List Bool) : List Byte := (pieces 8 l).map byteOfBits

/-- `peek(n)` at the head of the remaining bits, zero-padded past the end (R170). -/
def peekBits (n : Nat) (rest : List Bool) : Nat := natOfBits (rest.take n ++ zeroBits (n - rest.length))

/-- Every remaining bit is 0 (R413 (3)). -/
def allZero (rest : List Bool) : Bool := rest.all fun b => !b

/-- How many elements at the head of the list equal `b`. -/
def leadCount (b : Byte) : List Byte → Nat
  | [] => 0
  | x :: xs => if x = b then leadCount b xs + 1 else 0

end Sys2Proof.Machine
end

