-- ==== Sys2Proof/Config.lean ====
section
/-! DEFINITION. What an implementation fixes (spec/00_scope.md R5, spec/92_eei_decisions.md section 9) and the free
values the spec leaves open (spec/93_implementation_defined.md). A free value has no body: no proof can see it. -/

namespace Sys2Proof

/-- The named parameters of rule R5. State holds them as plain data; no step changes them (log 3). -/
structure Params where
  /-- BASE, the byte address of the register window. -/
  base : Nat
  /-- IN_CAP, the capacity of IN in bytes. -/
  inCap : Nat
  /-- OUT_CAP, the capacity of OUT in bytes. -/
  outCap : Nat
  /-- LINE_CAP, the longest row in bytes; `none` is the spec's ∞. -/
  lineCap : Option Nat
deriving DecidableEq, Repr

/-- The constraints of rule R5 on the parameters. -/
abbrev Params.Legal (p : Params) : Prop :=
  p.base % 4 = 0 ∧ (1 ≤ p.inCap ∧ p.inCap ≤ 2 ^ 24) ∧ (1 ≤ p.outCap ∧ p.outCap ≤ 2 ^ 24) ∧ p.lineCap ≠ some 0

/-- A row of `n` bytes is longer than LINE_CAP (R281, R401). -/
def Params.rowTooLong (p : Params) (n : Nat) : Bool :=
  match p.lineCap with
  | none => false
  | some cap => cap < n

/-- DESIGN CHOICE (log 3): the parameters `State.reset` carries. R5 leaves them OPEN. -/
def Params.atReset : Params := ⟨0, 2 ^ 24, 2 ^ 24, none⟩

/-- Free value (I8, R550): byte `i` of IN that the host has not written since reset. Log 4. -/
opaque Config.inDraw : (i : Nat) → Byte

/-- Free value (I5, I8, R86): byte `i` of OUT that no rule defines, in draw number `draw`. Log 5. -/
opaque Config.outDraw : (draw i : Nat) → Byte

/-- Free value (I1, I3, R83, R84): what a refused read of `bytes` bytes at `addr` returns, in draw number `draw`. Log 6. -/
opaque Config.refusedRead : (draw addr bytes : Nat) → Word

/-- Free value (I6, R94): what a read at `addr` returns while BUSY = 1, in draw number `draw`. Log 7. -/
opaque Config.busyRead : (draw addr : Nat) → Word

end Sys2Proof
end

