-- ==== Sys2Proof/Machine/State.lean ====
section
/-! DEFINITION. The state of the block (spec/10_state.md R30 to R57), the host's pending accesses
(spec/20_memory.md R91), the state after reset (spec/70_reset_and_hazards.md R550), and the reasons a step can stop. -/

namespace Sys2Proof.Machine

/-- A buffer: (index, byte) pairs. An index that is not listed holds no value (log 4, log 5); what a read of it
returns is said once, in Ops.lean (`State.readIn`, `State.readOut`). -/
abbrev Memory := List Host.Cell

/-- The canonical form: indices strictly rising. An unlisted index holds no value, so no entry can equal what an
unlisted index holds, and equal buffers are equal data. -/
abbrev Memory.wf (m : Memory) : Prop := m.Pairwise fun x y => x.1 < y.1

/-- One access of the host (R80 to R84, R120), at a byte address of the host's address space. -/
inductive HostAction where
  /-- A write of `bytes` bytes; `value` holds them right-aligned. `wr NAME, v` is a 4-byte write, `wrb IN+i, b` a 1-byte write. -/
  | write (addr bytes : Nat) (value : Word)
  /-- A read of `bytes` bytes. `rd NAME` is a 4-byte read, `rdb OUT+i` a 1-byte read. -/
  | read (addr bytes : Nat)
  /-- `wait`: repeat `rd STATUS` until BUSY = 0. -/
  | wait
deriving DecidableEq, Repr

/-- The block, its parameters, and the host's side of the interface. -/
structure State where
  /-- BASE, IN_CAP, OUT_CAP and LINE_CAP (R5; log 3). -/
  cfg : Params
  /-- STATUS (R34). -/
  status : Word
  /-- ERR_POS (R35). -/
  errPos : Word
  /-- IN_LEN (R36). -/
  inLen : Word
  /-- OUT_LEN (R37). -/
  outLen : Word
  /-- ARG (R38). -/
  arg : Word
  /-- RESULT (R39). -/
  result : Word
  /-- BS_RPOS (R40). -/
  bsRpos : Word
  /-- BS_RSIZE (R41). -/
  bsRsize : Word
  /-- BS_WPOS (R42). -/
  bsWpos : Word
  /-- CTRL (R43). -/
  ctrl : Word
  /-- PRED_KIND (R44). -/
  predKind : Word
  /-- PRED_COLORS (R45). -/
  predColors : Word
  /-- PRED_BPC (R46). -/
  predBpc : Word
  /-- PRED_COLUMNS (R47). -/
  predColumns : Word
  /-- FAX_K (R48). -/
  faxK : Word
  /-- FAX_COLUMNS (R49). -/
  faxColumns : Word
  /-- FAX_ROWS (R50). -/
  faxRows : Word
  /-- FAX_FLAGS (R51). -/
  faxFlags : Word
  /-- IN (R53). -/
  inBuf : Memory
  /-- OUT (R54). -/
  outBuf : Memory
  /-- The model's own: the host's accesses still to come, in program order (R91; log 1). -/
  host : List HostAction
  /-- The model's own: what the host's last read returned (log 8). -/
  readData : Word
  /-- The model's own: how often the undefined part of OUT was drawn anew (R86; log 9). -/
  outDraws : Nat
  /-- The model's own: the draw number of refused and busy reads (R83, R94; log 9). -/
  busDraws : Nat
deriving DecidableEq, Repr

/-- Why a step stops with a fault. -/
inductive Fault where
  /-- Raised by Bus.lean for a host access at an address outside the block's three windows, which R80 leaves
  unspecified. Safe: the model stops where the platform may go on. -/
  | outsideBlock (addr : Nat)
deriving DecidableEq, Repr

/-- Why a step is refused. -/
inductive Refusal where
  /-- Raised by Dispatch.lean for a command without a meaning; no arm raises it now. Safe: nothing is claimed of it. -/
  | notModelled (mnemonic : String)
deriving DecidableEq, Repr

/-- The block after a hardware reset (R550). The parameters and the model's own fields are DESIGN CHOICES (log 3, 8, 9). -/
def State.reset : State where
  cfg := Params.atReset
  status := 0
  errPos := 0
  inLen := 0
  outLen := 0
  arg := 0
  result := 0
  bsRpos := 0
  bsRsize := 0
  bsWpos := 0
  ctrl := 0
  predKind := 1
  predColors := 1
  predBpc := 8
  predColumns := 1
  faxK := 0
  faxColumns := 1728
  faxRows := 0
  faxFlags := 4
  inBuf := []
  outBuf := []
  host := []
  readData := 0
  outDraws := 0
  busDraws := 0

end Sys2Proof.Machine
end

