-- ==== Sys2Proof/Machine/Flags.lean ====
section
/-! DEFINITION. The flags of the block, all of them fields of STATUS (spec/10_state.md R34, R57), the error kinds and
cause codes (spec/60_exceptions.md R500, R502), and the flag fields of CTRL and FAX_FLAGS (R43, R51). -/

namespace Sys2Proof.Machine

/-- The error kinds of rule R500, NONE apart. -/
inductive ErrorKind where
  | invalidEncoding
  | configuration
  | unsupportedScheme
  | invalidPlainInput
  | illegalCommand
  | resource
  | bitstreamUnderrun
deriving DecidableEq, Repr

/-- STATUS.ERR_KIND of a kind (R500). -/
def ErrorKind.code : ErrorKind → Nat
  | .invalidEncoding => 1
  | .configuration => 2
  | .unsupportedScheme => 3
  | .invalidPlainInput => 4
  | .illegalCommand => 5
  | .resource => 6
  | .bitstreamUnderrun => 7

/-- The cause codes of rule R502, complete. -/
inductive Cause where
  | ahxBadChar
  | a85BadChar
  | a85ZInGroup
  | a85Overflow
  | a85ShortGroup
  | a85BadEod
  | rlTruncated
  | predBadKind
  | predBadColors
  | predBadBpc
  | predBadColumns
  | predBadLength
  | predBadPngTag
  | predPlainLength
  | predRowTooLong
  | lzwTableFull
  | lzwBadCode
  | lzwBadFirstCode
  | fax2dUnsupported
  | faxMixedUnsupported
  | faxBadColumns
  | faxBadRows
  | faxBadCode
  | faxRunOverflow
  | faxMissingEol
  | faxTruncated
  | faxPlainLength
  | faxRowTooLong
  | inLenRange
  | outOverflow
  | illegalCmd
  | reservedField
  | badBitcount
  | badRun
  | bsUnderrun
deriving DecidableEq, Repr

/-- STATUS.ERR_CODE of a cause (R502, first column). -/
def Cause.code : Cause → Nat
  | .ahxBadChar => 0x10
  | .a85BadChar => 0x20
  | .a85ZInGroup => 0x21
  | .a85Overflow => 0x22
  | .a85ShortGroup => 0x23
  | .a85BadEod => 0x24
  | .rlTruncated => 0x30
  | .predBadKind => 0x40
  | .predBadColors => 0x41
  | .predBadBpc => 0x42
  | .predBadColumns => 0x43
  | .predBadLength => 0x44
  | .predBadPngTag => 0x45
  | .predPlainLength => 0x46
  | .predRowTooLong => 0x47
  | .lzwTableFull => 0x50
  | .lzwBadCode => 0x51
  | .lzwBadFirstCode => 0x52
  | .fax2dUnsupported => 0x60
  | .faxMixedUnsupported => 0x61
  | .faxBadColumns => 0x62
  | .faxBadRows => 0x63
  | .faxBadCode => 0x64
  | .faxRunOverflow => 0x65
  | .faxMissingEol => 0x66
  | .faxTruncated => 0x67
  | .faxPlainLength => 0x68
  | .faxRowTooLong => 0x69
  | .inLenRange => 0x70
  | .outOverflow => 0x71
  | .illegalCmd => 0x80
  | .reservedField => 0x81
  | .badBitcount => 0x82
  | .badRun => 0x83
  | .bsUnderrun => 0x90

/-- The kind each cause belongs to (R502, third column). -/
def Cause.kind : Cause → ErrorKind
  | .ahxBadChar => .invalidEncoding
  | .a85BadChar => .invalidEncoding
  | .a85ZInGroup => .invalidEncoding
  | .a85Overflow => .invalidEncoding
  | .a85ShortGroup => .invalidEncoding
  | .a85BadEod => .invalidEncoding
  | .rlTruncated => .invalidEncoding
  | .predBadKind => .configuration
  | .predBadColors => .configuration
  | .predBadBpc => .configuration
  | .predBadColumns => .configuration
  | .predBadLength => .invalidEncoding
  | .predBadPngTag => .invalidEncoding
  | .predPlainLength => .invalidPlainInput
  | .predRowTooLong => .configuration
  | .lzwTableFull => .invalidEncoding
  | .lzwBadCode => .invalidEncoding
  | .lzwBadFirstCode => .invalidEncoding
  | .fax2dUnsupported => .unsupportedScheme
  | .faxMixedUnsupported => .unsupportedScheme
  | .faxBadColumns => .configuration
  | .faxBadRows => .configuration
  | .faxBadCode => .invalidEncoding
  | .faxRunOverflow => .invalidEncoding
  | .faxMissingEol => .invalidEncoding
  | .faxTruncated => .invalidEncoding
  | .faxPlainLength => .invalidPlainInput
  | .faxRowTooLong => .configuration
  | .inLenRange => .resource
  | .outOverflow => .resource
  | .illegalCmd => .illegalCommand
  | .reservedField => .illegalCommand
  | .badBitcount => .illegalCommand
  | .badRun => .illegalCommand
  | .bsUnderrun => .bitstreamUnderrun

/-- A STATUS word from its fields, bits 31:16 being 0 (R34). -/
def statusWord (busy done error trunc : Bool) (kind code : Nat) : Word :=
  0#16 ++ BitVec.ofNat 8 code ++ BitVec.ofNat 4 kind ++ BitVec.ofBool trunc ++ BitVec.ofBool error
    ++ BitVec.ofBool done ++ BitVec.ofBool busy

/-- STATUS from issue to completion (R501). -/
def statusBusy : Word := statusWord true false false false 0 0

/-- STATUS after success; `trunc` after a lenient truncation only (R501, R507). -/
def statusDone (trunc : Bool) : Word := statusWord false true false trunc 0 0

/-- STATUS after an error of the given cause (R501). -/
def statusError (c : Cause) : Word := statusWord false true true false c.kind.code c.code

/-- STATUS.BUSY, bit 0 (R34). -/
def State.busy (s : State) : Bool := s.status.getLsbD 0

/-- STATUS.DONE, bit 1 (R34). -/
def State.done (s : State) : Bool := s.status.getLsbD 1

/-- STATUS.ERROR, bit 2 (R34). -/
def State.error (s : State) : Bool := s.status.getLsbD 2

/-- STATUS.TRUNC, bit 3 (R34). -/
def State.trunc (s : State) : Bool := s.status.getLsbD 3

/-- STATUS.ERR_KIND, bits 7:4 (R34). -/
def State.errKind (s : State) : Nat := (s.status.extractLsb' 4 4).toNat

/-- STATUS.ERR_CODE, bits 15:8 (R34). -/
def State.errCode (s : State) : Nat := (s.status.extractLsb' 8 8).toNat

/-- CTRL.PNG_LENIENT, bit 0 (R43). -/
def State.pngLenient (s : State) : Bool := s.ctrl.getLsbD 0

/-- FAX_FLAGS.EOL, bit 0 (R51). -/
def State.faxEol (s : State) : Bool := s.faxFlags.getLsbD 0

/-- FAX_FLAGS.BYTEALIGN, bit 1 (R51). -/
def State.faxByteAlign (s : State) : Bool := s.faxFlags.getLsbD 1

/-- FAX_FLAGS.EOB, bit 2 (R51). -/
def State.faxEob (s : State) : Bool := s.faxFlags.getLsbD 2

/-- FAX_FLAGS.BLACKIS1, bit 3 (R51). -/
def State.faxBlackIs1 (s : State) : Bool := s.faxFlags.getLsbD 3

end Sys2Proof.Machine
end

