-- ==== Sys2Proof/Machine/Ops.lean ====
section
/-! DEFINITION. The named operations over the buffers and registers: byte access (spec/20_memory.md R81, R82, R86),
register access (spec/10_state.md R32, R52), taking an error (spec/60_exceptions.md R501, R509), and the frame of a
codec job (spec/00_scope.md R10 to R12, spec/40_bitstream.md R172, R504, R505). -/

namespace Sys2Proof.Machine

/-! ## Buffers -/

/-- The value the buffer holds at an index; `none` where it holds none. -/
def Memory.read? : Memory → Nat → Option Byte
  | [], _ => none
  | (k, v) :: m, a => if k = a then some v else Memory.read? m a

/-- The buffer with a byte written, in canonical form. -/
def Memory.write : Memory → Nat → Byte → Memory
  | [], a, v => [(a, v)]
  | (k, w) :: m, a, v =>
    if a < k then (a, v) :: (k, w) :: m
    else if a = k then (a, v) :: m
    else (k, w) :: Memory.write m a v

/-- The buffer without any value at or beyond index `n`. -/
def Memory.below (m : Memory) (n : Nat) : Memory := m.filter fun c => c.1 < n

/-- The buffer that holds exactly the given bytes from index `i` on. -/
def Memory.ofBytesFrom : Nat → List Byte → Memory
  | _, [] => []
  | i, b :: bs => (i, b) :: Memory.ofBytesFrom (i + 1) bs

/-- The buffer that holds exactly the given bytes from index 0 on (R54). -/
def Memory.ofBytes (bs : List Byte) : Memory := Memory.ofBytesFrom 0 bs

/-- `IN[i]` (R81): a byte the host has not written since reset is the free value Config.inDraw (R550, I8). -/
def State.readIn (s : State) (i : Nat) : Byte := (s.inBuf.read? i).getD (Config.inDraw i)

/-- `OUT[i]` (R82): a byte no rule defines is the free value Config.outDraw of the present draw (R86, I5). -/
def State.readOut (s : State) (i : Nat) : Byte := (s.outBuf.read? i).getD (Config.outDraw s.outDraws i)

/-- `inp = IN[0..L)` with L = x[IN_LEN] (R10). -/
def State.inp (s : State) : List Byte := (List.range s.inLen.toNat).map s.readIn

/-- `OUT[0..x[OUT_LEN])`, the output a host reads after a command (R37). -/
def State.outBytes (s : State) : List Byte := (List.range s.outLen.toNat).map s.readOut

/-- `rbit(p)` of the host-visible reader (R151): bit p of IN below 8 × BS_RSIZE, and 0 from there on. -/
def State.rbit (s : State) (p : Nat) : Bool :=
  if p < 8 * s.bsRsize.toNat then (s.readIn (p / 8)).getLsbD (7 - p % 8) else false

/-- The N bits from stream position p as a number, first bit most significant (R153, R154). -/
def State.rbits (s : State) (p n : Nat) : Nat := natOfBits ((List.range n).map fun i => s.rbit (p + i))

/-- A byte with the bit at stream offset k (0 the most significant) set to b (R161). -/
def setStreamBit (v : Byte) (k : Nat) (b : Bool) : Byte :=
  (v &&& ~~~(1#8 <<< (7 - k))) ||| ((BitVec.ofBool b).zeroExtend 8 <<< (7 - k))

/-- The writer's step for one bit at stream position p (R161): a new byte starts as all zero. -/
def State.putOutBit (s : State) (p : Nat) (b : Bool) : State :=
  let old := if p % 8 = 0 then 0#8 else s.readOut (p / 8)
  { s with outBuf := s.outBuf.write (p / 8) (setStreamBit old (p % 8) b) }

/-- The writer's loop over the bits of one BS.WRITE (R161). -/
def State.putOutBits (s : State) (p : Nat) : List Bool → State
  | [] => s
  | b :: bs => (s.putOutBit p b).putOutBits (p + 1) bs

/-- After a job the bytes of OUT at and beyond OUT_LEN are unspecified (R86, I5): they hold no value and are drawn anew. -/
def State.disownTail (s : State) : State :=
  { s with outBuf := s.outBuf.below s.outLen.toNat, outDraws := s.outDraws + 1 }

/-! ## Registers -/

/-- The nineteen registers of rule R32. -/
inductive Reg where
  | cmd
  | status
  | errPos
  | inLen
  | outLen
  | arg
  | result
  | bsRpos
  | bsRsize
  | bsWpos
  | ctrl
  | predKind
  | predColors
  | predBpc
  | predColumns
  | faxK
  | faxColumns
  | faxRows
  | faxFlags
deriving DecidableEq, Repr

/-- The byte offset of a register from BASE (R32). -/
def Reg.offset : Reg → Nat
  | .cmd => 0x00
  | .status => 0x04
  | .errPos => 0x08
  | .inLen => 0x0C
  | .outLen => 0x10
  | .arg => 0x14
  | .result => 0x18
  | .bsRpos => 0x1C
  | .bsRsize => 0x20
  | .bsWpos => 0x24
  | .ctrl => 0x28
  | .predKind => 0x2C
  | .predColors => 0x30
  | .predBpc => 0x34
  | .predColumns => 0x38
  | .faxK => 0x3C
  | .faxColumns => 0x40
  | .faxRows => 0x44
  | .faxFlags => 0x48

/-- The register at an aligned offset of the register window; `none` is a reserved register (R32). -/
def regAt (offset : Nat) : Option Reg :=
  match offset with
  | 0x00 => some .cmd
  | 0x04 => some .status
  | 0x08 => some .errPos
  | 0x0C => some .inLen
  | 0x10 => some .outLen
  | 0x14 => some .arg
  | 0x18 => some .result
  | 0x1C => some .bsRpos
  | 0x20 => some .bsRsize
  | 0x24 => some .bsWpos
  | 0x28 => some .ctrl
  | 0x2C => some .predKind
  | 0x30 => some .predColors
  | 0x34 => some .predBpc
  | 0x38 => some .predColumns
  | 0x3C => some .faxK
  | 0x40 => some .faxColumns
  | 0x44 => some .faxRows
  | 0x48 => some .faxFlags
  | _ => none

/-- `x[NAME]`: what a read of a register returns. CMD reads 0 (R33); reserved fields read 0 (R34, R43, R51, R52). -/
def State.readReg (s : State) : Reg → Word
  | .cmd => 0
  | .status => s.status &&& 0x0000FFFF
  | .errPos => s.errPos
  | .inLen => s.inLen
  | .outLen => s.outLen
  | .arg => s.arg
  | .result => s.result
  | .bsRpos => s.bsRpos
  | .bsRsize => s.bsRsize
  | .bsWpos => s.bsWpos
  | .ctrl => s.ctrl &&& 0x00000001
  | .predKind => s.predKind
  | .predColors => s.predColors
  | .predBpc => s.predBpc
  | .predColumns => s.predColumns
  | .faxK => s.faxK
  | .faxColumns => s.faxColumns
  | .faxRows => s.faxRows
  | .faxFlags => s.faxFlags &&& 0x0000000F

/-- `x[NAME] <- v` by the host, CMD apart: a write to a read-only register or to a reserved field has no effect (R52). -/
def State.writeReg (s : State) (r : Reg) (v : Word) : State :=
  match r with
  | .cmd | .status | .errPos | .outLen | .result | .bsRpos | .bsRsize | .bsWpos => s
  | .inLen => { s with inLen := v }
  | .arg => { s with arg := v }
  | .ctrl => { s with ctrl := v &&& 0x00000001 }
  | .predKind => { s with predKind := v }
  | .predColors => { s with predColors := v }
  | .predBpc => { s with predBpc := v }
  | .predColumns => { s with predColumns := v }
  | .faxK => { s with faxK := v }
  | .faxColumns => { s with faxColumns := v }
  | .faxRows => { s with faxRows := v }
  | .faxFlags => { s with faxFlags := v &&& 0x0000000F }

/-- Every register except STATUS at its reset value (R552); the buffers, the parameters and the model's own fields stay. -/
def State.resetRegs (s : State) : State :=
  { s with
    errPos := 0, inLen := 0, outLen := 0, arg := 0, result := 0, bsRpos := 0, bsRsize := 0, bsWpos := 0, ctrl := 0,
    predKind := 1, predColors := 1, predBpc := 8, predColumns := 1, faxK := 0, faxColumns := 1728, faxRows := 0,
    faxFlags := 4 }

/-! ## Issue, success and error -/

/-- The issue of a command that decodes (R501): the previous command's error is cleared. It is the only way an error
is left, since the block has no return from an error (R511). -/
def State.issue (s : State) : State := { s with status := statusBusy, errPos := 0 }

/-- `raise Kind(CODE, pos)` (R501, R509): the one operation by which every error is taken. It records the kind, the
cause and the position; no mode changes and control goes nowhere. -/
def State.raise (s : State) (c : Cause) (pos : Nat) : State :=
  { s with status := statusError c, errPos := BitVec.ofNat 32 pos }

/-- `finish()` without regard to OUT's tail: STATUS and ERR_POS after success (R501). -/
def State.succeed (s : State) : State := { s with status := statusDone false, errPos := 0 }

/-- `finish()` of a bitstream or lookup command or of SYS.NOP: success (R501), and OUT beyond OUT_LEN is unspecified
(R86, I5). -/
def State.finish (s : State) : State := s.succeed.disownTail

/-- `raise` in the started job of a bitstream command: the error (R501), and OUT beyond OUT_LEN is unspecified, since R86
holds after any job. BAD_RUN, which R503 says changes nothing in OUT, is raised without it (log 5). -/
def State.abort (s : State) (c : Cause) (pos : Nat) : State := (s.raise c pos).disownTail

/-! ## Codec jobs -/

/-- How a job ends (R11): with success, with success after a lenient truncation at `pos` (R297, R507), or by raising. -/
inductive JobEnd where
  | success
  | lenient (pos : Nat)
  | error (c : Cause) (pos : Nat)
deriving DecidableEq, Repr

/-- What a codec job does: the bytes it emits, in order, and how it ends (R11). -/
structure JobResult where
  out : List Byte
  ending : JobEnd
deriving DecidableEq, Repr

/-- A job that emits nothing more and finishes with success. -/
def JobResult.done : JobResult := ⟨[], .success⟩

/-- A job that raises at once. -/
def JobResult.raised (c : Cause) (pos : Nat) : JobResult := ⟨[], .error c pos⟩

/-- `emit_all(bs)` and then the job `r` (R12). -/
def JobResult.emitting (bs : List Byte) (r : JobResult) : JobResult := ⟨bs ++ r.out, r.ending⟩

/-- The job in an output buffer of `cap` bytes (R12, R505): the emit that finds OUT full raises OUT_OVERFLOW at `cap`,
and the first `cap` bytes stay. Every emit comes before the job's end, so it wins over that end (R508; log 14). -/
def JobResult.bounded (cap : Nat) (r : JobResult) : JobResult :=
  if r.out.length ≤ cap then r else ⟨r.out.take cap, .error .outOverflow cap⟩

/-- STATUS and ERR_POS at a job's end (R501). -/
def State.endWith (s : State) : JobEnd → State
  | .success => s.succeed
  | .lenient pos => { s with status := statusDone true, errPos := BitVec.ofNat 32 pos }
  | .error c pos => s.raise c pos

/-- The end of a codec job: its output is OUT from index 0, all of OUT beyond is unspecified (R11, R54, R86), and the
bitstream registers are set as R172 says. -/
def State.endCodec (s : State) (r : JobResult) : State :=
  State.endWith
    { s with
      outBuf := Memory.ofBytes r.out, outLen := BitVec.ofNat 32 r.out.length, outDraws := s.outDraws + 1,
      bsRpos := 0, bsRsize := 0, bsWpos := BitVec.ofNat 32 (8 * r.out.length) }
    r.ending

/-- A codec command: issue (R501), the input range check (R504), then the job on `inp`, in an output buffer of
OUT_CAP bytes (R505). -/
def State.codecJob (s : State) (job : List Byte → JobResult) : State :=
  if s.cfg.inCap < s.inLen.toNat then s.issue.endCodec (.raised .inLenRange s.inLen.toNat)
  else s.issue.endCodec ((job s.inp).bounded s.cfg.outCap)

end Sys2Proof.Machine
end

