-- ==== Sys2Proof/Machine/Operands.lean ====
section
/-! DEFINITION. The operand forms: what the command word and ARG carry (spec/30_encoding.md R112), and the
configuration registers a codec samples at issue (spec/43_predictor.md R280, R281, spec/45_ccitt_fax.md R400, R401). -/

namespace Sys2Proof.Machine

/-- `x[ARG][N-1:0]`, 0 when N = 0 (R112). -/
def State.argLow (s : State) (n : Nat) : Nat := s.arg.toNat % 2 ^ n

/-- The bits of `x[ARG][N-1:0]` in the order BS.WRITE appends them (R161). -/
def State.argBits (s : State) (n : Nat) : List Bool := lowBits s.arg.toNat n

/-- The run operand of HUF.CODE: `x[ARG]`, unsigned (R112). -/
def State.argRun (s : State) : Nat := s.arg.toNat

/-! ## Predictor configuration -/

/-- The four predictor registers as sampled at issue (R280). -/
structure PredConfig where
  kind : Nat
  colors : Nat
  bpc : Nat
  columns : Nat
deriving DecidableEq, Repr

/-- The predictor configuration a command samples (R44 to R47, R280). -/
def State.predConfig (s : State) : PredConfig :=
  ⟨s.predKind.toNat, s.predColors.toNat, s.predBpc.toNat, s.predColumns.toNat⟩

/-- Samples per row (R280). -/
def PredConfig.spr (p : PredConfig) : Nat := p.columns * p.colors

/-- Bytes per row (R280). -/
def PredConfig.bpr (p : PredConfig) : Nat := ceilDiv (p.columns * p.colors * p.bpc) 8

/-- Bytes per pixel, the distance of PNG's left references (R280). -/
def PredConfig.bpp (p : PredConfig) : Nat := ceilDiv (p.colors * p.bpc) 8

/-- A legal kind (R281, R282). -/
def PredConfig.kindOk (p : PredConfig) : Bool := p.kind = 1 || p.kind = 2 || (10 ≤ p.kind && p.kind ≤ 15)

/-- `validate_pred()` (R281): the Configuration error it raises, if any, in the rule's order. -/
def PredConfig.invalid? (p : PredConfig) (params : Params) : Option Cause :=
  if p.kindOk = false then some .predBadKind
  else if p.kind = 1 then none
  else if ¬(1 ≤ p.colors ∧ p.colors ≤ 4) then some .predBadColors
  else if p.bpc ∉ [1, 2, 4, 8, 16] then some .predBadBpc
  else if p.columns = 0 then some .predBadColumns
  else if params.rowTooLong p.bpr = true then some .predRowTooLong
  else none

/-! ## Fax configuration -/

/-- The fax registers as sampled at issue; K, Columns and Rows are signed (R400). -/
structure FaxConfig where
  k : Int
  columns : Int
  rows : Int
  eol : Bool
  byteAlign : Bool
  eob : Bool
  blackIs1 : Bool
deriving DecidableEq, Repr

/-- The fax configuration a command samples (R48 to R51, R400). -/
def State.faxConfig (s : State) : FaxConfig :=
  ⟨s.faxK.toInt, s.faxColumns.toInt, s.faxRows.toInt, s.faxEol, s.faxByteAlign, s.faxEob, s.faxBlackIs1⟩

/-- C as a count of pixels; `invalid?` refuses C < 1 first. -/
def FaxConfig.width (f : FaxConfig) : Nat := f.columns.toNat

/-- `rb = ceil_div(C, 8)`, the bytes of a plain row (R402). -/
def FaxConfig.rowBytes (f : FaxConfig) : Nat := ceilDiv f.width 8

/-- `validate_fax()` (R401): the error it raises, if any, in the rule's order. -/
def FaxConfig.invalid? (f : FaxConfig) (params : Params) : Option Cause :=
  if f.k < 0 then some .fax2dUnsupported
  else if 0 < f.k then some .faxMixedUnsupported
  else if f.columns < 1 then some .faxBadColumns
  else if f.rows < 0 then some .faxBadRows
  else if params.rowTooLong f.rowBytes = true then some .faxRowTooLong
  else none

end Sys2Proof.Machine
end

