-- ==== Sys2Proof/Machine/Bitstream.lean ====
section
/-! DEFINITION. bitstream_reader_writer (spec/40_bitstream.md R150 to R162). -/

namespace Sys2Proof.Machine

/-- BS.RLOAD (R150, R504): bind the bit reader to IN[0..IN_LEN). -/
def execBsRload (s : State) : Host.Outcome State Fault Refusal :=
  if s.cfg.inCap < s.inLen.toNat then .next (s.issue.abort .inLenRange s.inLen.toNat)
  else .next (State.finish { s.issue with bsRsize := s.inLen, bsRpos := 0 })

/-- BS.PEEK N (R153): N bits into RESULT, the cursor unmoved. -/
def execBsPeek (n : BitVec 6) (s : State) : Host.Outcome State Fault Refusal :=
  .next (State.finish { s.issue with result := BitVec.ofNat 32 (s.rbits s.bsRpos.toNat n.toNat) })

/-- BS.READ N (R154): N bits into RESULT, the cursor moved, or BS_UNDERRUN with nothing moved; OUT beyond OUT_LEN is unspecified
either way (R86). -/
def execBsRead (n : BitVec 6) (s : State) : Host.Outcome State Fault Refusal :=
  let p := s.bsRpos.toNat
  if 8 * s.bsRsize.toNat < p + n.toNat then .next (s.issue.abort .bsUnderrun p)
  else
    .next (State.finish
      { s.issue with
        result := BitVec.ofNat 32 (s.rbits p n.toNat), bsRpos := BitVec.ofNat 32 (p + n.toNat) })

/-- BS.RALIGN (R156): the reader to the next byte boundary. -/
def execBsRalign (s : State) : Host.Outcome State Fault Refusal :=
  .next (State.finish { s.issue with bsRpos := BitVec.ofNat 32 (8 * ceilDiv s.bsRpos.toNat 8) })

/-- BS.EOD (R155): 1 into RESULT exactly when the cursor is at the end. -/
def execBsEod (s : State) : Host.Outcome State Fault Refusal :=
  .next (State.finish { s.issue with result := if s.bsRpos.toNat = 8 * s.bsRsize.toNat then 1 else 0 })

/-- BS.WRESET (R160): the writer and the output buffer emptied. -/
def execBsWreset (s : State) : Host.Outcome State Fault Refusal :=
  .next (State.finish { s.issue with bsWpos := 0, outLen := 0 })

/-- BS.WRITE N (R161): the low N bits of ARG appended to OUT, or OUT_OVERFLOW with nothing written; OUT beyond
OUT_LEN is unspecified either way (R86). -/
def execBsWrite (n : BitVec 6) (s : State) : Host.Outcome State Fault Refusal :=
  let w := s.bsWpos.toNat
  if s.cfg.outCap < ceilDiv (w + n.toNat) 8 then .next (s.issue.abort .outOverflow w)
  else
    .next (State.finish
      { s.issue.putOutBits w (s.argBits n.toNat) with
        bsWpos := BitVec.ofNat 32 (w + n.toNat), outLen := BitVec.ofNat 32 (ceilDiv (w + n.toNat) 8) })

/-- BS.WALIGN (R162): the writer to the next byte boundary; the padding bits are already 0. -/
def execBsWalign (s : State) : Host.Outcome State Fault Refusal :=
  .next (State.finish { s.issue with bsWpos := BitVec.ofNat 32 (8 * ceilDiv s.bsWpos.toNat 8) })

end Sys2Proof.Machine
end

