-- ==== Sys2Proof/Machine/Huffman.lean ====
section
/-! DEFINITION. huffman_codeword_lookup (spec/46_huffman_tables.md R470 to R481). -/

namespace Sys2Proof.Machine

/-- White terminal codes of runs 0..63, as (pattern, len) (R473, first table). -/
def whiteTerminal : List (Nat × Nat) :=
  [(0b00110101, 8), (0b000111, 6), (0b0111, 4), (0b1000, 4),
    (0b1011, 4), (0b1100, 4), (0b1110, 4), (0b1111, 4),
    (0b10011, 5), (0b10100, 5), (0b00111, 5), (0b01000, 5),
    (0b001000, 6), (0b000011, 6), (0b110100, 6), (0b110101, 6),
    (0b101010, 6), (0b101011, 6), (0b0100111, 7), (0b0001100, 7),
    (0b0001000, 7), (0b0010111, 7), (0b0000011, 7), (0b0000100, 7),
    (0b0101000, 7), (0b0101011, 7), (0b0010011, 7), (0b0100100, 7),
    (0b0011000, 7), (0b00000010, 8), (0b00000011, 8), (0b00011010, 8),
    (0b00011011, 8), (0b00010010, 8), (0b00010011, 8), (0b00010100, 8),
    (0b00010101, 8), (0b00010110, 8), (0b00010111, 8), (0b00101000, 8),
    (0b00101001, 8), (0b00101010, 8), (0b00101011, 8), (0b00101100, 8),
    (0b00101101, 8), (0b00000100, 8), (0b00000101, 8), (0b00001010, 8),
    (0b00001011, 8), (0b01010010, 8), (0b01010011, 8), (0b01010100, 8),
    (0b01010101, 8), (0b00100100, 8), (0b00100101, 8), (0b01011000, 8),
    (0b01011001, 8), (0b01011010, 8), (0b01011011, 8), (0b01001010, 8),
    (0b01001011, 8), (0b00110010, 8), (0b00110011, 8), (0b00110100, 8)]

/-- Black terminal codes of runs 0..63 (R473, first table). -/
def blackTerminal : List (Nat × Nat) :=
  [(0b0000110111, 10), (0b010, 3), (0b11, 2), (0b10, 2),
    (0b011, 3), (0b0011, 4), (0b0010, 4), (0b00011, 5),
    (0b000101, 6), (0b000100, 6), (0b0000100, 7), (0b0000101, 7),
    (0b0000111, 7), (0b00000100, 8), (0b00000111, 8), (0b000011000, 9),
    (0b0000010111, 10), (0b0000011000, 10), (0b0000001000, 10), (0b00001100111, 11),
    (0b00001101000, 11), (0b00001101100, 11), (0b00000110111, 11), (0b00000101000, 11),
    (0b00000010111, 11), (0b00000011000, 11), (0b000011001010, 12), (0b000011001011, 12),
    (0b000011001100, 12), (0b000011001101, 12), (0b000001101000, 12), (0b000001101001, 12),
    (0b000001101010, 12), (0b000001101011, 12), (0b000011010010, 12), (0b000011010011, 12),
    (0b000011010100, 12), (0b000011010101, 12), (0b000011010110, 12), (0b000011010111, 12),
    (0b000001101100, 12), (0b000001101101, 12), (0b000011011010, 12), (0b000011011011, 12),
    (0b000001010100, 12), (0b000001010101, 12), (0b000001010110, 12), (0b000001010111, 12),
    (0b000001100100, 12), (0b000001100101, 12), (0b000001010010, 12), (0b000001010011, 12),
    (0b000000100100, 12), (0b000000110111, 12), (0b000000111000, 12), (0b000000100111, 12),
    (0b000000101000, 12), (0b000001011000, 12), (0b000001011001, 12), (0b000000101011, 12),
    (0b000000101100, 12), (0b000001011010, 12), (0b000001100110, 12), (0b000001100111, 12)]

/-- White makeup codes of runs 64, 128, ..., 1728 (R473, second table). -/
def whiteMakeup : List (Nat × Nat) :=
  [(0b11011, 5), (0b10010, 5), (0b010111, 6), (0b0110111, 7),
    (0b00110110, 8), (0b00110111, 8), (0b01100100, 8), (0b01100101, 8),
    (0b01101000, 8), (0b01100111, 8), (0b011001100, 9), (0b011001101, 9),
    (0b011010010, 9), (0b011010011, 9), (0b011010100, 9), (0b011010101, 9),
    (0b011010110, 9), (0b011010111, 9), (0b011011000, 9), (0b011011001, 9),
    (0b011011010, 9), (0b011011011, 9), (0b010011000, 9), (0b010011001, 9),
    (0b010011010, 9), (0b011000, 6), (0b010011011, 9)]

/-- Black makeup codes of runs 64, 128, ..., 1728 (R473, second table). -/
def blackMakeup : List (Nat × Nat) :=
  [(0b0000001111, 10), (0b000011001000, 12), (0b000011001001, 12), (0b000001011011, 12),
    (0b000000110011, 12), (0b000000110100, 12), (0b000000110101, 12), (0b0000001101100, 13),
    (0b0000001101101, 13), (0b0000001001010, 13), (0b0000001001011, 13), (0b0000001001100, 13),
    (0b0000001001101, 13), (0b0000001110010, 13), (0b0000001110011, 13), (0b0000001110100, 13),
    (0b0000001110101, 13), (0b0000001110110, 13), (0b0000001110111, 13), (0b0000001010010, 13),
    (0b0000001010011, 13), (0b0000001010100, 13), (0b0000001010101, 13), (0b0000001011010, 13),
    (0b0000001011011, 13), (0b0000001100100, 13), (0b0000001100101, 13)]

/-- Extended makeup codes of runs 1792, 1856, ..., 2560, for both colours (R473, third table). -/
def extendedMakeup : List (Nat × Nat) :=
  [(0b00000001000, 11), (0b00000001100, 11), (0b00000001101, 11), (0b000000010010, 12),
    (0b000000010011, 12), (0b000000010100, 12), (0b000000010101, 12), (0b000000010110, 12),
    (0b000000010111, 12), (0b000000011100, 12), (0b000000011101, 12), (0b000000011110, 12),
    (0b000000011111, 12)]

/-- The terminal codes of a colour (R470). -/
def terminalCodes : Colour → List (Nat × Nat)
  | .white => whiteTerminal
  | .black => blackTerminal

/-- The makeup codes of a colour, extended ones included, from run 64 on in steps of 64 (R470, R472). -/
def makeupCodes : Colour → List (Nat × Nat)
  | .white => whiteMakeup ++ extendedMakeup
  | .black => blackMakeup ++ extendedMakeup

/-- `term(col, r)` for r ≤ 63 (R472). -/
def termCode (col : Colour) (r : Nat) : Nat × Nat := (terminalCodes col).getD r (0, 0)

/-- `makeup(col, m)` for m a multiple of 64 in 64..2560 (R472). -/
def makeupCode (col : Colour) (m : Nat) : Nat × Nat := (makeupCodes col).getD (m / 64 - 1) (0, 0)

/-- What a (pattern, length) pair is in a colour's table (R474, R480). -/
structure CodeMatch where
  makeup : Bool
  value : Nat
  len : Nat
deriving DecidableEq, Repr

/-- The code of a colour with pattern `p` and length `len`: terminal before makeup (R474). -/
def findCode (col : Colour) (p len : Nat) : Option CodeMatch :=
  match (terminalCodes col).idxOf? (p, len) with
  | some r => some ⟨false, r, len⟩
  | none =>
    match (makeupCodes col).idxOf? (p, len) with
    | some k => some ⟨true, 64 * (k + 1), len⟩
    | none => none

/-- RESULT of HUF.LOOKUP: HIT in bit 31, MAKEUP in bit 30, the run in bits 11:0; 0 for a miss (R480). -/
def lookupResult : Option CodeMatch → Word
  | none => 0
  | some m => (if m.makeup then 0xC0000000 else 0x80000000) ||| BitVec.ofNat 32 m.value

/-- RESULT of HUF.CODE: MAKEUP in bit 30, the length in bits 19:16, the pattern in bits 12:0 (R481). -/
def codeResult (makeup : Bool) (code : Nat × Nat) : Word :=
  BitVec.ofNat 32 (makeup.toNat * 2 ^ 30 + code.2 * 2 ^ 16 + code.1)

/-- HUF.LOOKUP C, N (R480): the meaning of the N-bit pattern in ARG. A miss is not an error. -/
def execHufLookup (c : Colour) (n : BitVec 6) (s : State) : Host.Outcome State Fault Refusal :=
  .next (State.finish { s.issue with result := lookupResult (findCode c (s.argLow n.toNat) n.toNat) })

/-- HUF.CODE C (R481): the codeword of the run in ARG; BAD_RUN changes nothing but STATUS and ERR_POS (R503). -/
def execHufCode (c : Colour) (s : State) : Host.Outcome State Fault Refusal :=
  let r := s.argRun
  if r ≤ 63 then .next (State.finish { s.issue with result := codeResult false (termCode c r) })
  else if r % 64 = 0 ∧ 64 ≤ r ∧ r ≤ 2560 then
    .next (State.finish { s.issue with result := codeResult true (makeupCode c r) })
  else .next (s.issue.raise .badRun r)

end Sys2Proof.Machine
end

