-- ==== Sys2Proof/Machine/Fax.lean ====
section
/-! DEFINITION. ccitt_fax_encoder and ccitt_fax_decoder (spec/45_ccitt_fax.md R400 to R415). -/

namespace Sys2Proof.Machine

/-- The colour after this one in a line (R404). -/
def otherColour : Colour → Colour
  | .white => .black
  | .black => .white

/-- `is_black(bit)` (R403). -/
def isBlack (blackIs1 bit : Bool) : Bool := bit == blackIs1

/-- `pixel_bit(black)` for a pixel of the given colour (R403). -/
def pixelBit (blackIs1 : Bool) : Colour → Bool
  | .black => blackIs1
  | .white => !blackIs1

/-- The EOL codeword `000000000001` (R406). -/
def eolBits : List Bool := lowBits 1 12

/-- RTC: six EOLs in a row (R406). -/
def rtcBits : List Bool := (List.replicate 6 eolBits).flatten

/-! ## Encoder -/

/-- `put_code((pattern, len))` (R405). -/
def codeBits (code : Nat × Nat) : List Bool := lowBits code.1 code.2

/-- `write_run(col, r)` (R405): makeup 2560 as often as it fits, the largest makeup code that fits, one terminal code. -/
def runBits (col : Colour) (r : Nat) : List Bool :=
  (List.replicate (r / 2560) (codeBits (makeupCode col 2560))).flatten
    ++ (if 64 ≤ r % 2560 then codeBits (makeupCode col (64 * (r % 2560 / 64))) else [])
    ++ codeBits (termCode col (r % 2560 % 64))

/-- The runs of a line's pixels (given as "is black"), `count` pixels of `col` being read already (R404, R410). -/
def lineRuns (col : Colour) (count : Nat) : List Bool → List (Colour × Nat)
  | [] => [(col, count)]
  | black :: rest =>
    if black = decide (col = .black) then lineRuns col (count + 1) rest
    else (col, count) :: lineRuns (otherColour col) 1 rest

/-- The codewords of one plain row: its first C pixels, runs alternating from white (R402, R404, R410). -/
def lineBits (f : FaxConfig) (row : List Byte) : List Bool :=
  (lineRuns .white 0 (((bitsOf row).take f.width).map (isBlack f.blackIs1))).flatMap fun run => runBits run.1 run.2

/-- The encoder's loop over the rows, `acc` being the bits written so far (R407, R410). -/
def faxRowsBits (f : FaxConfig) (acc : List Bool) : List (List Byte) → List Bool
  | [] => acc
  | row :: rest =>
    faxRowsBits f
      (acc ++ (if f.byteAlign then alignPad acc.length else []) ++ (if f.eol then eolBits else []) ++ lineBits f row) rest

/-- The RTC at the end, aligned as the lines are (R407, R410). -/
def faxClose (f : FaxConfig) (acc : List Bool) : List Bool :=
  if f.eob then acc ++ (if f.byteAlign then alignPad acc.length else []) ++ rtcBits else acc

/-- The bytes FAX.ENC writes for whole rows (R410). -/
def faxCompress (f : FaxConfig) (inp : List Byte) : List Byte :=
  packBits (faxClose f (faxRowsBits f [] (pieces f.rowBytes inp)))

/-- FAX.ENC's job (R410). -/
def faxEncJob (params : Params) (f : FaxConfig) (inp : List Byte) : JobResult :=
  match f.invalid? params with
  | some c => .raised c 0
  | none =>
    if inp.length % f.rowBytes ≠ 0 then .raised .faxPlainLength inp.length else ⟨faxCompress f inp, .success⟩

/-! ## Decoder -/

/-- The reader of FAX.DEC: the cursor and the bits from it to the end (R170). -/
structure FaxReader where
  pos : Nat
  rest : List Bool
deriving DecidableEq, Repr

/-- `skip(n)` (R170). -/
def FaxReader.skip (r : FaxReader) (n : Nat) : FaxReader := ⟨r.pos + n, r.rest.drop n⟩

/-- `align()` (R170). -/
def FaxReader.align (r : FaxReader) : FaxReader := r.skip (8 * ceilDiv r.pos 8 - r.pos)

/-- `lookup(col)` (R474): code lengths 2 to 13, each peeked zero-padded past the end. -/
def FaxReader.lookup (r : FaxReader) (col : Colour) : Option CodeMatch :=
  [2, 3, 4, 5, 6, 7, 8, 9, 10, 11, 12, 13].findSome? fun len => findCode col (peekBits len r.rest) len

/-- `decode_run(col)` (R411): the run, the position of its terminal code and the reader after it; `fuel` is more than
the remaining bits, `run` the sum of the makeup codes so far. -/
def decodeRun (col : Colour) : (fuel run : Nat) → FaxReader → Except (Cause × Nat) (Nat × Nat × FaxReader)
  | 0, _, r => .error (.faxBadCode, r.pos)
  | fuel + 1, run, r =>
    match r.lookup col with
    | none => .error (.faxBadCode, r.pos)
    | some m =>
      if r.rest.length < m.len then .error (.faxTruncated, r.pos)
      else if m.makeup then decodeRun col fuel (run + m.value) (r.skip m.len)
      else .ok (run + m.value, r.pos, r.skip m.len)

/-- `decode_line()` (R412) from column `line.length` on: the C pixels of the line as bits, and the reader after it. -/
def decodeLine (f : FaxConfig) : (fuel : Nat) → Colour → (line : List Bool) → FaxReader →
    Except (Cause × Nat) (List Bool × FaxReader)
  | 0, _, _, r => .error (.faxBadCode, r.pos)
  | fuel + 1, col, line, r =>
    if f.width ≤ line.length then .ok (line, r)
    else
      match decodeRun col (r.rest.length + 1) 0 r with
      | .error e => .error e
      | .ok (run, cpos, r') =>
        if f.width < line.length + run then .error (.faxRunOverflow, cpos)
        else decodeLine f fuel (otherColour col) (line ++ List.replicate run (pixelBit f.blackIs1 col)) r'

/-- What the decoder does at the start of a line once it has not stopped (R413 (5)): the reader behind an EOL if one is
there, `none` if only zero bits follow that EOL, FAX_MISSING_EOL if one is required and absent. -/
def lineStart (f : FaxConfig) (r : FaxReader) : Except (Cause × Nat) (Option FaxReader) :=
  if 12 ≤ r.rest.length ∧ peekBits 12 r.rest = 1 then
    if allZero (r.skip 12).rest = true then .ok none else .ok (some (r.skip 12))
  else if f.eol then .error (.faxMissingEol, r.pos)
  else .ok (some r)

/-- The decoder's stop conditions (R413 (3), (4)) at an aligned reader: data exhausted, or RTC when EOB = 1. -/
def faxStops (f : FaxConfig) (r : FaxReader) : Bool :=
  allZero r.rest || (f.eob && 72 ≤ r.rest.length && r.rest.take 72 = rtcBits)

/-- FAX.DEC's loop (R413), `rows` lines being decoded; `fuel` is more than the remaining bits. -/
def faxDecodeFrom (f : FaxConfig) : (fuel rows : Nat) → FaxReader → JobResult
  | 0, _, _ => .done
  | fuel + 1, rows, r =>
    if f.eob = false ∧ 0 < f.rows ∧ (rows : Int) = f.rows then .done
    else
      let r1 := if f.byteAlign then r.align else r
      if faxStops f r1 = true then .done
      else
        match lineStart f r1 with
        | .error (c, pos) => .raised c pos
        | .ok none => .done
        | .ok (some r2) =>
          match decodeLine f (r2.rest.length + 1) .white [] r2 with
          | .error (c, pos) => .raised c pos
          | .ok (line, r3) => JobResult.emitting (packBits line) (faxDecodeFrom f fuel (rows + 1) r3)

/-- FAX.DEC's job (R415). -/
def faxDecJob (params : Params) (f : FaxConfig) (inp : List Byte) : JobResult :=
  match f.invalid? params with
  | some c => .raised c 0
  | none => faxDecodeFrom f (8 * inp.length + 1) 0 ⟨0, bitsOf inp⟩

/-- FAX.ENC (R410). -/
def execFaxEnc (s : State) : Host.Outcome State Fault Refusal := .next (s.codecJob (faxEncJob s.cfg s.faxConfig))

/-- FAX.DEC (R415). -/
def execFaxDec (s : State) : Host.Outcome State Fault Refusal := .next (s.codecJob (faxDecJob s.cfg s.faxConfig))

end Sys2Proof.Machine
end

