-- ==== Sys2Proof/Machine/Predictor.lean ====
section
/-! DEFINITION. pixel_predictor_engine (spec/43_predictor.md R280 to R297). -/

namespace Sys2Proof.Machine

/-! ## TIFF predictor (k = 2) -/

/-- The first `n` samples of `bpc` bits of a row's bits (R284, R285). -/
def rowSamples (bpc : Nat) : (n : Nat) → List Bool → List Nat
  | 0, _ => []
  | n + 1, bits => natOfBits (bits.take bpc) :: rowSamples bpc n (bits.drop bpc)

/-- A row from its samples and its pad bits (R284, R286, R287). -/
def packRow (bpc : Nat) (samples : List Nat) (pad : List Bool) : List Byte :=
  packBits (samples.flatMap (fun v => lowBits v bpc) ++ pad)

/-- The differences d[j] of a row's samples (R286). -/
def tiffDiffs (colors bpc : Nat) (s : List Nat) : List Nat :=
  (List.range s.length).map fun j =>
    if j < colors then s.getD j 0 else (s.getD j 0 + 2 ^ bpc - s.getD (j - colors) 0) % 2 ^ bpc

/-- The running sums s[j] of a row's stored samples, `acc` being s[0..j) (R287). -/
def tiffSums (colors bpc : Nat) (acc : List Nat) : List Nat → List Nat
  | [] => acc
  | d :: ds =>
    let v := if acc.length < colors then d else (d + acc.getD (acc.length - colors) 0) % 2 ^ bpc
    tiffSums colors bpc (acc ++ [v]) ds

/-- TIFF pre-prediction of one row (R286). -/
def tiffPre (p : PredConfig) (row : List Byte) : List Byte :=
  packRow p.bpc (tiffDiffs p.colors p.bpc (rowSamples p.bpc p.spr (bitsOf row))) ((bitsOf row).drop (p.spr * p.bpc))

/-- TIFF post-prediction of one row (R287). -/
def tiffPost (p : PredConfig) (row : List Byte) : List Byte :=
  packRow p.bpc (tiffSums p.colors p.bpc [] (rowSamples p.bpc p.spr (bitsOf row))) ((bitsOf row).drop (p.spr * p.bpc))

/-! ## PNG predictors (k = 10..15) -/

/-- `paeth(a, b, c)` (R289). -/
def paeth (a b c : Nat) : Nat :=
  let p : Int := (a : Int) + b - c
  let pa := (p - a).natAbs
  let pb := (p - b).natAbs
  let pc := (p - c).natAbs
  if pa ≤ pb ∧ pa ≤ pc then a else if pb ≤ pc then b else c

/-- The prediction `pr_t(a, b, c)` of a PNG filter type, t ≤ 4 (R289). -/
def pngPrediction (t a b c : Nat) : Nat :=
  match t with
  | 0 => 0
  | 1 => a
  | 2 => b
  | 3 => (a + b) / 2
  | _ => paeth a b c

/-- Byte i of a row; a row of zero bytes may be given as the empty list (R288: the first row's `up`). -/
def rowByte (row : List Byte) (i : Nat) : Nat := (row.getD i 0).toNat

/-- The prediction of byte i from its neighbours in the raw rows `x` and `up` (R288, R289). -/
def pngPredict (t bpp : Nat) (x up : List Byte) (i : Nat) : Nat :=
  pngPrediction t (if bpp ≤ i then rowByte x (i - bpp) else 0) (rowByte up i)
    (if bpp ≤ i then rowByte up (i - bpp) else 0)

/-- PNG pre-prediction of one row: the tag, then the filtered bytes (R291). -/
def pngPre (t bpp : Nat) (up x : List Byte) : List Byte :=
  BitVec.ofNat 8 t :: (List.range x.length).map fun i => x.getD i 0 - BitVec.ofNat 8 (pngPredict t bpp x up i)

/-- PNG post-prediction of the bytes y of one row, `acc` being the bytes already reconstructed (R293). -/
def pngPost (t bpp : Nat) (up acc : List Byte) : List Byte → List Byte
  | [] => acc
  | y :: ys => pngPost t bpp up (acc ++ [y + BitVec.ofNat 8 (pngPredict t bpp acc up acc.length)]) ys

/-- The filter type PRED.PRE uses for every row (R290): kind − 10, and Paeth for kind 15. -/
def PredConfig.preTag (p : PredConfig) : Nat := if p.kind = 15 then 4 else p.kind - 10

/-! ## Pre-prediction -/

/-- The predicted rows, each filtered against the previous input row (R292). -/
def preRows (p : PredConfig) (up : List Byte) : List (List Byte) → List Byte
  | [] => []
  | x :: rest => (if p.kind = 2 then tiffPre p x else pngPre p.preTag p.bpp up x) ++ preRows p x rest

/-- The predicted bytes of the input, for a valid configuration and whole rows (R292). -/
def prePredict (p : PredConfig) (inp : List Byte) : List Byte :=
  if p.kind = 1 then inp else preRows p [] (pieces p.bpr inp)

/-- The check of the plain input's length (R292). -/
def PredConfig.badPlainLength (p : PredConfig) (inp : List Byte) : Bool := p.kind ≠ 1 && inp.length % p.bpr ≠ 0

/-- PRED.PRE's job (R292). -/
def predPreJob (params : Params) (p : PredConfig) (inp : List Byte) : JobResult :=
  match p.invalid? params with
  | some c => .raised c 0
  | none =>
    if p.badPlainLength inp = true then .raised .predPlainLength inp.length else ⟨prePredict p inp, .success⟩

/-! ## Post-prediction, as a stage fed byte by byte (R296) -/

/-- The stage's state: bytes pushed, the incomplete row, the previous reconstructed row. -/
structure PostState where
  q : Nat
  row : List Byte
  up : List Byte
deriving DecidableEq, Repr

/-- `pp_init()` (R296); the empty list stands for `bpr` zero bytes (`rowByte`). -/
def PostState.init : PostState := ⟨0, [], []⟩

/-- The bytes of a row in the stage's input: one tag byte more for PNG (R283, R296). -/
def PredConfig.postRowSize (p : PredConfig) : Nat := if p.kind = 2 then p.bpr else p.bpr + 1

/-- The row reconstructed from a complete row of the stage's input (R287, R293, R296). -/
def postRow (p : PredConfig) (up row : List Byte) : List Byte :=
  if p.kind = 2 then tiffPost p row else pngPost (rowByte row 0) p.bpp up [] (row.drop 1)

/-- `pp_push` over the bytes the stage is fed, then the end of its input (R296). `fault` is the error with which the
feeding unit stops after these bytes (LZW.DEC, R348), if any; without one, `pp_end()` follows. -/
def postStage (p : PredConfig) (lenient : Bool) (fault : Option (Cause × Nat)) (st : PostState) :
    List Byte → JobResult
  | [] =>
    match fault with
    | some (c, pos) => .raised c pos
    | none => if st.row ≠ [] then .raised .predBadLength (st.q - st.row.length) else .done
  | v :: vs =>
    if p.kind = 1 then JobResult.emitting [v] (postStage p lenient fault { st with q := st.q + 1 } vs)
    else
      let row := st.row ++ [v]
      if row.length = 1 ∧ 10 ≤ p.kind ∧ 4 < v.toNat then
        if lenient then ⟨[], .lenient st.q⟩ else .raised .predBadPngTag st.q
      else if row.length = p.postRowSize then
        JobResult.emitting (postRow p st.up row) (postStage p lenient fault ⟨st.q + 1, [], postRow p st.up row⟩ vs)
      else postStage p lenient fault ⟨st.q + 1, row, st.up⟩ vs

/-- PRED.POST's job (R295). -/
def predPostJob (params : Params) (p : PredConfig) (lenient : Bool) (inp : List Byte) : JobResult :=
  match p.invalid? params with
  | some c => .raised c 0
  | none => postStage p lenient none .init inp

/-- PRED.PRE (R292). -/
def execPredPre (s : State) : Host.Outcome State Fault Refusal :=
  .next (s.codecJob (predPreJob s.cfg s.predConfig))

/-- PRED.POST (R295). -/
def execPredPost (s : State) : Host.Outcome State Fault Refusal :=
  .next (s.codecJob (predPostJob s.cfg s.predConfig s.pngLenient))

end Sys2Proof.Machine
end

