-- ==== Sys2Proof/Machine/Lzw.lean ====
section
/-! DEFINITION. lzw_encoder and lzw_decoder (spec/44_lzw.md R340 to R350). -/

namespace Sys2Proof.Machine

/-- The control code CLEAR (R340). -/
def lzwClear : Nat := 256

/-- The control code END (R340). -/
def lzwEnd : Nat := 257

/-- `w(S)`: the width of a code at table size S (R341). -/
def lzwWidth (size : Nat) : Nat :=
  if size ≤ 510 then 9 else if size ≤ 1022 then 10 else if size ≤ 2046 then 11 else 12

/-- The encoder's width, N being its next free code (R341). -/
def wenc (n : Nat) : Nat := lzwWidth (n - 1)

/-- The decoder's width, D being its next free code (R341). -/
def wdec (d : Nat) : Nat := lzwWidth d

/-- The next free code of a table: `entries` are the strings of the codes from 258 on, in order (R340). -/
def nextCode (entries : List (List Byte)) : Nat := 258 + entries.length

/-! ## Encoder -/

/-- The code of a string in the encoder's dictionary (R342). -/
def dictCode? (entries : List (List Byte)) : List Byte → Option Nat
  | [b] => some b.toNat
  | t => (entries.idxOf? t).map (258 + ·)

/-- `dict[s]` for a string the dictionary holds. -/
def dictCode (entries : List (List Byte)) (s : List Byte) : Nat := (dictCode? entries s).getD 0

/-- The codes LZW.ENC writes for the rest of the data, each with its width, from the dictionary and the current match
string on; END closes them (R343 to R346). -/
def lzwCodesFrom (entries : List (List Byte)) (s : List Byte) : List Byte → List (Nat × Nat)
  | [] =>
    if s ≠ [] then [(dictCode entries s, wenc (nextCode entries)), (lzwEnd, wenc (nextCode entries + 1))]
    else [(lzwEnd, wenc (nextCode entries))]
  | x :: rest =>
    if (dictCode? entries (s ++ [x])).isSome = true then lzwCodesFrom entries (s ++ [x]) rest
    else
      (dictCode entries s, wenc (nextCode entries)) ::
        if nextCode entries + 1 = 4096 then (lzwClear, wenc 4096) :: lzwCodesFrom [] [x] rest
        else lzwCodesFrom (entries ++ [s ++ [x]]) [x] rest

/-- All codes of LZW.ENC: CLEAR first (R343). -/
def lzwCodes (data : List Byte) : List (Nat × Nat) := (lzwClear, wenc 258) :: lzwCodesFrom [] [] data

/-- The bytes LZW.ENC writes: the codes without gaps, padded to a byte (R345, R346). -/
def lzwCompress (data : List Byte) : List Byte := packBits ((lzwCodes data).flatMap fun c => lowBits c.1 c.2)

/-- LZW.ENC's job (R346). -/
def lzwEncJob (params : Params) (p : PredConfig) (inp : List Byte) : JobResult :=
  match p.invalid? params with
  | some c => .raised c 0
  | none =>
    if p.badPlainLength inp = true then .raised .predPlainLength inp.length
    else ⟨lzwCompress (prePredict p inp), .success⟩

/-! ## Decoder -/

/-- What the code stream gives: the strings' bytes in order, and the LZW error at its end, if any (R348, R349). -/
structure LzwOutput where
  bytes : List Byte
  fault : Option (Cause × Nat)
deriving DecidableEq, Repr

/-- The string `cur` first, then the rest of the stream. -/
def LzwOutput.after (cur : List Byte) (r : LzwOutput) : LzwOutput := ⟨cur ++ r.bytes, r.fault⟩

/-- The string of a code c ≤ D read when the previous string is `prev` (R347); c = D is the KwKwK case. -/
def codeString (entries : List (List Byte)) (prev : List Byte) (c : Nat) : List Byte :=
  if c < 256 then [BitVec.ofNat 8 c]
  else if c < nextCode entries then entries.getD (c - 258) []
  else prev ++ prev.take 1

/-- The decoder's loop from bit position `pos` with the bits that remain (R348); `fuel` is at least their number. -/
def lzwDecodeFrom : (fuel : Nat) → (entries : List (List Byte)) → (prev : Option (List Byte)) → (pos : Nat) →
    (rest : List Bool) → LzwOutput
  | 0, _, _, _, _ => ⟨[], none⟩
  | fuel + 1, entries, prev, pos, rest =>
    let w := wdec (nextCode entries)
    if rest.length < w then ⟨[], none⟩
    else
      let c := natOfBits (rest.take w)
      if c = lzwClear then lzwDecodeFrom fuel [] none (pos + w) (rest.drop w)
      else if c = lzwEnd then ⟨[], none⟩
      else if nextCode entries = 4095 then ⟨[], some (.lzwTableFull, pos)⟩
      else
        match prev with
        | none =>
          if 256 ≤ c then ⟨[], some (.lzwBadFirstCode, pos)⟩
          else
            LzwOutput.after [BitVec.ofNat 8 c]
              (lzwDecodeFrom fuel entries (some [BitVec.ofNat 8 c]) (pos + w) (rest.drop w))
        | some str =>
          if nextCode entries < c then ⟨[], some (.lzwBadCode, pos)⟩
          else
            let cur := codeString entries str c
            LzwOutput.after cur
              (lzwDecodeFrom fuel (entries ++ [str ++ cur.take 1]) (some cur) (pos + w) (rest.drop w))

/-- The decompression of the input, before the predictor is undone (R348): the reset state, at bit 0. -/
def lzwDecompress (inp : List Byte) : LzwOutput := lzwDecodeFrom (8 * inp.length) [] none 0 (bitsOf inp)

/-- LZW.DEC's job (R348): the decompressed bytes are pushed into the predictor stage as they are produced, so the
first fault in stream order is the one reported (R349). -/
def lzwDecJob (params : Params) (p : PredConfig) (lenient : Bool) (inp : List Byte) : JobResult :=
  match p.invalid? params with
  | some c => .raised c 0
  | none => postStage p lenient (lzwDecompress inp).fault .init (lzwDecompress inp).bytes

/-- LZW.ENC (R346). -/
def execLzwEnc (s : State) : Host.Outcome State Fault Refusal :=
  .next (s.codecJob (lzwEncJob s.cfg s.predConfig))

/-- LZW.DEC (R348). -/
def execLzwDec (s : State) : Host.Outcome State Fault Refusal :=
  .next (s.codecJob (lzwDecJob s.cfg s.predConfig s.pngLenient))

end Sys2Proof.Machine
end

