-- ==== Sys2Proof/Machine/Radix.lean ====
section
/-! DEFINITION. ascii_hex_codec and ascii85_codec (spec/41_radix.md R190 to R215). -/

namespace Sys2Proof.Machine

/-! ## ASCIIHex -/

/-- The upper-case hex digit of a value below 16 (R191). -/
def hexChar (d : Nat) : Byte := BitVec.ofNat 8 (if d < 10 then 0x30 + d else 0x41 + (d - 10))

/-- The value of a hex digit, either case; `none` for any other character (R190). -/
def hexValue? (ch : Byte) : Option Nat :=
  if 0x30 ≤ ch.toNat ∧ ch.toNat ≤ 0x39 then some (ch.toNat - 0x30)
  else if 0x41 ≤ ch.toNat ∧ ch.toNat ≤ 0x46 then some (ch.toNat - 0x41 + 10)
  else if 0x61 ≤ ch.toNat ∧ ch.toNat ≤ 0x66 then some (ch.toNat - 0x61 + 10)
  else none

/-- The whitespace set WS of rule R190. -/
def isWhitespace (ch : Byte) : Bool := ch ∈ [0x00#8, 0x09#8, 0x0A#8, 0x0C#8, 0x0D#8, 0x20#8]

/-- The two digits of a byte (R191). -/
def hexPair (b : Byte) : List Byte := [hexChar (b.toNat / 16), hexChar (b.toNat % 16)]

/-- AHX.ENC's job (R191). -/
def ahxEncode (inp : List Byte) : JobResult := ⟨inp.flatMap hexPair, .success⟩

/-- The end of AHX.DEC's scan: a trailing odd digit is completed with a zero nibble (R193). -/
def ahxFinish : Option Nat → JobResult
  | none => .done
  | some h => JobResult.emitting [BitVec.ofNat 8 (16 * h)] .done

/-- AHX.DEC's scan from offset `i`, with the pending half byte (R193). -/
def ahxScan (i : Nat) (half : Option Nat) : List Byte → JobResult
  | [] => ahxFinish half
  | ch :: rest =>
    if ch = 0x3E#8 then ahxFinish half
    else if isWhitespace ch = true then ahxScan (i + 1) half rest
    else
      match hexValue? ch with
      | none => .raised .ahxBadChar i
      | some v =>
        match half with
        | none => ahxScan (i + 1) (some v) rest
        | some h => JobResult.emitting [BitVec.ofNat 8 (16 * h + v)] (ahxScan (i + 1) none rest)

/-- AHX.DEC's job (R193). -/
def ahxDecode (inp : List Byte) : JobResult := ahxScan 0 none inp

/-- AHX.ENC (R191). -/
def execAhxEnc (s : State) : Host.Outcome State Fault Refusal := .next (s.codecJob ahxEncode)

/-- AHX.DEC (R193). -/
def execAhxDec (s : State) : Host.Outcome State Fault Refusal := .next (s.codecJob ahxDecode)

/-! ## ASCII85 -/

/-- The value V of a group of four bytes, big-endian (R210). -/
def groupValue (g0 g1 g2 g3 : Byte) : Nat :=
  g0.toNat * 2 ^ 24 + g1.toNat * 2 ^ 16 + g2.toNat * 2 ^ 8 + g3.toNat

/-- The four bytes g0 g1 g2 g3 of a value (R210). -/
def groupBytes (v : Nat) : List Byte :=
  [BitVec.ofNat 8 (v / 2 ^ 24), BitVec.ofNat 8 (v / 2 ^ 16), BitVec.ofNat 8 (v / 2 ^ 8), BitVec.ofNat 8 v]

/-- `digits(V)`: the five characters of a value, most significant first (R210). -/
def digits85 (v : Nat) : List Byte :=
  [BitVec.ofNat 8 (v / 85 ^ 4 % 85 + 33), BitVec.ofNat 8 (v / 85 ^ 3 % 85 + 33), BitVec.ofNat 8 (v / 85 ^ 2 % 85 + 33),
    BitVec.ofNat 8 (v / 85 % 85 + 33), BitVec.ofNat 8 (v % 85 + 33)]

/-- `value(c0..c4)` (R210). -/
def value85 (cs : List Byte) : Nat := cs.foldl (fun v c => 85 * v + (c.toNat - 33)) 0

/-- What A85.ENC emits (R212): full groups, then a final partial group cut to n + 1 characters (R213). -/
def a85Chars : List Byte → List Byte
  | g0 :: g1 :: g2 :: g3 :: rest =>
    (if groupValue g0 g1 g2 g3 = 0 then [0x7A#8] else digits85 (groupValue g0 g1 g2 g3)) ++ a85Chars rest
  | [] => []
  | [g0] => (digits85 (groupValue g0 0 0 0)).take 2
  | [g0, g1] => (digits85 (groupValue g0 g1 0 0)).take 3
  | [g0, g1, g2] => (digits85 (groupValue g0 g1 g2 0)).take 4

/-- A85.ENC's job (R212). -/
def a85Encode (inp : List Byte) : JobResult := ⟨a85Chars inp, .success⟩

/-- `final_group(grp, gstart)` (R215): a short group padded on the right with `u`. -/
def a85Final (grp : List Byte) (gstart : Nat) : JobResult :=
  if grp.length = 0 then .done
  else if grp.length = 1 then .raised .a85ShortGroup gstart
  else
    let v := value85 (grp ++ List.replicate (5 - grp.length) 0x75#8)
    if 2 ^ 32 - 1 < v then .raised .a85Overflow gstart
    else JobResult.emitting ((groupBytes v).take (grp.length - 1)) .done

/-- A85.DEC's scan from offset `i`, with the group read so far and its start (R214). -/
def a85Scan (i gstart : Nat) (grp : List Byte) : List Byte → JobResult
  | [] => a85Final grp gstart
  | ch :: rest =>
    if ch = 0x7E#8 then
      if rest.head? = some 0x3E#8 then a85Final grp gstart else .raised .a85BadEod i
    else if ch = 0x7A#8 then
      if grp ≠ [] then .raised .a85ZInGroup i
      else JobResult.emitting [0, 0, 0, 0] (a85Scan (i + 1) gstart grp rest)
    else if 0x21 ≤ ch.toNat ∧ ch.toNat ≤ 0x75 then
      let start := if grp = [] then i else gstart
      let grp' := grp ++ [ch]
      if grp'.length = 5 then
        if 2 ^ 32 - 1 < value85 grp' then .raised .a85Overflow start
        else JobResult.emitting (groupBytes (value85 grp')) (a85Scan (i + 1) start [] rest)
      else a85Scan (i + 1) start grp' rest
    else .raised .a85BadChar i

/-- A85.DEC's job (R214). -/
def a85Decode (inp : List Byte) : JobResult := a85Scan 0 0 [] inp

/-- A85.ENC (R212). -/
def execA85Enc (s : State) : Host.Outcome State Fault Refusal := .next (s.codecJob a85Encode)

/-- A85.DEC (R214). -/
def execA85Dec (s : State) : Host.Outcome State Fault Refusal := .next (s.codecJob a85Decode)

end Sys2Proof.Machine
end

