-- ==== Sys2Proof/Machine/RunLength.lean ====
section
/-! DEFINITION. run_length_encoder and run_length_decoder (spec/42_run_length.md R250 to R254). -/

namespace Sys2Proof.Machine

/-- A run of at least 2 starts at the head of the list: `pair(j)` (R251). -/
def startsPair : List Byte → Bool
  | x :: y :: _ => x = y
  | _ => false

/-- `run(i)` at the head of the list, 1..128 (R251); 0 for the empty list. -/
def runLength : List Byte → Nat
  | [] => 0
  | x :: xs => min 128 (leadCount x xs + 1)

/-- `lit_end(i) - i` at the head of the list, at most `cap` (R251). -/
def literalLength : (cap : Nat) → List Byte → Nat
  | 0, _ => 0
  | _ + 1, [] => 0
  | cap + 1, _ :: rest => if startsPair rest = true then 1 else literalLength cap rest + 1

/-- The records RL.ENC writes for the rest of the input (R252); `fuel` is at least the input's length. -/
def rlRecords : (fuel : Nat) → List Byte → List Byte
  | 0, _ => []
  | _ + 1, [] => []
  | fuel + 1, x :: xs =>
    if 2 ≤ runLength (x :: xs) then
      [BitVec.ofNat 8 (257 - runLength (x :: xs)), x] ++ rlRecords fuel ((x :: xs).drop (runLength (x :: xs)))
    else
      [BitVec.ofNat 8 (literalLength 128 (x :: xs) - 1)] ++ (x :: xs).take (literalLength 128 (x :: xs))
        ++ rlRecords fuel ((x :: xs).drop (literalLength 128 (x :: xs)))

/-- RL.ENC's job (R252): the records, then the end-of-data byte 128 (R253). -/
def rlEncode (inp : List Byte) : JobResult := ⟨rlRecords inp.length inp ++ [0x80#8], .success⟩

/-- RL.DEC's loop at offset `i` (R254); `fuel` is at least the remaining length. -/
def rlDecodeFrom : (fuel i : Nat) → List Byte → JobResult
  | 0, _, _ => .done
  | _ + 1, _, [] => .done
  | fuel + 1, i, c :: rest =>
    if c = 0x80#8 then .done
    else if c.toNat < 128 then
      if rest.length < c.toNat + 1 then .raised .rlTruncated i
      else JobResult.emitting (rest.take (c.toNat + 1)) (rlDecodeFrom fuel (i + 2 + c.toNat) (rest.drop (c.toNat + 1)))
    else
      match rest with
      | [] => .raised .rlTruncated i
      | v :: rest' => JobResult.emitting (List.replicate (257 - c.toNat) v) (rlDecodeFrom fuel (i + 2) rest')

/-- RL.DEC's job (R254). -/
def rlDecode (inp : List Byte) : JobResult := rlDecodeFrom inp.length 0 inp

/-- RL.ENC (R252). -/
def execRlEnc (s : State) : Host.Outcome State Fault Refusal := .next (s.codecJob rlEncode)

/-- RL.DEC (R254). -/
def execRlDec (s : State) : Host.Outcome State Fault Refusal := .next (s.codecJob rlDecode)

end Sys2Proof.Machine
end

