-- ==== Sys2Proof/Machine/System.lean ====
section
/-! DEFINITION. Block control: SYS.NOP (spec/60_exceptions.md R520) and SYS.SRESET (spec/70_reset_and_hazards.md R552). -/

namespace Sys2Proof.Machine

/-- SYS.NOP (R520): a previous error is cleared from STATUS and ERR_POS, and nothing else changes; what OUT holds beyond
OUT_LEN is unspecified after it as after any job (R86, I5; log 5). -/
def execSysNop (s : State) : Host.Outcome State Fault Refusal := .next s.issue.finish

/-- SYS.SRESET (R552): every register except STATUS at its reset value; IN and OUT contents are not changed,
beyond OUT_LEN = 0 included (95_test_vectors.md P5). -/
def execSysSreset (s : State) : Host.Outcome State Fault Refusal := .next s.issue.resetRegs.succeed

end Sys2Proof.Machine
end

