-- ==== Sys2Proof/Machine/Dispatch.lean ====
section
/-! DEFINITION. One arm per command (spec/30_encoding.md R113). -/

namespace Sys2Proof.Machine

/-- The meaning of a command that decodes, issued while BUSY = 0 (R501). -/
def exec (i : Instr) (s : State) : Host.Outcome State Fault Refusal :=
  match i with
  | .bsRload => Sys2Proof.Machine.execBsRload s
  | .bsPeek n => Sys2Proof.Machine.execBsPeek n s
  | .bsRead n => Sys2Proof.Machine.execBsRead n s
  | .bsRalign => Sys2Proof.Machine.execBsRalign s
  | .bsEod => Sys2Proof.Machine.execBsEod s
  | .bsWreset => Sys2Proof.Machine.execBsWreset s
  | .bsWrite n => Sys2Proof.Machine.execBsWrite n s
  | .bsWalign => Sys2Proof.Machine.execBsWalign s
  | .ahxEnc => Sys2Proof.Machine.execAhxEnc s
  | .ahxDec => Sys2Proof.Machine.execAhxDec s
  | .a85Enc => Sys2Proof.Machine.execA85Enc s
  | .a85Dec => Sys2Proof.Machine.execA85Dec s
  | .rlEnc => Sys2Proof.Machine.execRlEnc s
  | .rlDec => Sys2Proof.Machine.execRlDec s
  | .predPre => Sys2Proof.Machine.execPredPre s
  | .predPost => Sys2Proof.Machine.execPredPost s
  | .lzwEnc => Sys2Proof.Machine.execLzwEnc s
  | .lzwDec => Sys2Proof.Machine.execLzwDec s
  | .faxEnc => Sys2Proof.Machine.execFaxEnc s
  | .faxDec => Sys2Proof.Machine.execFaxDec s
  | .hufLookup c n => Sys2Proof.Machine.execHufLookup c n s
  | .hufCode c => Sys2Proof.Machine.execHufCode c s
  | .sysNop => Sys2Proof.Machine.execSysNop s
  | .sysSreset => Sys2Proof.Machine.execSysSreset s

end Sys2Proof.Machine
end

