-- ==== Sys2Proof/Machine/Bus.lean ====
section
/-! DEFINITION. The host's accesses to the block's three windows (spec/20_memory.md R80 to R94), and the command a
write to CMD starts (spec/10_state.md R33, spec/60_exceptions.md R501). -/

namespace Sys2Proof.Machine

/-- What a host address names (R80). -/
inductive Target where
  /-- A byte offset of the register window. -/
  | register (offset : Nat)
  /-- An index of the IN window, whether below IN_CAP or not. -/
  | inByte (index : Nat)
  /-- An index of the OUT window, whether below OUT_CAP or not. -/
  | outByte (index : Nat)
  /-- No address of the block. -/
  | outside
deriving DecidableEq, Repr

/-- The offset of the IN window from BASE (R80). -/
def inWindow : Nat := 0x01000000

/-- The offset of the OUT window from BASE (R80). -/
def outWindow : Nat := 0x02000000

/-- The size of the IN and of the OUT window: 16 MiB each (92_eei_decisions.md D2; log 10). -/
def windowSize : Nat := 0x01000000

/-- The window and place of a host address (R80). -/
def busTarget (p : Params) (addr : Nat) : Target :=
  if addr < p.base then .outside
  else
    let off := addr - p.base
    if off < 0x100 then .register off
    else if inWindow ≤ off ∧ off < inWindow + windowSize then .inByte (off - inWindow)
    else if outWindow ≤ off ∧ off < outWindow + windowSize then .outByte (off - outWindow)
    else .outside

/-- The cause a rejected command word is reported with (R115, R502). -/
def causeOfDecode : DecodeError → Cause
  | .illegalCmd => .illegalCmd
  | .reservedField => .reservedField
  | .badBitcount => .badBitcount

/-- A write of `v` to CMD while BUSY = 0 (R501): a word that does not decode raises IllegalCommand at `v` and changes
nothing else (R503); one that decodes runs its command. -/
def runCommand (v : Word) (s : State) : Host.Outcome State Fault Refusal :=
  match decode v with
  | .error e => .next (s.raise (causeOfDecode e) v.toNat)
  | .ok i => exec i s

/-- A host write (R81 to R84, R89, R94): refused accesses, writes to OUT and, while BUSY = 1, all writes have no effect. -/
def busWrite (addr bytes : Nat) (value : Word) (s : State) : Host.Outcome State Fault Refusal :=
  match busTarget s.cfg addr with
  | .outside => .fault (.outsideBlock addr)
  | .register off =>
    if bytes ≠ 4 ∨ off % 4 ≠ 0 then .next s
    else if s.busy = true then .next s
    else
      match regAt off with
      | none => .next s
      | some .cmd => runCommand value s
      | some r => .next (s.writeReg r value)
  | .inByte i =>
    if bytes ≠ 1 ∨ s.cfg.inCap ≤ i then .next s
    else if s.busy = true then .next s
    else .next { s with inBuf := s.inBuf.write i (value.truncate 8) }
  | .outByte _ => .next s

/-- What a host read returns (R81 to R84, R94); `none` for an address outside the block. -/
def busValue? (addr bytes : Nat) (s : State) : Option Word :=
  match busTarget s.cfg addr with
  | .outside => none
  | .register off =>
    some (if bytes ≠ 4 ∨ off % 4 ≠ 0 then Config.refusedRead s.busDraws addr bytes
      else if s.busy = true ∧ regAt off ≠ some .status then Config.busyRead s.busDraws addr
      else
        match regAt off with
        | none => 0
        | some r => s.readReg r)
  | .inByte i =>
    some (if bytes ≠ 1 ∨ s.cfg.inCap ≤ i then Config.refusedRead s.busDraws addr bytes
      else if s.busy = true then Config.busyRead s.busDraws addr
      else (s.readIn i).zeroExtend 32)
  | .outByte i =>
    some (if bytes ≠ 1 ∨ s.cfg.outCap ≤ i then Config.refusedRead s.busDraws addr bytes
      else if s.busy = true then Config.busyRead s.busDraws addr
      else (s.readOut i).zeroExtend 32)

/-- The draw numbers move on after a write, and after a read while a job runs; repeating a read of an idle block
returns the same value (R89; log 6, log 7). -/
def State.drawAfterRead (s : State) : State := if s.busy = true then { s with busDraws := s.busDraws + 1 } else s

/-- A host read: the value goes to the host and the block does not change (R89). -/
def busRead (addr bytes : Nat) (s : State) : Host.Outcome State Fault Refusal :=
  match busValue? addr bytes s with
  | none => .fault (.outsideBlock addr)
  | some v => .next { s.drawAfterRead with readData := v }

/-- One access of the host, `s` being the state with that access taken from the queue (R91, R120). -/
def hostAccess (a : HostAction) (s : State) : Host.Outcome State Fault Refusal :=
  match a with
  | .write addr bytes value => busWrite addr bytes value { s with busDraws := s.busDraws + 1 }
  | .read addr bytes => busRead addr bytes s
  | .wait =>
    if s.busy = true then .next { s with readData := s.readReg .status, host := .wait :: s.host }
    else .next { s with readData := s.readReg .status }

/-- One step of the host and block: the host's next access, or nothing where it has none (R15, R91; log 1, log 17). -/
def machineStep (s : State) : Host.Outcome State Fault Refusal :=
  match s.host with
  | [] => .next s
  | a :: rest => hostAccess a { s with host := rest }

/-- The state in which the host's next access writes the word `w` (its low `nbits` bits) to CMD of an idle block. -/
def State.withCommand (s : State) (nbits w : Nat) : State :=
  { s with
    status := s.status &&& 0xFFFFFFFE
    host := .write s.cfg.base 4 (BitVec.ofNat 32 (w % 2 ^ nbits)) :: s.host }

end Sys2Proof.Machine
end

