-- ==== Sys2Proof/Machine/Step.lean ====
section
/-! DEFINITION. One step of the machine, and how a command is placed where the step takes its next one from. -/

namespace Sys2Proof.Machine

/-- One step: the host's next access and all the block does in answer, a command's whole job included (R15, R91). -/
def step (s : State) : Host.Outcome State Fault Refusal := machineStep s

/-- The command word placed as the host's next access, a 32-bit write to CMD (R33, R110), and BUSY = 0, without which
the block ignores it (R94). Nothing else changes. Log 1. -/
def State.withFetchWord (s : State) (nbits w : Nat) : State := s.withCommand nbits w

end Sys2Proof.Machine
end

