-- ==== Sys2Proof/Machine/HostProgram.lean ====
section
/-! DEFINITION. The host programs of spec/30_encoding.md R119 to R121: command names, primitive actions, and the
abbreviations they expand from. -/

namespace Sys2Proof.Machine

/-- A colour as the assembler writes it (R119). -/
def asmColour : Colour → String
  | .white => "white"
  | .black => "black"

/-- A command as the assembler writes it (R119). -/
def asmCommand : Instr → String
  | .bsRload => "bs.rload"
  | .bsPeek n => "bs.peek " ++ toString n.toNat
  | .bsRead n => "bs.read " ++ toString n.toNat
  | .bsRalign => "bs.ralign"
  | .bsEod => "bs.eod"
  | .bsWreset => "bs.wreset"
  | .bsWrite n => "bs.write " ++ toString n.toNat
  | .bsWalign => "bs.walign"
  | .ahxEnc => "ahx.enc"
  | .ahxDec => "ahx.dec"
  | .a85Enc => "a85.enc"
  | .a85Dec => "a85.dec"
  | .rlEnc => "rl.enc"
  | .rlDec => "rl.dec"
  | .predPre => "pred.pre"
  | .predPost => "pred.post"
  | .lzwEnc => "lzw.enc"
  | .lzwDec => "lzw.dec"
  | .faxEnc => "fax.enc"
  | .faxDec => "fax.dec"
  | .hufLookup c n => "huf.lookup " ++ asmColour c ++ ", " ++ toString n.toNat
  | .hufCode c => "huf.code " ++ asmColour c
  | .sysNop => "sys.nop"
  | .sysSreset => "sys.sreset"

/-- `wr NAME, v` (R120). -/
def hostWr (p : Params) (r : Reg) (v : Word) : HostAction := .write (p.base + r.offset) 4 v

/-- `rd NAME` (R120). -/
def hostRd (p : Params) (r : Reg) : HostAction := .read (p.base + r.offset) 4

/-- `wrb IN+i, b` (R120). -/
def hostWrb (p : Params) (i : Nat) (b : Byte) : HostAction := .write (p.base + inWindow + i) 1 (b.zeroExtend 32)

/-- `rdb OUT+i` (R120). -/
def hostRdb (p : Params) (i : Nat) : HostAction := .read (p.base + outWindow + i) 1

/-- `cmd <mnemonic>` (R120). -/
def hostCmd (p : Params) (i : Instr) : HostAction := hostWr p .cmd (encode i)

/-- `run <mnemonic>` (R121). -/
def hostRun (p : Params) (i : Instr) : List HostAction := [hostCmd p i, .wait]

/-- `wrb IN+j, b` for consecutive indices j from i on (R121). -/
def hostWrbFrom (p : Params) (i : Nat) : List Byte → List HostAction
  | [] => []
  | b :: bs => hostWrb p i b :: hostWrbFrom p (i + 1) bs

/-- `load [b0, b1, ...]` (R121). -/
def hostLoad (p : Params) (bs : List Byte) : List HostAction :=
  hostWrbFrom p 0 bs ++ [hostWr p .inLen (BitVec.ofNat 32 bs.length)]

/-- `arg v` (R121). -/
def hostArg (p : Params) (v : Word) : List HostAction := [hostWr p .arg v]

/-- `chain` (R121), as expanded by a host that sees the state `s`: each byte read from OUT is written to IN. -/
def hostChain (s : State) : List HostAction :=
  (List.range s.outLen.toNat).flatMap (fun i => [hostRdb s.cfg i, hostWrb s.cfg i (s.readOut i)])
    ++ [hostWr s.cfg .inLen s.outLen]

/-- `pred KIND, COLORS, BPC, COLUMNS` (R121). -/
def hostPred (p : Params) (kind colors bpc columns : Word) : List HostAction :=
  [hostWr p .predKind kind, hostWr p .predColors colors, hostWr p .predBpc bpc, hostWr p .predColumns columns]

/-- `fax K, COLUMNS, ROWS, FLAGS` (R121). -/
def hostFax (p : Params) (k columns rows flags : Word) : List HostAction :=
  [hostWr p .faxK k, hostWr p .faxColumns columns, hostWr p .faxRows rows, hostWr p .faxFlags flags]

end Sys2Proof.Machine
end

