-- ==== Sys2Proof/Safety.lean ====
section
/-! DEFINITION. The terms claims are stated in: the invariant of a sound block (spec/10_state.md R34 to R54), what a
command keeps, what a job leaves (spec/00_scope.md R11, spec/40_bitstream.md R172), and the tables of
spec/30_encoding.md R113 to R115 written out once more from the spec, so that claims can hold the decoder to them. -/

namespace Sys2Proof.Machine

/-! ## The invariant -/

/-- A value STATUS can hold between two steps (R34, R501): that of reset, of a success, of a lenient success, or of an
error; never BUSY, since a job is one step (R94; log 2). -/
def StatusLegal (w : Word) : Prop :=
  w = 0 ∨ w = statusDone false ∨ w = statusDone true ∨ ∃ c : Cause, w = statusError c

/-- Every byte of OUT below OUT_LEN holds a value: it is the job's output or the writer's (R86). -/
abbrev OutDefined (s : State) : Prop := ∀ i < s.outLen.toNat, (s.outBuf.read? i).isSome = true

/-- The bits of the last byte of OUT that the writer has not written are 0 (R161, R162). -/
abbrev WriterPadded (s : State) : Prop :=
  ∀ k < 8, s.bsWpos.toNat % 8 ≠ 0 → s.bsWpos.toNat % 8 ≤ k → (s.readOut (s.bsWpos.toNat / 8)).getLsbD (7 - k) = false

/-- What holds of the block between any two host accesses. -/
structure StateInv (s : State) : Prop where
  /-- The parameters meet R5. -/
  params : s.cfg.Legal
  /-- STATUS is legal (R34, R501). -/
  status : StatusLegal s.status
  /-- OUT_LEN ≤ OUT_CAP (R37). -/
  outLen : s.outLen.toNat ≤ s.cfg.outCap
  /-- BS_RSIZE ≤ IN_CAP (R41). -/
  rsize : s.bsRsize.toNat ≤ s.cfg.inCap
  /-- BS_RPOS ≤ 8 × BS_RSIZE (R40). -/
  rpos : s.bsRpos.toNat ≤ 8 * s.bsRsize.toNat
  /-- OUT_LEN = ceil_div(BS_WPOS, 8) (R42). -/
  wpos : s.outLen.toNat = ceilDiv s.bsWpos.toNat 8
  /-- The reserved fields of CTRL hold 0 (R43). -/
  ctrl : s.ctrl.toNat < 2
  /-- The reserved fields of FAX_FLAGS hold 0 (R51). -/
  faxFlags : s.faxFlags.toNat < 16
  /-- IN is in canonical form and lies below IN_CAP (R53). -/
  inBuf : s.inBuf.wf ∧ ∀ c ∈ s.inBuf, c.1 < s.cfg.inCap
  /-- OUT is in canonical form and lies below OUT_CAP (R54). -/
  outBuf : s.outBuf.wf ∧ ∀ c ∈ s.outBuf, c.1 < s.cfg.outCap
  /-- OUT[0..OUT_LEN) is defined (R86). -/
  outDefined : OutDefined s
  /-- The writer's last byte is padded with zero bits (R161). -/
  padded : WriterPadded s

/-- The reader's part of the invariant (R5, R40, R41). -/
abbrev ReaderSound (s : State) : Prop :=
  s.cfg.Legal ∧ s.bsRsize.toNat ≤ s.cfg.inCap ∧ s.bsRpos.toNat ≤ 8 * s.bsRsize.toNat

/-- The writer's part of the invariant (R5, R37, R42). -/
abbrev WriterSound (s : State) : Prop :=
  s.cfg.Legal ∧ s.outLen.toNat ≤ s.cfg.outCap ∧ s.outLen.toNat = ceilDiv s.bsWpos.toNat 8

/-! ## How a command ends -/

/-- STATUS and ERR_POS after success (R501): STATUS = 0x2. -/
abbrev Succeeded (t : State) : Prop := t.status = 0x00000002 ∧ t.errPos = 0

/-- STATUS and ERR_POS after a lenient truncation at `pos` (R297, R501): STATUS = 0xA. -/
abbrev Truncated (t : State) (pos : Nat) : Prop := t.status = 0x0000000A ∧ t.errPos.toNat = pos

/-- STATUS and ERR_POS after an error (R501): `(code << 8) | (kind << 4) | 0x6`, and the position. -/
abbrev Failed (t : State) (c : Cause) (pos : Nat) : Prop :=
  t.status.toNat = c.code * 256 + c.kind.code * 16 + 6 ∧ t.errPos.toNat = pos

/-! ## What a command keeps -/

/-- What every command but SYS.SRESET keeps: the parameters, IN_LEN, ARG, CTRL, every configuration register, every
byte of IN, and the host's side (R36, R38, R53). -/
structure SettingsKept (s t : State) : Prop where
  cfg : t.cfg = s.cfg
  inLen : t.inLen = s.inLen
  arg : t.arg = s.arg
  ctrl : t.ctrl = s.ctrl
  predKind : t.predKind = s.predKind
  predColors : t.predColors = s.predColors
  predBpc : t.predBpc = s.predBpc
  predColumns : t.predColumns = s.predColumns
  faxK : t.faxK = s.faxK
  faxColumns : t.faxColumns = s.faxColumns
  faxRows : t.faxRows = s.faxRows
  faxFlags : t.faxFlags = s.faxFlags
  inBytes : ∀ i, t.readIn i = s.readIn i
  host : t.host = s.host
  readData : t.readData = s.readData
  busDraws : t.busDraws = s.busDraws

/-- BS_RPOS, BS_RSIZE and BS_WPOS are unchanged. -/
abbrev CursorsKept (s t : State) : Prop := t.bsRpos = s.bsRpos ∧ t.bsRsize = s.bsRsize ∧ t.bsWpos = s.bsWpos

/-- OUT_LEN and OUT[0..OUT_LEN) are unchanged. What lies at and beyond OUT_LEN is unspecified after a job (R86). -/
abbrev OutputKept (s t : State) : Prop :=
  t.outLen = s.outLen ∧ ∀ i < s.outLen.toNat, t.readOut i = s.readOut i

/-- OUT_LEN and every byte of OUT are unchanged. -/
abbrev OutputUntouched (s t : State) : Prop := t.outLen = s.outLen ∧ ∀ i, t.readOut i = s.readOut i

/-! ## Codec commands -/

/-- The codec commands: those of 41_radix.md to 45_ccitt_fax.md (R16). -/
def isCodec : Instr → Bool
  | .ahxEnc | .ahxDec | .a85Enc | .a85Dec | .rlEnc | .rlDec | .predPre | .predPost | .lzwEnc | .lzwDec
  | .faxEnc | .faxDec => true
  | .bsRload | .bsPeek _ | .bsRead _ | .bsRalign | .bsEod | .bsWreset | .bsWrite _ | .bsWalign
  | .hufLookup _ _ | .hufCode _ | .sysNop | .sysSreset => false

/-- The job of a codec command on an unbounded output buffer: what it emits and how it ends. -/
def codecEmits (i : Instr) (s : State) : JobResult :=
  match i with
  | .ahxEnc => ahxEncode s.inp
  | .ahxDec => ahxDecode s.inp
  | .a85Enc => a85Encode s.inp
  | .a85Dec => a85Decode s.inp
  | .rlEnc => rlEncode s.inp
  | .rlDec => rlDecode s.inp
  | .predPre => predPreJob s.cfg s.predConfig s.inp
  | .predPost => predPostJob s.cfg s.predConfig s.pngLenient s.inp
  | .lzwEnc => lzwEncJob s.cfg s.predConfig s.inp
  | .lzwDec => lzwDecJob s.cfg s.predConfig s.pngLenient s.inp
  | .faxEnc => faxEncJob s.cfg s.faxConfig s.inp
  | .faxDec => faxDecJob s.cfg s.faxConfig s.inp
  | .bsRload | .bsPeek _ | .bsRead _ | .bsRalign | .bsEod | .bsWreset | .bsWrite _ | .bsWalign
  | .hufLookup _ _ | .hufCode _ | .sysNop | .sysSreset => .done

/-- The parameters are legal (R5) and IN_LEN is within IN_CAP (R504): a codec command reads its input. -/
abbrev CodecReady (s : State) : Prop := s.cfg.Legal ∧ s.inLen.toNat ≤ s.cfg.inCap

/-- What every codec command leaves when it has output `out`: OUT[0..OUT_LEN) (R11), the bitstream registers (R172),
and everything it keeps, RESULT among it (R39). -/
structure CodecLeaves (s t : State) (out : List Byte) : Prop where
  output : t.outBytes = out
  outLen : t.outLen.toNat = out.length
  rpos : t.bsRpos = 0
  rsize : t.bsRsize = 0
  wpos : t.bsWpos.toNat = 8 * out.length
  result : t.result = s.result
  settings : SettingsKept s t

/-- The codec command completes with success and output `out`. -/
def CodecSucceeds (i : Instr) (s : State) (out : List Byte) : Prop :=
  ∃ t, exec i s = .next t ∧ Succeeded t ∧ CodecLeaves s t out

/-- The codec command ends with success after a lenient truncation at `pos` (R297), with output `out`. -/
def CodecTruncates (i : Instr) (s : State) (pos : Nat) (out : List Byte) : Prop :=
  ∃ t, exec i s = .next t ∧ Truncated t pos ∧ CodecLeaves s t out

/-- The codec command raises the cause `c` at `pos`, with partial output `out` (R11). -/
def CodecFails (i : Instr) (s : State) (c : Cause) (pos : Nat) (out : List Byte) : Prop :=
  ∃ t, exec i s = .next t ∧ Failed t c pos ∧ CodecLeaves s t out

/-! ## The tables of the encoding, from the spec's own words -/

/-- A row of R113 with its field use by R114. -/
structure OperationRow where
  unit : Nat
  op : Nat
  /-- The legal range of N where N is used; `none` where it must be zero. -/
  nRange : Option (Nat × Nat)
  usesC : Bool
deriving DecidableEq, Repr

/-- The operation map of R113 with R114. -/
def operationMap : List OperationRow :=
  [⟨0x0, 0x0, none, false⟩, ⟨0x0, 0x1, some (0, 32), false⟩, ⟨0x0, 0x2, some (0, 32), false⟩, ⟨0x0, 0x3, none, false⟩,
    ⟨0x0, 0x4, none, false⟩, ⟨0x0, 0x5, none, false⟩, ⟨0x0, 0x6, some (0, 32), false⟩, ⟨0x0, 0x7, none, false⟩,
    ⟨0x1, 0x0, none, false⟩, ⟨0x1, 0x1, none, false⟩, ⟨0x2, 0x0, none, false⟩, ⟨0x2, 0x1, none, false⟩,
    ⟨0x3, 0x0, none, false⟩, ⟨0x3, 0x1, none, false⟩, ⟨0x4, 0x0, none, false⟩, ⟨0x4, 0x1, none, false⟩,
    ⟨0x5, 0x0, none, false⟩, ⟨0x5, 0x1, none, false⟩, ⟨0x6, 0x0, none, false⟩, ⟨0x6, 0x1, none, false⟩,
    ⟨0x7, 0x0, some (1, 13), true⟩, ⟨0x7, 0x1, none, true⟩, ⟨0xF, 0x0, none, false⟩, ⟨0xF, 0x1, none, false⟩]

/-- The checks of `decode_cmd` (R115) over that map: the cause the word is rejected with, if any. -/
def commandCheck (v : Word) : Option Cause :=
  match operationMap.find? fun r => r.unit = v.toNat / 16 % 16 ∧ r.op = v.toNat % 16 with
  | none => some .illegalCmd
  | some r =>
    if v.toNat / 32768 ≠ 0 then some .reservedField
    else if v.toNat / 256 % 64 ≠ 0 ∧ r.nRange = none then some .reservedField
    else if v.toNat / 16384 % 2 ≠ 0 ∧ r.usesC = false then some .reservedField
    else
      match r.nRange with
      | none => none
      | some (lo, hi) => if lo ≤ v.toNat / 256 % 64 ∧ v.toNat / 256 % 64 ≤ hi then none else some .badBitcount

/-- The rows of spec/opcode_table.json as (match, mask, the command made from the fields N and C). -/
def opcodeTable : List (Word × Word × (BitVec 6 → Colour → Instr)) :=
  [(0x00000000, 0xFFFFFFFF, fun _ _ => .bsRload), (0x00000001, 0xFFFFC0FF, fun n _ => .bsPeek n),
    (0x00000002, 0xFFFFC0FF, fun n _ => .bsRead n), (0x00000003, 0xFFFFFFFF, fun _ _ => .bsRalign),
    (0x00000004, 0xFFFFFFFF, fun _ _ => .bsEod), (0x00000005, 0xFFFFFFFF, fun _ _ => .bsWreset),
    (0x00000006, 0xFFFFC0FF, fun n _ => .bsWrite n), (0x00000007, 0xFFFFFFFF, fun _ _ => .bsWalign),
    (0x00000010, 0xFFFFFFFF, fun _ _ => .ahxEnc), (0x00000011, 0xFFFFFFFF, fun _ _ => .ahxDec),
    (0x00000020, 0xFFFFFFFF, fun _ _ => .a85Enc), (0x00000021, 0xFFFFFFFF, fun _ _ => .a85Dec),
    (0x00000030, 0xFFFFFFFF, fun _ _ => .rlEnc), (0x00000031, 0xFFFFFFFF, fun _ _ => .rlDec),
    (0x00000040, 0xFFFFFFFF, fun _ _ => .predPre), (0x00000041, 0xFFFFFFFF, fun _ _ => .predPost),
    (0x00000050, 0xFFFFFFFF, fun _ _ => .lzwEnc), (0x00000051, 0xFFFFFFFF, fun _ _ => .lzwDec),
    (0x00000060, 0xFFFFFFFF, fun _ _ => .faxEnc), (0x00000061, 0xFFFFFFFF, fun _ _ => .faxDec),
    (0x00000070, 0xFFFF80FF, fun n c => .hufLookup c n), (0x00000071, 0xFFFFBFFF, fun _ c => .hufCode c),
    (0x000000F0, 0xFFFFFFFF, fun _ _ => .sysNop), (0x000000F1, 0xFFFFFFFF, fun _ _ => .sysSreset)]

/-! ## Reference terms for the data -/

/-- `bit(buf, p)` of R7, over a byte function. -/
def streamBit (buf : Nat → Byte) (p : Nat) : Bool := (buf (p / 8)).getLsbD (7 - p % 8)

/-- The reader's bit at stream position q (R151). -/
def readerBit (s : State) (q : Nat) : Bool := if q < 8 * s.bsRsize.toNat then streamBit s.readIn q else false

/-- The string "0123456789ABCDEF" of R191. -/
def hexAlphabet : List Byte :=
  [0x30, 0x31, 0x32, 0x33, 0x34, 0x35, 0x36, 0x37, 0x38, 0x39, 0x41, 0x42, 0x43, 0x44, 0x45, 0x46]

/-- The hex text of a byte sequence (R191). -/
def hexText (bs : List Byte) : List Byte :=
  bs.flatMap fun b => [hexAlphabet.getD (b.toNat / 16) 0, hexAlphabet.getD (b.toNat % 16) 0]

/-- The bytes of the complete pairs of a digit sequence; an odd last digit is dropped (R193, errors). -/
def digitPairs : List Nat → List Byte
  | h :: l :: ds => BitVec.ofNat 8 (16 * h + l) :: digitPairs ds
  | _ => []

/-- The bytes of a digit sequence, an odd last digit completed with a zero nibble (R192). -/
def digitBytes (ds : List Nat) : List Byte := digitPairs (if ds.length % 2 = 0 then ds else ds ++ [0])

/-- The data characters of ASCIIHex text: truncated at the first `>`, whitespace stripped (R192). -/
def hexData (inp : List Byte) : List Byte := (inp.takeWhile (· ≠ 0x3E#8)).filter fun ch => !isWhitespace ch

/-- A character of ASCII85 data proper, `!` to `u` (R210, R211). -/
abbrev isDigit85 (ch : Byte) : Prop := 0x21 ≤ ch.toNat ∧ ch.toNat ≤ 0x75

/-- The codewords of a colour with EOL, as bit strings (R471). -/
def codewordsWithEol (col : Colour) : List (List Bool) :=
  (terminalCodes col ++ makeupCodes col).map codeBits ++ [eolBits]

/-- The bits of a register that are defined: reserved fields read 0 (R34, R43, R51, R52). -/
def Reg.defined : Reg → Word
  | .cmd => 0
  | .status => 0x0000FFFF
  | .ctrl => 0x00000001
  | .faxFlags => 0x0000000F
  | .errPos | .inLen | .outLen | .arg | .result | .bsRpos | .bsRsize | .bsWpos | .predKind | .predColors | .predBpc
  | .predColumns | .faxK | .faxColumns | .faxRows => 0xFFFFFFFF

/-- The read-write registers of R32. -/
def Reg.writable : Reg → Bool
  | .inLen | .arg | .ctrl | .predKind | .predColors | .predBpc | .predColumns | .faxK | .faxColumns | .faxRows
  | .faxFlags => true
  | .cmd | .status | .errPos | .outLen | .result | .bsRpos | .bsRsize | .bsWpos => false

end Sys2Proof.Machine
end

