-- ==== Sys2Proof/Certificates/Slice0/Obligations.lean ====
section
/-! DEFINITION. The statements for the provers. Each docstring names the rule of spec/ it rests on. -/

open Sys2Proof Sys2Proof.Machine

/-! ## Command words -/

/-- R110 to R115: a well-formed command's word decodes to that command, with every operand at every value. -/
def Obligations.EncodedCommandDecodes : Prop :=
  ∀ i : Instr, i.WellFormed → decode (encode i) = .ok i

/-- R115, R116: a word that decodes is well formed and is the one word of its command. -/
def Obligations.DecodedWordIsTheEncoding : Prop :=
  ∀ (v : Word) (i : Instr), decode v = .ok i → i.WellFormed ∧ encode i = v

/-- R113, R114 against spec/opcode_table.json: a word decodes to a command exactly if it matches a row of the table
under its mask, the command is that row's with the fields N and C, and N is legal. -/
def Obligations.DecodeMatchesOpcodeTable : Prop :=
  ∀ (v : Word) (i : Instr),
    decode v = .ok i ↔
      i.WellFormed ∧ ∃ row ∈ opcodeTable, v &&& row.2.1 = row.1 ∧
        i = row.2.2 (v.extractLsb' 8 6) (if v.getLsbD 14 then .black else .white)

/-- R113: words written out from the spec's own examples decode to the commands they stand for. -/
def Obligations.SpecWordsDecode : Prop :=
  decode 0x00000902 = .ok (.bsRead 9) ∧ decode 0x00004770 = .ok (.hufLookup .black 7) ∧
    decode 0x00000050 = .ok .lzwEnc ∧ decode 0x000000F1 = .ok .sysSreset ∧ decode 0x00004071 = .ok (.hufCode .black) ∧
    decode 0x00002102 = .error .badBitcount ∧ decode 0x00000090 = .error .illegalCmd ∧
    decode 0x000100F0 = .error .reservedField

/-- R115: a word written to CMD of an idle block is checked in the rule's order, over the map of R113 and R114; a
rejected word raises IllegalCommand with ERR_POS the word and changes nothing else; an accepted one runs a command. -/
def Obligations.CommandWordCheckedInOrder : Prop :=
  ∀ (s : State) (v : Word) (rest : List HostAction),
    s.busy = false → s.host = .write s.cfg.base 4 v :: rest →
      let s1 := { s with host := rest, busDraws := s.busDraws + 1 }
      match commandCheck v with
      | some c => ∃ t, step s = .next t ∧ Failed t c v.toNat ∧ t = { s1 with status := t.status, errPos := t.errPos }
      | none => ∃ i, decode v = .ok i ∧ step s = exec i s1

/-- A step whose host access writes a word that decodes to CMD of an idle block is `exec` of that command on the state
with the access taken; and so is the step after `withFetchWord` (log 1). -/
def Obligations.StepRunsDecodedCommand : Prop :=
  (∀ (s : State) (v : Word) (i : Instr) (rest : List HostAction),
    s.busy = false → s.host = .write s.cfg.base 4 v :: rest → decode v = .ok i →
      step s = exec i { s with host := rest, busDraws := s.busDraws + 1 }) ∧
  ∀ (s : State) (w : Nat) (i : Instr),
    decode (BitVec.ofNat 32 w) = .ok i →
      step (s.withFetchWord 32 w) =
        exec i { s with status := s.status &&& 0xFFFFFFFE, busDraws := s.busDraws + 1 }

/-! ## Host accesses -/

/-- R52: after a host write to a read-write register a read returns the value restricted to the defined fields, and no
other register and no buffer changed. -/
def Obligations.WrittenRegisterReadsBack : Prop :=
  ∀ (s : State) (r : Reg) (v : Word) (rest : List HostAction),
    r.writable = true → s.busy = false → s.host = hostWr s.cfg r v :: hostRd s.cfg r :: rest →
      ∃ t u, step s = .next t ∧ step t = .next u ∧ u.readData = v &&& r.defined ∧
        (∀ q, q ≠ r → t.readReg q = s.readReg q) ∧ (∀ i, t.readIn i = s.readIn i) ∧ ∀ i, t.readOut i = s.readOut i

/-- R32 to R34, R43, R51, R52: a host write to a read-only register or to a reserved one has no effect; on an idle block a
read of a register returns the value it holds with the reserved bits 0, a read of CMD or of a reserved register 0. -/
def Obligations.ReadOnlyAndReservedIgnoreWrites : Prop :=
  (∀ (s : State) (off : Nat) (v : Word) (rest : List HostAction),
    off < 0x100 → off % 4 = 0 → s.busy = false →
      (off ∈ [0x04, 0x08, 0x10, 0x18, 0x1C, 0x20, 0x24] ∨ 0x4C ≤ off →
        s.host = .write (s.cfg.base + off) 4 v :: rest →
          step s = .next { s with host := rest, busDraws := s.busDraws + 1 }) ∧
      (0x4C ≤ off → s.host = .read (s.cfg.base + off) 4 :: rest →
        step s = .next { s with host := rest, readData := 0 })) ∧
  ∀ (s : State) (off : Nat) (value : Word) (rest : List HostAction), s.busy = false →
    (off, value) ∈ [(0x00, 0), (0x04, s.status &&& 0x0000FFFF), (0x08, s.errPos), (0x0C, s.inLen), (0x10, s.outLen),
      (0x14, s.arg), (0x18, s.result), (0x1C, s.bsRpos), (0x20, s.bsRsize), (0x24, s.bsWpos),
      (0x28, s.ctrl &&& 0x00000001), (0x2C, s.predKind), (0x30, s.predColors), (0x34, s.predBpc),
      (0x38, s.predColumns), (0x3C, s.faxK), (0x40, s.faxColumns), (0x44, s.faxRows),
      (0x48, s.faxFlags &&& 0x0000000F)] →
    s.host = .read (s.cfg.base + off) 4 :: rest → step s = .next { s with host := rest, readData := value }

/-- R83, R84: an access of a wrong width, alignment or range inside the windows is refused: a write has no effect, and a
read changes nothing but the value the host got. An access below BASE is outside the block: the model's fault (log 10). -/
def Obligations.RefusedAccessesHaveNoEffect : Prop :=
  ∀ (s : State) (addr bytes : Nat) (v : Word) (rest : List HostAction),
    ((∃ off, off < 0x100 ∧ addr = s.cfg.base + off ∧ (bytes ≠ 4 ∨ off % 4 ≠ 0)) ∨
      (∃ i, i < 2 ^ 24 ∧ addr = s.cfg.base + 0x01000000 + i ∧ (bytes ≠ 1 ∨ s.cfg.inCap ≤ i)) ∨
      (∃ i, i < 2 ^ 24 ∧ addr = s.cfg.base + 0x02000000 + i ∧ (bytes ≠ 1 ∨ s.cfg.outCap ≤ i)) →
        (s.host = .write addr bytes v :: rest → step s = .next { s with host := rest, busDraws := s.busDraws + 1 }) ∧
        (s.host = .read addr bytes :: rest →
          ∃ t, step s = .next t ∧ t = { s with host := rest, readData := t.readData, busDraws := t.busDraws })) ∧
    (addr < s.cfg.base →
      (s.host = .write addr bytes v :: rest → step s = .fault (.outsideBlock addr)) ∧
      (s.host = .read addr bytes :: rest → step s = .fault (.outsideBlock addr)))

/-- R89: a host read has no side effect, and repeating it while no command runs returns the same value. That this takes in
refused reads, whose value R83 leaves to a draw, and bytes of IN the host has not written is the model's reading (log 6,
log 4). -/
def Obligations.ReadsHaveNoSideEffect : Prop :=
  ∀ (s t : State) (addr bytes : Nat) (rest : List HostAction),
    s.busy = false → s.host = .read addr bytes :: .read addr bytes :: rest → step s = .next t →
      t = { s with host := .read addr bytes :: rest, readData := t.readData } ∧
        ∃ u, step t = .next u ∧ u.readData = t.readData

/-- R81: a host byte write sets IN[i] and no other byte; a byte read returns it. -/
def Obligations.WrittenInByteReadsBack : Prop :=
  ∀ (s : State) (i : Nat) (b : Byte) (rest : List HostAction),
    s.cfg.Legal → i < s.cfg.inCap → s.busy = false →
      s.host = hostWrb s.cfg i b :: .read (s.cfg.base + 0x01000000 + i) 1 :: rest →
        ∃ t u, step s = .next t ∧ step t = .next u ∧ u.readData = b.zeroExtend 32 ∧ t.readIn i = b ∧
          (∀ j, j ≠ i → t.readIn j = s.readIn j) ∧ (∀ j, t.readOut j = s.readOut j) ∧ ∀ r, t.readReg r = s.readReg r

/-- R82: a host write to OUT has no effect; a byte read of OUT below OUT_CAP returns OUT[i] and does not consume it. -/
def Obligations.OutIsReadOnlyForTheHost : Prop :=
  ∀ (s : State) (i : Nat) (v : Word) (rest : List HostAction),
    s.cfg.Legal → i < s.cfg.outCap → s.busy = false →
      s.host = .write (s.cfg.base + 0x02000000 + i) 1 v :: hostRdb s.cfg i :: rest →
        ∃ t u, step s = .next t ∧ step t = .next u ∧
          t = { s with host := hostRdb s.cfg i :: rest, busDraws := s.busDraws + 1 } ∧
          u = { t with host := rest, readData := (s.readOut i).zeroExtend 32 }

/-- R94: while BUSY = 1 host writes inside the windows have no effect, and a read of STATUS shows BUSY = 1. No step of the
model leaves BUSY = 1 (log 2), so this is about the access rules alone. -/
def Obligations.BusyBlockIgnoresWrites : Prop :=
  ∀ (s : State) (addr bytes : Nat) (v : Word) (rest : List HostAction),
    s.busy = true →
      (busTarget s.cfg addr ≠ .outside → s.host = .write addr bytes v :: rest →
        step s = .next { s with host := rest, busDraws := s.busDraws + 1 }) ∧
      (s.host = hostRd s.cfg .status :: rest → ∃ t, step s = .next t ∧ t.readData.getLsbD 0 = true)

/-! ## bitstream_reader_writer -/

/-- R150: BS.RLOAD binds the reader to IN_LEN bytes at bit 0, or raises IN_LEN_RANGE with BS_RSIZE and BS_RPOS unchanged.
That OUT_LEN and OUT[0..OUT_LEN) stay on this error is the model's reading of R150 against R506 (log 13). -/
def Obligations.RloadBindsReader : Prop :=
  encode .bsRload = 0x00000000 ∧ ∀ s : State, OutDefined s →
    (s.inLen.toNat ≤ s.cfg.inCap →
      ∃ t, exec .bsRload s = .next t ∧ Succeeded t ∧ t.bsRsize = s.inLen ∧ t.bsRpos = 0 ∧ t.bsWpos = s.bsWpos ∧
        t.result = s.result ∧ OutputKept s t ∧ SettingsKept s t) ∧
    (s.cfg.inCap < s.inLen.toNat →
      ∃ t, exec .bsRload s = .next t ∧ Failed t .inLenRange s.inLen.toNat ∧ CursorsKept s t ∧ t.result = s.result ∧
        OutputKept s t ∧ SettingsKept s t)

/-- R153 with R151: BS.PEEK N puts the N bits from the cursor on into RESULT, the first one most significant, bits past
the end being 0, and moves nothing. -/
def Obligations.PeekReadsBits : Prop :=
  (∀ n, (encode (.bsPeek n)).toNat = n.toNat * 2 ^ 8 + 0x01) ∧
  ∀ (s : State) (n : BitVec 6), n.toNat ≤ 32 → OutDefined s →
    ∃ t, exec (.bsPeek n) s = .next t ∧ Succeeded t ∧
      (∀ k, t.result.getLsbD k = (decide (k < n.toNat) && readerBit s (s.bsRpos.toNat + (n.toNat - 1 - k)))) ∧
      CursorsKept s t ∧ OutputKept s t ∧ SettingsKept s t

/-- R154: BS.READ N does the same and moves the cursor by N; with fewer than N bits left it raises BS_UNDERRUN at the
cursor, RESULT, the cursor and OUT[0..OUT_LEN) unchanged. -/
def Obligations.ReadConsumesBits : Prop :=
  (∀ n, (encode (.bsRead n)).toNat = n.toNat * 2 ^ 8 + 0x02) ∧
  ∀ (s : State) (n : BitVec 6), n.toNat ≤ 32 → OutDefined s → ReaderSound s →
    (s.bsRpos.toNat + n.toNat ≤ 8 * s.bsRsize.toNat →
      ∃ t, exec (.bsRead n) s = .next t ∧ Succeeded t ∧
        (∀ k, t.result.getLsbD k = (decide (k < n.toNat) && readerBit s (s.bsRpos.toNat + (n.toNat - 1 - k)))) ∧
        t.bsRpos.toNat = s.bsRpos.toNat + n.toNat ∧ t.bsRsize = s.bsRsize ∧ t.bsWpos = s.bsWpos ∧
        OutputKept s t ∧ SettingsKept s t) ∧
    (8 * s.bsRsize.toNat < s.bsRpos.toNat + n.toNat →
      ∃ t, exec (.bsRead n) s = .next t ∧ Failed t .bsUnderrun s.bsRpos.toNat ∧ t.result = s.result ∧
        CursorsKept s t ∧ OutputKept s t ∧ SettingsKept s t)

/-- R155: BS.EOD gives 1 exactly when the cursor is at 8 × BS_RSIZE, else 0. -/
def Obligations.EodTellsEndOfData : Prop :=
  encode .bsEod = 0x00000004 ∧ ∀ s : State, OutDefined s →
    ∃ t, exec .bsEod s = .next t ∧ Succeeded t ∧
      t.result.toNat = (if s.bsRpos.toNat = 8 * s.bsRsize.toNat then 1 else 0) ∧
      CursorsKept s t ∧ OutputKept s t ∧ SettingsKept s t

/-- R156: BS.RALIGN moves the cursor to the next byte boundary, by less than 8 bits and never past the end. -/
def Obligations.RalignMovesToByteBoundary : Prop :=
  encode .bsRalign = 0x00000003 ∧ ∀ s : State, OutDefined s → ReaderSound s →
    ∃ t, exec .bsRalign s = .next t ∧ Succeeded t ∧ t.bsRpos.toNat % 8 = 0 ∧ s.bsRpos.toNat ≤ t.bsRpos.toNat ∧
      t.bsRpos.toNat < s.bsRpos.toNat + 8 ∧ t.bsRpos.toNat ≤ 8 * s.bsRsize.toNat ∧ t.bsRsize = s.bsRsize ∧
      t.bsWpos = s.bsWpos ∧ t.result = s.result ∧ OutputKept s t ∧ SettingsKept s t

/-- R160: BS.WRESET empties the writer and OUT. -/
def Obligations.WresetEmptiesWriter : Prop :=
  encode .bsWreset = 0x00000005 ∧ ∀ s : State,
    ∃ t, exec .bsWreset s = .next t ∧ Succeeded t ∧ t.bsWpos = 0 ∧ t.outLen = 0 ∧ t.bsRpos = s.bsRpos ∧
      t.bsRsize = s.bsRsize ∧ t.result = s.result ∧ SettingsKept s t

/-- R161: BS.WRITE N appends the low N bits of ARG, most significant first; earlier bits stay and the rest of the last
byte is 0. If they do not fit it raises OUT_OVERFLOW at BS_WPOS and nothing is written: the cursors, OUT_LEN and
OUT[0..OUT_LEN) stay; what lies beyond is unspecified after any job (R86). -/
def Obligations.WriteAppendsBits : Prop :=
  (∀ n, (encode (.bsWrite n)).toNat = n.toNat * 2 ^ 8 + 0x06) ∧
  ∀ (s : State) (n : BitVec 6), n.toNat ≤ 32 → WriterSound s → OutDefined s → WriterPadded s →
    (ceilDiv (s.bsWpos.toNat + n.toNat) 8 ≤ s.cfg.outCap →
      ∃ t, exec (.bsWrite n) s = .next t ∧ Succeeded t ∧ t.bsWpos.toNat = s.bsWpos.toNat + n.toNat ∧
        t.outLen.toNat = ceilDiv (s.bsWpos.toNat + n.toNat) 8 ∧
        (∀ p < s.bsWpos.toNat, streamBit t.readOut p = streamBit s.readOut p) ∧
        (∀ k < n.toNat, streamBit t.readOut (s.bsWpos.toNat + k) = s.arg.getLsbD (n.toNat - 1 - k)) ∧
        (∀ p, s.bsWpos.toNat + n.toNat ≤ p → p < 8 * t.outLen.toNat → streamBit t.readOut p = false) ∧
        t.bsRpos = s.bsRpos ∧ t.bsRsize = s.bsRsize ∧ t.result = s.result ∧ SettingsKept s t) ∧
    (s.cfg.outCap < ceilDiv (s.bsWpos.toNat + n.toNat) 8 →
      ∃ t, exec (.bsWrite n) s = .next t ∧ Failed t .outOverflow s.bsWpos.toNat ∧ OutputKept s t ∧
        CursorsKept s t ∧ t.result = s.result ∧ SettingsKept s t)

/-- R162: BS.WALIGN moves the writer to the end of its last byte; OUT[0..OUT_LEN) stays and the padding bits are 0. -/
def Obligations.WalignPadsWithZeros : Prop :=
  encode .bsWalign = 0x00000007 ∧ ∀ s : State, WriterSound s → OutDefined s → WriterPadded s →
    ∃ t, exec .bsWalign s = .next t ∧ Succeeded t ∧ t.bsWpos.toNat = 8 * ceilDiv s.bsWpos.toNat 8 ∧
      t.bsWpos.toNat = 8 * t.outLen.toNat ∧ OutputKept s t ∧
      (∀ p, s.bsWpos.toNat ≤ p → p < t.bsWpos.toNat → streamBit t.readOut p = false) ∧
      t.bsRpos = s.bsRpos ∧ t.bsRsize = s.bsRsize ∧ t.result = s.result ∧ SettingsKept s t

/-! ## Codec commands in common -/

/-- R11, R501, R172: a codec command whose input is in range and whose output fits answers the next state its job calls
for: success, a lenient truncation or an error, with that output (ERR_POS is 32 bits wide; log 16). -/
def Obligations.CodecReportsItsJob : Prop :=
  ∀ (i : Instr) (s : State), isCodec i = true → CodecReady s → (codecEmits i s).out.length ≤ s.cfg.outCap →
    match (codecEmits i s).ending with
    | .success => CodecSucceeds i s (codecEmits i s).out
    | .lenient pos => CodecTruncates i s (pos % 2 ^ 32) (codecEmits i s).out
    | .error c pos => CodecFails i s c (pos % 2 ^ 32) (codecEmits i s).out

/-- R504, R505, R508: a codec command with IN_LEN beyond IN_CAP raises IN_LEN_RANGE before anything else, with no output;
one whose output would pass OUT_CAP raises OUT_OVERFLOW with the first OUT_CAP bytes kept. -/
def Obligations.CodecRespectsBufferLimits : Prop :=
  ∀ (i : Instr) (s : State), isCodec i = true → s.cfg.Legal →
    (s.cfg.inCap < s.inLen.toNat → CodecFails i s .inLenRange s.inLen.toNat []) ∧
    (s.inLen.toNat ≤ s.cfg.inCap → s.cfg.outCap < (codecEmits i s).out.length →
      CodecFails i s .outOverflow s.cfg.outCap ((codecEmits i s).out.take s.cfg.outCap))

/-- R172: every codec job, at its end with success or error, unbinds the reader and moves the writer to the end of the
output; a codec command's word that raises IllegalCommand starts no job and changes none of them. -/
def Obligations.CodecSetsBitstreamRegisters : Prop :=
  (∀ (i : Instr) (s t : State), isCodec i = true → s.cfg.Legal → exec i s = .next t →
    t.bsRpos = 0 ∧ t.bsRsize = 0 ∧ t.bsWpos.toNat = 8 * t.outLen.toNat) ∧
  ∀ (s t : State) (v : Word) (c : Cause), commandCheck v = some c → runCommand v s = .next t → CursorsKept s t

/-- R16, R99: two codec jobs with the same parameters, configuration registers, IN_LEN and IN[0..IN_LEN) give the same
STATUS, ERR_POS, OUT_LEN and output, whatever else the two states hold. -/
def Obligations.CodecDependsOnSampledInputsOnly : Prop :=
  ∀ (i : Instr) (s u : State), isCodec i = true → s.cfg.Legal → u.cfg = s.cfg → u.inLen = s.inLen → u.ctrl = s.ctrl →
    u.predConfig = s.predConfig → u.faxConfig = s.faxConfig → (∀ j < s.inLen.toNat, u.readIn j = s.readIn j) →
      ∃ t v, exec i s = .next t ∧ exec i u = .next v ∧ v.status = t.status ∧ v.errPos = t.errPos ∧
        v.outLen = t.outLen ∧ v.outBytes = t.outBytes

/-- R39: of the commands, only BS.PEEK, BS.READ, BS.EOD, HUF.LOOKUP and HUF.CODE write RESULT (and SYS.SRESET resets it,
R552); a command that raises an error leaves it unchanged. -/
def Obligations.ResultWrittenOnlyByItsCommands : Prop :=
  ∀ (i : Instr) (s t : State), exec i s = .next t →
    (i ∉ [.bsEod, .sysSreset] → (∀ n, i ≠ .bsPeek n) → (∀ n, i ≠ .bsRead n) → (∀ c n, i ≠ .hufLookup c n) →
      (∀ c, i ≠ .hufCode c) → t.result = s.result) ∧
    (t.error = true → t.result = s.result)

/-- R281: the predictor's configuration check, in the rule's order, for each of the four commands that make it; a
configuration that passes raises no Configuration error. -/
def Obligations.PredictorConfigurationChecked : Prop :=
  ∀ (i : Instr) (s : State), i ∈ [.predPre, .predPost, .lzwEnc, .lzwDec] → CodecReady s →
    let k := s.predKind.toNat
    let colors := s.predColors.toNat
    let bpc := s.predBpc.toNat
    let columns := s.predColumns.toNat
    if k ∉ [1, 2, 10, 11, 12, 13, 14, 15] then CodecFails i s .predBadKind 0 []
    else if k ≠ 1 ∧ colors ∉ [1, 2, 3, 4] then CodecFails i s .predBadColors 0 []
    else if k ≠ 1 ∧ bpc ∉ [1, 2, 4, 8, 16] then CodecFails i s .predBadBpc 0 []
    else if k ≠ 1 ∧ columns = 0 then CodecFails i s .predBadColumns 0 []
    else if k ≠ 1 ∧ s.cfg.lineCap.any (fun cap => cap < (columns * colors * bpc + 7) / 8) = true then
      CodecFails i s .predRowTooLong 0 []
    else ∀ t, exec i s = .next t → t.errKind ≠ 2

/-- R401: the fax configuration check, K first, for both commands; a configuration that passes raises neither an
UnsupportedScheme nor a Configuration error. -/
def Obligations.FaxConfigurationChecked : Prop :=
  ∀ (i : Instr) (s : State), i ∈ [.faxEnc, .faxDec] → CodecReady s →
    if s.faxK.toInt < 0 then CodecFails i s .fax2dUnsupported 0 []
    else if 0 < s.faxK.toInt then CodecFails i s .faxMixedUnsupported 0 []
    else if s.faxColumns.toInt < 1 then CodecFails i s .faxBadColumns 0 []
    else if s.faxRows.toInt < 0 then CodecFails i s .faxBadRows 0 []
    else if s.cfg.lineCap.any (fun cap => cap < (s.faxColumns.toNat + 7) / 8) = true then CodecFails i s .faxRowTooLong 0 []
    else ∀ t, exec i s = .next t → t.errKind ≠ 2 ∧ t.errKind ≠ 3

/-- R292, R346, R410: plain input that is not whole rows is InvalidPlainInput at its length, with no output. -/
def Obligations.PlainInputMustBeWholeRows : Prop :=
  ∀ s : State, CodecReady s →
    (∀ i, i ∈ [.predPre, .lzwEnc] → s.predConfig.invalid? s.cfg = none → s.predKind.toNat ≠ 1 →
      s.inLen.toNat % s.predConfig.bpr ≠ 0 → CodecFails i s .predPlainLength s.inLen.toNat []) ∧
    (s.faxConfig.invalid? s.cfg = none → s.inLen.toNat % ((s.faxColumns.toNat + 7) / 8) ≠ 0 →
      CodecFails .faxEnc s .faxPlainLength s.inLen.toNat [])

/-! ## ascii_hex_codec and ascii85_codec -/

/-- R191: AHX.ENC completes with two upper-case hex digits per byte. -/
def Obligations.AhxEncodesHexText : Prop :=
  ∀ s : State, CodecReady s → 2 * s.inLen.toNat ≤ s.cfg.outCap → CodecSucceeds .ahxEnc s (hexText s.inp)

/-- R192: AHX.DEC's scan gives the same output, and the same choice between success and failure, as the four stages:
truncate at `>`, strip whitespace, reject a character that is no hex digit, complete an odd digit with a zero. -/
def Obligations.AhxDecodesInFourStages : Prop :=
  ∀ s : State, CodecReady s → ((hexData s.inp).length + 1) / 2 ≤ s.cfg.outCap →
    ((∀ ch ∈ hexData s.inp, (hexValue? ch).isSome = true) →
      CodecSucceeds .ahxDec s (digitBytes ((hexData s.inp).filterMap hexValue?))) ∧
    ((∃ ch ∈ hexData s.inp, hexValue? ch = none) →
      ∃ t, exec .ahxDec s = .next t ∧ t.error = true ∧ t.errCode = 0x10 ∧ t.errKind = 1)

/-- R193: the first character that is no hex digit, whitespace or `>` is AHX_BAD_CHAR at its offset; the partial output is
the complete digit pairs before it. -/
def Obligations.AhxBadCharacterKeepsPairs : Prop :=
  ∀ (s : State) (pre rest : List Byte) (bad : Byte), CodecReady s → s.inp = pre ++ bad :: rest →
    (∀ ch ∈ pre, ch ≠ 0x3E#8 ∧ (isWhitespace ch = true ∨ (hexValue? ch).isSome = true)) →
    bad ≠ 0x3E#8 → isWhitespace bad = false → hexValue? bad = none → pre.length ≤ 2 * s.cfg.outCap →
      CodecFails .ahxDec s .ahxBadChar pre.length (digitPairs (pre.filterMap hexValue?))

/-- R210: the five characters of a value are `!` to `u`, their base-85 value is that value, and a group's bytes are the
bytes of its big-endian value. -/
def Obligations.Ascii85DigitsAreBase85 : Prop :=
  (∀ v : Nat, v < 2 ^ 32 → ∃ c0 c1 c2 c3 c4 : Byte, digits85 v = [c0, c1, c2, c3, c4] ∧
    (∀ c ∈ [c0, c1, c2, c3, c4], isDigit85 c) ∧
    (c0.toNat - 33) * 85 ^ 4 + (c1.toNat - 33) * 85 ^ 3 + (c2.toNat - 33) * 85 ^ 2 + (c3.toNat - 33) * 85
      + (c4.toNat - 33) = v ∧ value85 (digits85 v) = v) ∧
  ∀ g0 g1 g2 g3 : Byte, groupBytes (groupValue g0 g1 g2 g3) = [g0, g1, g2, g3]

/-- R212, R213: A85.ENC completes with, for each full group, `z` or its five characters, and for a final group of n bytes
the first n + 1 characters of the group padded with zeros. -/
def Obligations.Ascii85EncodesByGroups : Prop :=
  ∀ s : State, CodecReady s → 5 * ((s.inLen.toNat + 3) / 4) ≤ s.cfg.outCap →
    CodecSucceeds .a85Enc s ((pieces 4 s.inp).flatMap fun g =>
      if g = [0, 0, 0, 0] then [0x7A#8]
      else (digits85 (groupValue (g.getD 0 0) (g.getD 1 0) (g.getD 2 0) (g.getD 3 0))).take (g.length + 1))

/-- R212 to R215 (source property S1): A85.DEC of A85.ENC's output gives the input back. -/
def Obligations.Ascii85RoundTrip : Prop :=
  ∀ s : State, CodecReady s → (a85Encode s.inp).out.length ≤ s.cfg.outCap →
    ∃ t, exec .a85Enc s = .next t ∧ Succeeded t ∧ CodecLeaves s t (a85Encode s.inp).out ∧
      ∀ u, CodecReady u → u.inp = t.outBytes → s.inLen.toNat ≤ u.cfg.outCap → CodecSucceeds .a85Dec u s.inp

/-- R214, R215: behind complete groups that decode to b, A85.DEC reports a character outside the alphabet, a `~` without
`>`, a `z` inside a group or a lone final character at its place with partial output b, and ends with b at `~>`. -/
def Obligations.Ascii85DecodeFaults : Prop :=
  ∀ (s : State) (b tail : List Byte), CodecReady s → b.length % 4 = 0 → b.length ≤ s.cfg.outCap →
    s.inp = a85Chars b ++ tail →
      (∀ ch rest, tail = ch :: rest → ¬isDigit85 ch → ch ≠ 0x7A#8 → ch ≠ 0x7E#8 →
        CodecFails .a85Dec s .a85BadChar (a85Chars b).length b) ∧
      (∀ rest, tail = 0x7E#8 :: rest → rest.head? ≠ some 0x3E#8 →
        CodecFails .a85Dec s .a85BadEod (a85Chars b).length b) ∧
      (∀ rest, tail = 0x7E#8 :: 0x3E#8 :: rest → CodecSucceeds .a85Dec s b) ∧
      (∀ ch rest, tail = ch :: 0x7A#8 :: rest → isDigit85 ch →
        CodecFails .a85Dec s .a85ZInGroup ((a85Chars b).length + 1) b) ∧
      (∀ ch, tail = [ch] → isDigit85 ch → CodecFails .a85Dec s .a85ShortGroup (a85Chars b).length b)

/-! ## run_length_encoder and run_length_decoder -/

/-- R255: RL.DEC of RL.ENC's output gives the input back, provided neither runs out of buffer. -/
def Obligations.RunLengthRoundTrip : Prop :=
  ∀ s : State, CodecReady s → (rlEncode s.inp).out.length ≤ s.cfg.outCap →
    ∃ t, exec .rlEnc s = .next t ∧ Succeeded t ∧ CodecLeaves s t (rlEncode s.inp).out ∧
      ∀ u, CodecReady u → u.inp = t.outBytes → s.inLen.toNat ≤ u.cfg.outCap → CodecSucceeds .rlDec u s.inp

/-- R252, R253: a run of 2 to 128 equal bytes is one repeat record, 1 to 128 bytes without equal neighbours are one literal
record, and every complete output ends with the byte 128. -/
def Obligations.RunLengthEncodesRecords : Prop :=
  ∀ s : State, CodecReady s →
    (∀ b r, 2 ≤ r → r ≤ 128 → s.inp = List.replicate r b → 3 ≤ s.cfg.outCap →
      CodecSucceeds .rlEnc s [BitVec.ofNat 8 (257 - r), b, 0x80#8]) ∧
    (1 ≤ s.inLen.toNat → s.inLen.toNat ≤ 128 → (∀ k, k + 1 < s.inLen.toNat → s.inp[k]? ≠ s.inp[k + 1]?) →
      s.inLen.toNat + 2 ≤ s.cfg.outCap →
        CodecSucceeds .rlEnc s (BitVec.ofNat 8 (s.inLen.toNat - 1) :: s.inp ++ [0x80#8])) ∧
    (∀ t, exec .rlEnc s = .next t → Succeeded t → t.outBytes.getLast? = some 0x80#8)

/-- R254: behind records that decode to b, a record whose payload runs past the end is RL_TRUNCATED at its control byte
with partial output b, and a byte 128 ends the data with b. -/
def Obligations.RunLengthDecodeEnds : Prop :=
  ∀ (s : State) (b tail : List Byte) (c : Byte), CodecReady s → b.length ≤ s.cfg.outCap →
    s.inp = rlRecords b.length b ++ c :: tail →
      (c.toNat < 128 → tail.length < c.toNat + 1 →
        CodecFails .rlDec s .rlTruncated (rlRecords b.length b).length b) ∧
      (128 < c.toNat → tail = [] → CodecFails .rlDec s .rlTruncated (rlRecords b.length b).length b) ∧
      (c.toNat = 128 → CodecSucceeds .rlDec s b)

/-! ## pixel_predictor_engine -/

/-- R298: with a valid configuration and whole rows, PRED.POST of PRED.PRE's output gives the input back, for every kind
and every bpc. -/
def Obligations.PredictorRoundTrip : Prop :=
  ∀ s : State, CodecReady s → s.predConfig.invalid? s.cfg = none → s.predConfig.badPlainLength s.inp = false →
    (prePredict s.predConfig s.inp).length ≤ s.cfg.outCap →
      ∃ t, exec .predPre s = .next t ∧ Succeeded t ∧ CodecLeaves s t (prePredict s.predConfig s.inp) ∧
        ∀ u, CodecReady u → u.predConfig = s.predConfig → u.predConfig.invalid? u.cfg = none → u.inp = t.outBytes →
          s.inLen.toNat ≤ u.cfg.outCap → CodecSucceeds .predPost u s.inp

/-- R284, R286: TIFF pre-prediction stores the first pixel's samples as they are and every later sample as its difference
from the same component of the previous pixel modulo 2^bpc; the row's length and its pad bits stay. -/
def Obligations.TiffStoresSampleDifferences : Prop :=
  ∀ (p : PredConfig) (row : List Byte), 1 ≤ p.colors → p.bpc ∈ [1, 2, 4, 8, 16] → row.length = p.bpr →
    let sample := fun (r : List Byte) (j : Nat) => natOfBits (((bitsOf r).drop (j * p.bpc)).take p.bpc)
    (tiffPre p row).length = row.length ∧
    (∀ j < p.spr, (sample (tiffPre p row) j : Int) =
      if j < p.colors then (sample row j : Int) else ((sample row j : Int) - sample row (j - p.colors)) % 2 ^ p.bpc) ∧
    (bitsOf (tiffPre p row)).drop (p.spr * p.bpc) = (bitsOf row).drop (p.spr * p.bpc)

/-- R289: Paeth picks the neighbour closest to p = a + b − c, ties going to a, then b, then c. -/
def Obligations.PaethPicksClosestNeighbour : Prop :=
  ∀ a b c : Nat,
    let d := fun x : Nat => ((a : Int) + b - c - x).natAbs
    (d a ≤ d b → d a ≤ d c → paeth a b c = a) ∧ (d b < d a → d b ≤ d c → paeth a b c = b) ∧
      (d c < d a → d c < d b → paeth a b c = c)

/-- R288 to R292: PRED.PRE with a PNG kind completes with, for each row, the tag of R290 and the bytes less their prediction
modulo 256, which is that of the tag's row in R289's table for the neighbours a, b and c of R288 in the input rows. -/
def Obligations.PngFiltersRows : Prop :=
  ∀ s : State, CodecReady s → s.predConfig.invalid? s.cfg = none → 10 ≤ s.predKind.toNat →
    let bpr := (s.predColumns.toNat * s.predColors.toNat * s.predBpc.toNat + 7) / 8
    let bpp := (s.predColors.toNat * s.predBpc.toNat + 7) / 8
    let tag := if s.predKind.toNat = 15 then 4 else s.predKind.toNat - 10
    let inByte := fun j : Nat => (s.inp.getD j 0).toNat
    s.inLen.toNat % bpr = 0 → s.inLen.toNat / bpr * (bpr + 1) ≤ s.cfg.outCap →
      ∃ out, CodecSucceeds .predPre s out ∧ out.length = s.inLen.toNat / bpr * (bpr + 1) ∧
        ∀ r < s.inLen.toNat / bpr,
          out[r * (bpr + 1)]? = some (BitVec.ofNat 8 tag) ∧
          ∀ i < bpr,
            let a := if bpp ≤ i then inByte (r * bpr + i - bpp) else 0
            let b := if r = 0 then 0 else inByte ((r - 1) * bpr + i)
            let c := if r = 0 ∨ i < bpp then 0 else inByte ((r - 1) * bpr + i - bpp)
            let prediction := [0, a, b, (a + b) / 2, paeth a b c].getD tag 0
            ∃ y, out[r * (bpr + 1) + 1 + i]? = some y ∧
              (y.toNat : Int) = ((inByte (r * bpr + i) : Int) - prediction) % 256

/-- R294, R297, R507: an unknown PNG row tag is fatal or, with PNG_LENIENT, ends the job with success and TRUNC = 1; either
way at the tag's offset and with exactly the rows before it reconstructed. -/
def Obligations.UnknownPngTagFatalOrLenient : Prop :=
  ∀ (s : State) (r : Nat), CodecReady s → s.predConfig.invalid? s.cfg = none → 10 ≤ s.predKind.toNat →
    (∀ j < r, ∃ tag, s.inp[j * (s.predConfig.bpr + 1)]? = some tag ∧ tag.toNat ≤ 4) →
    (∃ tag, s.inp[r * (s.predConfig.bpr + 1)]? = some tag ∧ 4 < tag.toNat) → r * s.predConfig.bpr ≤ s.cfg.outCap →
      ∃ out, out.length = r * s.predConfig.bpr ∧
        predPostJob s.cfg s.predConfig s.pngLenient (s.inp.take (r * (s.predConfig.bpr + 1))) = ⟨out, .success⟩ ∧
        if s.ctrl.getLsbD 0 = true then CodecTruncates .predPost s (r * (s.predConfig.bpr + 1)) out
        else CodecFails .predPost s .predBadPngTag (r * (s.predConfig.bpr + 1)) out

/-- R296: TIFF data that ends inside a row is PRED_BAD_LENGTH at that row's first byte; the partial output is what PRED.POST
gives for the complete rows alone. -/
def Obligations.IncompleteTiffRowReported : Prop :=
  ∀ s : State, CodecReady s → s.predConfig.invalid? s.cfg = none → s.predKind.toNat = 2 →
    s.inLen.toNat % s.predConfig.bpr ≠ 0 → s.inLen.toNat ≤ s.cfg.outCap →
      ∃ out, out.length = s.inLen.toNat / s.predConfig.bpr * s.predConfig.bpr ∧
        predPostJob s.cfg s.predConfig s.pngLenient (s.inp.take (s.inLen.toNat / s.predConfig.bpr * s.predConfig.bpr)) =
          ⟨out, .success⟩ ∧
        CodecFails .predPost s .predBadLength (s.inLen.toNat / s.predConfig.bpr * s.predConfig.bpr) out

/-! ## lzw_encoder and lzw_decoder -/

/-- R341: the widths of codes, and that the decoder, one entry behind, reads each code at the width it was written with. -/
def Obligations.LzwCodeWidths : Prop :=
  (∀ n, wenc n = if n < 512 then 9 else if n < 1024 then 10 else if n < 2048 then 11 else 12) ∧
  (∀ d, wdec d = if d < 511 then 9 else if d < 1023 then 10 else if d < 2047 then 11 else 12) ∧
  ∀ n, 1 ≤ n → wenc n = wdec (n - 1)

/-- R340, R343 to R346: with PRED_KIND = 1, LZW.ENC completes with the packed codes of its input; the first is CLEAR at 9
bits, the last END, and every code is 9 to 12 bits wide and fits its width. -/
def Obligations.LzwEncodesCodeStream : Prop :=
  ∀ s : State, CodecReady s → s.predKind.toNat = 1 → (lzwCompress s.inp).length ≤ s.cfg.outCap →
    CodecSucceeds .lzwEnc s (packBits ((lzwCodes s.inp).flatMap fun c => lowBits c.1 c.2)) ∧
    (lzwCodes s.inp).head? = some (256, 9) ∧ ((lzwCodes s.inp).getLast?.map Prod.fst) = some 257 ∧
    ∀ c ∈ lzwCodes s.inp, 9 ≤ c.2 ∧ c.2 ≤ 12 ∧ c.1 < 2 ^ c.2

/-- R351: LZW.DEC of LZW.ENC's output gives the input back under any valid predictor configuration, provided neither runs
out of buffer; a code that fills the table to 4096 entries is followed by CLEAR at 12 bits and the next code at 9 bits,
which the decoder reads at these widths. -/
def Obligations.LzwRoundTrip : Prop :=
  (∀ s : State, CodecReady s → s.predConfig.invalid? s.cfg = none → s.predConfig.badPlainLength s.inp = false →
    (lzwCompress (prePredict s.predConfig s.inp)).length ≤ s.cfg.outCap →
      ∃ t, exec .lzwEnc s = .next t ∧ Succeeded t ∧ CodecLeaves s t (lzwCompress (prePredict s.predConfig s.inp)) ∧
        ∀ u, CodecReady u → u.predConfig = s.predConfig → u.predConfig.invalid? u.cfg = none → u.inp = t.outBytes →
          s.inLen.toNat ≤ u.cfg.outCap → CodecSucceeds .lzwDec u s.inp) ∧
  (∀ entries str x rest, nextCode entries = 4095 → dictCode? entries (str ++ [x]) = none →
    ∃ c, lzwCodesFrom entries str (x :: rest) = (c, 12) :: (256, 12) :: lzwCodesFrom [] [x] rest ∧
      (lzwCodesFrom [] [x] rest).head?.map Prod.snd = some 9) ∧
  wdec 4095 = 12 ∧ wdec 258 = 9

/-- R347, R349: with PRED_KIND = 1, a first code of the stream, or the first after a leading CLEAR, that is 258 or more is
LZW_BAD_FIRST_CODE at its bit position, with no output. -/
def Obligations.LzwFirstCodeMustBeLiteral : Prop :=
  ∀ s : State, CodecReady s → s.predKind.toNat = 1 →
    (9 ≤ 8 * s.inLen.toNat → 258 ≤ natOfBits ((bitsOf s.inp).take 9) →
      CodecFails .lzwDec s .lzwBadFirstCode 0 []) ∧
    (18 ≤ 8 * s.inLen.toNat → natOfBits ((bitsOf s.inp).take 9) = 256 →
      258 ≤ natOfBits (((bitsOf s.inp).drop 9).take 9) → CodecFails .lzwDec s .lzwBadFirstCode 9 [])

/-! ## ccitt_fax_encoder, ccitt_fax_decoder and huffman_codeword_lookup -/

/-- R416: for a valid configuration and whole rows whose pad bits are 0, FAX.DEC of FAX.ENC's output gives the input back;
with EOB = 0, FAX_ROWS is the row count or 0; provided neither runs out of buffer. -/
def Obligations.FaxRoundTrip : Prop :=
  ∀ s : State, CodecReady s → s.faxConfig.invalid? s.cfg = none → s.inLen.toNat % s.faxConfig.rowBytes = 0 →
    (∀ row ∈ pieces s.faxConfig.rowBytes s.inp, allZero ((bitsOf row).drop s.faxConfig.width) = true) →
    (faxCompress s.faxConfig s.inp).length ≤ s.cfg.outCap →
      ∃ t, exec .faxEnc s = .next t ∧ Succeeded t ∧ CodecLeaves s t (faxCompress s.faxConfig s.inp) ∧
        ∀ u, CodecReady u → u.faxConfig.invalid? u.cfg = none → u.faxColumns = s.faxColumns → u.faxFlags = s.faxFlags →
          (u.faxEob = false →
            u.faxRows.toInt = 0 ∨ u.faxRows.toInt = (s.inLen.toNat / s.faxConfig.rowBytes : Nat)) →
          u.inp = t.outBytes → s.inLen.toNat ≤ u.cfg.outCap → CodecSucceeds .faxDec u s.inp

/-- R471: for each colour the 104 codes and EOL are prefix-free, their lengths are those the rule lists, every code
contains a 1, and the Kraft sum is 0.996337890625 = 8162 / 2^13. -/
def Obligations.CodewordTableProperties : Prop :=
  ∀ col : Colour,
    (codewordsWithEol col).length = 105 ∧
    (codewordsWithEol col).Pairwise (fun a b => ¬a <+: b ∧ ¬b <+: a) ∧
    (∀ c ∈ terminalCodes col ++ makeupCodes col,
      c.2 ∈ (match col with
        | .white => [4, 5, 6, 7, 8, 9, 11, 12]
        | .black => [2, 3, 4, 5, 6, 7, 8, 9, 10, 11, 12, 13])) ∧
    (∀ w ∈ codewordsWithEol col, true ∈ w) ∧
    ((codewordsWithEol col).map fun w => 2 ^ (13 - w.length)).sum = 8162

/-- R405, R411: the codewords of a run decode to that run, whatever bits follow them. -/
def Obligations.WrittenRunDecodes : Prop :=
  ∀ (col : Colour) (run pos : Nat) (rest : List Bool), ∃ cpos,
    decodeRun col ((runBits col run ++ rest).length + 1) 0 ⟨pos, runBits col run ++ rest⟩ =
      .ok (run, cpos, ⟨pos + (runBits col run).length, rest⟩)

/-- R413 (5), R414: with EOL = 1, data that is not all zero and does not start with EOL is FAX_MISSING_EOL at bit 0, with
no output. -/
def Obligations.FaxMissingEolReported : Prop :=
  ∀ s : State, CodecReady s → s.faxConfig.invalid? s.cfg = none → s.faxEol = true → true ∈ bitsOf s.inp →
    (bitsOf s.inp).take 12 ≠ eolBits → CodecFails .faxDec s .faxMissingEol 0 []

/-- R480: HUF.LOOKUP finds the terminal or makeup code of the colour with exactly that pattern and length; a miss gives 0
and is no error; N = 0 or N > 13 is BAD_BITCOUNT. -/
def Obligations.LookupFindsCodeword : Prop :=
  (∀ c n, (encode (.hufLookup c n)).toNat = (if c = .black then 1 else 0) * 2 ^ 14 + n.toNat * 2 ^ 8 + 0x70) ∧
  (∀ c n, n.toNat = 0 ∨ 13 < n.toNat → decode (encode (.hufLookup c n)) = .error .badBitcount) ∧
  ∀ (s : State) (c : Colour) (n : BitVec 6), 1 ≤ n.toNat → n.toNat ≤ 13 → OutDefined s →
    ∃ t, exec (.hufLookup c n) s = .next t ∧ Succeeded t ∧ CursorsKept s t ∧ OutputKept s t ∧ SettingsKept s t ∧
      (∀ r ≤ 63, termCode c r = (s.arg.toNat % 2 ^ n.toNat, n.toNat) → t.result.toNat = 0x80000000 + r) ∧
      (∀ m, m % 64 = 0 → 64 ≤ m → m ≤ 2560 → makeupCode c m = (s.arg.toNat % 2 ^ n.toNat, n.toNat) →
        t.result.toNat = 0xC0000000 + m) ∧
      ((∀ r ≤ 63, termCode c r ≠ (s.arg.toNat % 2 ^ n.toNat, n.toNat)) →
        (∀ m, m % 64 = 0 → 64 ≤ m → m ≤ 2560 → makeupCode c m ≠ (s.arg.toNat % 2 ^ n.toNat, n.toNat)) → t.result = 0)

/-- R481: HUF.CODE gives the terminal or makeup codeword of the run in ARG, its length in bits 19:16; another run is
BAD_RUN at the run and changes nothing but STATUS and ERR_POS. -/
def Obligations.CodeOfRunGiven : Prop :=
  (∀ c, (encode (.hufCode c)).toNat = (if c = .black then 1 else 0) * 2 ^ 14 + 0x71) ∧
  ∀ (s : State) (c : Colour), OutDefined s →
    (s.arg.toNat ≤ 63 →
      ∃ t, exec (.hufCode c) s = .next t ∧ Succeeded t ∧ CursorsKept s t ∧ OutputKept s t ∧ SettingsKept s t ∧
        t.result.toNat = (termCode c s.arg.toNat).2 * 2 ^ 16 + (termCode c s.arg.toNat).1) ∧
    (s.arg.toNat % 64 = 0 → 64 ≤ s.arg.toNat → s.arg.toNat ≤ 2560 →
      ∃ t, exec (.hufCode c) s = .next t ∧ Succeeded t ∧ CursorsKept s t ∧ OutputKept s t ∧ SettingsKept s t ∧
        t.result.toNat = 2 ^ 30 + (makeupCode c s.arg.toNat).2 * 2 ^ 16 + (makeupCode c s.arg.toNat).1) ∧
    (63 < s.arg.toNat → (s.arg.toNat % 64 ≠ 0 ∨ 2560 < s.arg.toNat) →
      ∃ t, exec (.hufCode c) s = .next t ∧ Failed t .badRun s.arg.toNat ∧ CursorsKept s t ∧ OutputUntouched s t ∧
        t.result = s.result ∧ SettingsKept s t)

/-! ## Block control, reset and the invariant -/

/-- R520: SYS.NOP succeeds, clearing a previous error, and changes no other register, no byte of IN and no defined byte of
OUT[0..OUT_LEN); what lies beyond is unspecified after any job (R86). -/
def Obligations.NopChangesOnlyStatus : Prop :=
  encode .sysNop = 0x000000F0 ∧ ∀ s : State,
    ∃ t, exec .sysNop s = .next t ∧ Succeeded t ∧ t.result = s.result ∧ CursorsKept s t ∧ SettingsKept s t ∧
      t.outLen = s.outLen ∧ ∀ i < s.outLen.toNat, (s.outBuf.read? i).isSome = true → t.readOut i = s.readOut i

/-- R552: SYS.SRESET puts every register except STATUS at its reset value, ends with STATUS = 0x2, and leaves IN, OUT, the
parameters and the host alone; while BUSY = 1 it is ignored. -/
def Obligations.SoftResetRestoresRegisters : Prop :=
  encode .sysSreset = 0x000000F1 ∧ ∀ s : State, ∃ t, exec .sysSreset s = .next t ∧ Succeeded t ∧
    (∀ r, r ≠ .status → t.readReg r = State.reset.readReg r) ∧ (∀ i, t.readIn i = s.readIn i) ∧
    (∀ i, t.readOut i = s.readOut i) ∧ t.cfg = s.cfg ∧ t.host = s.host ∧ t.readData = s.readData ∧
    ∀ rest, s.busy = true → s.host = hostCmd s.cfg .sysSreset :: rest →
      step s = .next { s with host := rest, busDraws := s.busDraws + 1 }

/-- R550: the register values after a hardware reset; no job runs, and no byte of IN or OUT holds a value. -/
def Obligations.ResetRegisterValues : Prop :=
  State.reset.status = 0 ∧ State.reset.errPos = 0 ∧ State.reset.inLen = 0 ∧ State.reset.outLen = 0 ∧
    State.reset.arg = 0 ∧ State.reset.result = 0 ∧ State.reset.bsRpos = 0 ∧ State.reset.bsRsize = 0 ∧
    State.reset.bsWpos = 0 ∧ State.reset.ctrl = 0 ∧ State.reset.predKind = 1 ∧ State.reset.predColors = 1 ∧
    State.reset.predBpc = 8 ∧ State.reset.predColumns = 1 ∧ State.reset.faxK = 0 ∧ State.reset.faxColumns = 1728 ∧
    State.reset.faxRows = 0 ∧ State.reset.faxFlags = 4 ∧ State.reset.busy = false ∧ State.reset.done = false ∧
    ∀ i, State.reset.inBuf.read? i = none ∧ State.reset.outBuf.read? i = none

/-- The reset state meets the invariant. It rests on the parameters the model chose for reset (log 3). -/
def Obligations.ResetMeetsInvariant : Prop := StateInv State.reset

/-- R5, R34, R37, R40 to R43, R51, R53, R54, R86, R161: every step, from any state that meets the invariant, reached or not,
keeps it, and no step changes the parameters. -/
def Obligations.StepKeepsInvariant : Prop :=
  ∀ s t : State, StateInv s → step s = .next t → StateInv t ∧ t.cfg = s.cfg
end

