-- ==== Sys2Proof/Laws/Memory.lean ====
section
/-! SUPPORT. The laws of the buffer operations: what is read after each, and that each keeps the canonical form. -/

namespace Sys2Proof.Machine

-- One theorem after another: the package compiled as one text then needs few threads.
set_option Elab.async false

@[simp] theorem Memory.read?_nil (a : Nat) : Memory.read? [] a = none := rfl

theorem Memory.read?_cons (k : Nat) (v : Byte) (m : Memory) (a : Nat) :
    Memory.read? ((k, v) :: m) a = if k = a then some v else Memory.read? m a := rfl

/-- Read after write: the written byte at its index, the old value everywhere else. -/
theorem Memory.read?_write (m : Memory) (a : Nat) (v : Byte) (b : Nat) :
    (Memory.write m a v).read? b = if b = a then some v else m.read? b := by
  induction m with
  | nil => simp [Memory.write, Memory.read?_cons, eq_comm]
  | cons c m ih =>
    obtain ⟨k, w⟩ := c
    unfold Memory.write
    split
    · simp [Memory.read?_cons, eq_comm]
    · split
      · rename_i h; subst h
        by_cases hb : a = b <;> simp [Memory.read?_cons, hb, eq_comm]
      · rename_i h
        rw [Memory.read?_cons, ih, Memory.read?_cons]
        by_cases hk : k = b
        · subst hk; simp [h, eq_comm]
        · simp [hk]

@[simp] theorem Memory.read?_write_same (m : Memory) (a : Nat) (v : Byte) :
    (Memory.write m a v).read? a = some v := by simp [Memory.read?_write]

theorem Memory.read?_write_other (m : Memory) (a : Nat) (v : Byte) (b : Nat) (h : b ≠ a) :
    (Memory.write m a v).read? b = m.read? b := by simp [Memory.read?_write, h]

/-- After `below n` the values below n are as before, and none stands at or beyond n. -/
theorem Memory.read?_below (m : Memory) (n a : Nat) :
    (Memory.below m n).read? a = if a < n then m.read? a else none := by
  induction m with
  | nil => simp [Memory.below]
  | cons c m ih =>
    obtain ⟨k, w⟩ := c
    unfold Memory.below at ih ⊢
    by_cases hk : k < n
    · rw [List.filter_cons_of_pos (by simpa using hk), Memory.read?_cons, Memory.read?_cons, ih]
      by_cases ha : k = a
      · subst ha; simp [hk]
      · simp [ha]
    · rw [List.filter_cons_of_neg (by simpa using hk), ih, Memory.read?_cons]
      by_cases ha : k = a
      · subst ha; simp [hk]
      · simp [ha]

theorem Memory.read?_ofBytesFrom (bs : List Byte) (i a : Nat) :
    (Memory.ofBytesFrom i bs).read? a = if i ≤ a then bs[a - i]? else none := by
  induction bs generalizing i with
  | nil => simp [Memory.ofBytesFrom]
  | cons b bs ih =>
    rw [Memory.ofBytesFrom, Memory.read?_cons, ih]
    by_cases h : i = a
    · subst h; simp
    · by_cases hle : i ≤ a
      · have : a - i = (a - (i + 1)) + 1 := by omega
        have h1 : i + 1 ≤ a := by omega
        simp [h, hle, h1, this]
      · have h1 : ¬ i + 1 ≤ a := by omega
        simp [h, hle, h1]

/-- A buffer filled with bytes from index 0 holds exactly those. -/
@[simp] theorem Memory.read?_ofBytes (bs : List Byte) (a : Nat) : (Memory.ofBytes bs).read? a = bs[a]? := by
  simp [Memory.ofBytes, Memory.read?_ofBytesFrom]

theorem Memory.mem_write (m : Memory) (a : Nat) (v : Byte) (c : Host.Cell) (h : c ∈ Memory.write m a v) :
    c.1 = a ∨ c ∈ m := by
  induction m with
  | nil => simp [Memory.write] at h; simp [h]
  | cons x m ih =>
    obtain ⟨k, w⟩ := x
    unfold Memory.write at h
    split at h
    · rcases List.mem_cons.1 h with rfl | h
      · exact .inl rfl
      · exact .inr h
    · split at h
      · rcases List.mem_cons.1 h with rfl | h
        · exact .inl rfl
        · exact .inr (List.mem_cons_of_mem _ h)
      · rcases List.mem_cons.1 h with rfl | h
        · exact .inr List.mem_cons_self
        · exact (ih h).imp id (List.mem_cons_of_mem _)

/-- A write keeps the canonical form. -/
theorem Memory.write_wf {m : Memory} (h : m.wf) (a : Nat) (v : Byte) : (Memory.write m a v).wf := by
  induction m with
  | nil => simp [Memory.write, Memory.wf]
  | cons x m ih =>
    obtain ⟨k, w⟩ := x
    obtain ⟨hx, hm⟩ := List.pairwise_cons.1 h
    unfold Memory.write
    split
    · rename_i hlt
      refine List.pairwise_cons.2 ⟨fun c hc => ?_, h⟩
      rcases List.mem_cons.1 hc with rfl | hc
      · exact hlt
      · exact Nat.lt_trans hlt (hx c hc)
    · split
      · rename_i heq
        subst heq
        exact List.pairwise_cons.2 ⟨hx, hm⟩
      · refine List.pairwise_cons.2 ⟨fun c hc => ?_, ih hm⟩
        rcases Memory.mem_write m a v c hc with hc | hc
        · simp only [hc]; omega
        · exact hx c hc

/-- Disowning a tail keeps the canonical form. -/
theorem Memory.below_wf {m : Memory} (h : m.wf) (n : Nat) : (m.below n).wf := h.filter _

theorem Memory.ofBytesFrom_le (bs : List Byte) (i : Nat) (c : Host.Cell) (h : c ∈ Memory.ofBytesFrom i bs) :
    i ≤ c.1 ∧ c.1 < i + bs.length := by
  induction bs generalizing i with
  | nil => simp [Memory.ofBytesFrom] at h
  | cons b bs ih =>
    rcases List.mem_cons.1 h with rfl | h
    · simp
    · have := ih (i + 1) h
      simp only [List.length_cons]; omega

theorem Memory.ofBytesFrom_wf (bs : List Byte) (i : Nat) : (Memory.ofBytesFrom i bs).wf := by
  induction bs generalizing i with
  | nil => simp [Memory.ofBytesFrom, Memory.wf]
  | cons b bs ih =>
    exact List.pairwise_cons.2 ⟨fun c hc => (Memory.ofBytesFrom_le bs (i + 1) c hc).1, ih (i + 1)⟩

/-- A job's output is in canonical form. -/
theorem Memory.ofBytes_wf (bs : List Byte) : (Memory.ofBytes bs).wf := Memory.ofBytesFrom_wf bs 0

/-- The buffers of the reset state are in canonical form. -/
theorem State.reset_buffers_wf : State.reset.inBuf.wf ∧ State.reset.outBuf.wf := by decide

theorem State.putOutBit_outBuf_wf (s : State) (p : Nat) (b : Bool) (h : s.outBuf.wf) : (s.putOutBit p b).outBuf.wf :=
  Memory.write_wf h _ _

/-- BS.WRITE keeps the canonical form. -/
theorem State.putOutBits_outBuf_wf (s : State) (p : Nat) (bs : List Bool) (h : s.outBuf.wf) :
    (s.putOutBits p bs).outBuf.wf := by
  induction bs generalizing s p with
  | nil => exact h
  | cons b bs ih => exact ih _ _ (State.putOutBit_outBuf_wf s p b h)

end Sys2Proof.Machine
end

