-- ==== Sys2Proof/Laws/State.lean ====
section
/-! SUPPORT. One lemma per field per update of State, each true by rfl, so that no later proof unfolds a record update. -/

namespace Sys2Proof.Machine

-- One theorem after another: the package compiled as one text then needs few threads.
set_option Elab.async false

/-! ## State.issue -/

@[simp] theorem State.issue_cfg (s : State) : s.issue.cfg = s.cfg := rfl
@[simp] theorem State.issue_status (s : State) : s.issue.status = statusBusy := rfl
@[simp] theorem State.issue_errPos (s : State) : s.issue.errPos = 0 := rfl
@[simp] theorem State.issue_inLen (s : State) : s.issue.inLen = s.inLen := rfl
@[simp] theorem State.issue_outLen (s : State) : s.issue.outLen = s.outLen := rfl
@[simp] theorem State.issue_arg (s : State) : s.issue.arg = s.arg := rfl
@[simp] theorem State.issue_result (s : State) : s.issue.result = s.result := rfl
@[simp] theorem State.issue_bsRpos (s : State) : s.issue.bsRpos = s.bsRpos := rfl
@[simp] theorem State.issue_bsRsize (s : State) : s.issue.bsRsize = s.bsRsize := rfl
@[simp] theorem State.issue_bsWpos (s : State) : s.issue.bsWpos = s.bsWpos := rfl
@[simp] theorem State.issue_ctrl (s : State) : s.issue.ctrl = s.ctrl := rfl
@[simp] theorem State.issue_predKind (s : State) : s.issue.predKind = s.predKind := rfl
@[simp] theorem State.issue_predColors (s : State) : s.issue.predColors = s.predColors := rfl
@[simp] theorem State.issue_predBpc (s : State) : s.issue.predBpc = s.predBpc := rfl
@[simp] theorem State.issue_predColumns (s : State) : s.issue.predColumns = s.predColumns := rfl
@[simp] theorem State.issue_faxK (s : State) : s.issue.faxK = s.faxK := rfl
@[simp] theorem State.issue_faxColumns (s : State) : s.issue.faxColumns = s.faxColumns := rfl
@[simp] theorem State.issue_faxRows (s : State) : s.issue.faxRows = s.faxRows := rfl
@[simp] theorem State.issue_faxFlags (s : State) : s.issue.faxFlags = s.faxFlags := rfl
@[simp] theorem State.issue_inBuf (s : State) : s.issue.inBuf = s.inBuf := rfl
@[simp] theorem State.issue_outBuf (s : State) : s.issue.outBuf = s.outBuf := rfl
@[simp] theorem State.issue_host (s : State) : s.issue.host = s.host := rfl
@[simp] theorem State.issue_readData (s : State) : s.issue.readData = s.readData := rfl
@[simp] theorem State.issue_outDraws (s : State) : s.issue.outDraws = s.outDraws := rfl
@[simp] theorem State.issue_busDraws (s : State) : s.issue.busDraws = s.busDraws := rfl

/-! ## State.raise -/

@[simp] theorem State.raise_cfg (s : State) (c : Cause) (pos : Nat) : (s.raise c pos).cfg = s.cfg := rfl
@[simp] theorem State.raise_status (s : State) (c : Cause) (pos : Nat) : (s.raise c pos).status = statusError c := rfl
@[simp] theorem State.raise_errPos (s : State) (c : Cause) (pos : Nat) : (s.raise c pos).errPos = BitVec.ofNat 32 pos := rfl
@[simp] theorem State.raise_inLen (s : State) (c : Cause) (pos : Nat) : (s.raise c pos).inLen = s.inLen := rfl
@[simp] theorem State.raise_outLen (s : State) (c : Cause) (pos : Nat) : (s.raise c pos).outLen = s.outLen := rfl
@[simp] theorem State.raise_arg (s : State) (c : Cause) (pos : Nat) : (s.raise c pos).arg = s.arg := rfl
@[simp] theorem State.raise_result (s : State) (c : Cause) (pos : Nat) : (s.raise c pos).result = s.result := rfl
@[simp] theorem State.raise_bsRpos (s : State) (c : Cause) (pos : Nat) : (s.raise c pos).bsRpos = s.bsRpos := rfl
@[simp] theorem State.raise_bsRsize (s : State) (c : Cause) (pos : Nat) : (s.raise c pos).bsRsize = s.bsRsize := rfl
@[simp] theorem State.raise_bsWpos (s : State) (c : Cause) (pos : Nat) : (s.raise c pos).bsWpos = s.bsWpos := rfl
@[simp] theorem State.raise_ctrl (s : State) (c : Cause) (pos : Nat) : (s.raise c pos).ctrl = s.ctrl := rfl
@[simp] theorem State.raise_predKind (s : State) (c : Cause) (pos : Nat) : (s.raise c pos).predKind = s.predKind := rfl
@[simp] theorem State.raise_predColors (s : State) (c : Cause) (pos : Nat) : (s.raise c pos).predColors = s.predColors := rfl
@[simp] theorem State.raise_predBpc (s : State) (c : Cause) (pos : Nat) : (s.raise c pos).predBpc = s.predBpc := rfl
@[simp] theorem State.raise_predColumns (s : State) (c : Cause) (pos : Nat) : (s.raise c pos).predColumns = s.predColumns := rfl
@[simp] theorem State.raise_faxK (s : State) (c : Cause) (pos : Nat) : (s.raise c pos).faxK = s.faxK := rfl
@[simp] theorem State.raise_faxColumns (s : State) (c : Cause) (pos : Nat) : (s.raise c pos).faxColumns = s.faxColumns := rfl
@[simp] theorem State.raise_faxRows (s : State) (c : Cause) (pos : Nat) : (s.raise c pos).faxRows = s.faxRows := rfl
@[simp] theorem State.raise_faxFlags (s : State) (c : Cause) (pos : Nat) : (s.raise c pos).faxFlags = s.faxFlags := rfl
@[simp] theorem State.raise_inBuf (s : State) (c : Cause) (pos : Nat) : (s.raise c pos).inBuf = s.inBuf := rfl
@[simp] theorem State.raise_outBuf (s : State) (c : Cause) (pos : Nat) : (s.raise c pos).outBuf = s.outBuf := rfl
@[simp] theorem State.raise_host (s : State) (c : Cause) (pos : Nat) : (s.raise c pos).host = s.host := rfl
@[simp] theorem State.raise_readData (s : State) (c : Cause) (pos : Nat) : (s.raise c pos).readData = s.readData := rfl
@[simp] theorem State.raise_outDraws (s : State) (c : Cause) (pos : Nat) : (s.raise c pos).outDraws = s.outDraws := rfl
@[simp] theorem State.raise_busDraws (s : State) (c : Cause) (pos : Nat) : (s.raise c pos).busDraws = s.busDraws := rfl

/-! ## State.succeed -/

@[simp] theorem State.succeed_cfg (s : State) : s.succeed.cfg = s.cfg := rfl
@[simp] theorem State.succeed_status (s : State) : s.succeed.status = statusDone false := rfl
@[simp] theorem State.succeed_errPos (s : State) : s.succeed.errPos = 0 := rfl
@[simp] theorem State.succeed_inLen (s : State) : s.succeed.inLen = s.inLen := rfl
@[simp] theorem State.succeed_outLen (s : State) : s.succeed.outLen = s.outLen := rfl
@[simp] theorem State.succeed_arg (s : State) : s.succeed.arg = s.arg := rfl
@[simp] theorem State.succeed_result (s : State) : s.succeed.result = s.result := rfl
@[simp] theorem State.succeed_bsRpos (s : State) : s.succeed.bsRpos = s.bsRpos := rfl
@[simp] theorem State.succeed_bsRsize (s : State) : s.succeed.bsRsize = s.bsRsize := rfl
@[simp] theorem State.succeed_bsWpos (s : State) : s.succeed.bsWpos = s.bsWpos := rfl
@[simp] theorem State.succeed_ctrl (s : State) : s.succeed.ctrl = s.ctrl := rfl
@[simp] theorem State.succeed_predKind (s : State) : s.succeed.predKind = s.predKind := rfl
@[simp] theorem State.succeed_predColors (s : State) : s.succeed.predColors = s.predColors := rfl
@[simp] theorem State.succeed_predBpc (s : State) : s.succeed.predBpc = s.predBpc := rfl
@[simp] theorem State.succeed_predColumns (s : State) : s.succeed.predColumns = s.predColumns := rfl
@[simp] theorem State.succeed_faxK (s : State) : s.succeed.faxK = s.faxK := rfl
@[simp] theorem State.succeed_faxColumns (s : State) : s.succeed.faxColumns = s.faxColumns := rfl
@[simp] theorem State.succeed_faxRows (s : State) : s.succeed.faxRows = s.faxRows := rfl
@[simp] theorem State.succeed_faxFlags (s : State) : s.succeed.faxFlags = s.faxFlags := rfl
@[simp] theorem State.succeed_inBuf (s : State) : s.succeed.inBuf = s.inBuf := rfl
@[simp] theorem State.succeed_outBuf (s : State) : s.succeed.outBuf = s.outBuf := rfl
@[simp] theorem State.succeed_host (s : State) : s.succeed.host = s.host := rfl
@[simp] theorem State.succeed_readData (s : State) : s.succeed.readData = s.readData := rfl
@[simp] theorem State.succeed_outDraws (s : State) : s.succeed.outDraws = s.outDraws := rfl
@[simp] theorem State.succeed_busDraws (s : State) : s.succeed.busDraws = s.busDraws := rfl

/-! ## State.disownTail -/

@[simp] theorem State.disownTail_cfg (s : State) : s.disownTail.cfg = s.cfg := rfl
@[simp] theorem State.disownTail_status (s : State) : s.disownTail.status = s.status := rfl
@[simp] theorem State.disownTail_errPos (s : State) : s.disownTail.errPos = s.errPos := rfl
@[simp] theorem State.disownTail_inLen (s : State) : s.disownTail.inLen = s.inLen := rfl
@[simp] theorem State.disownTail_outLen (s : State) : s.disownTail.outLen = s.outLen := rfl
@[simp] theorem State.disownTail_arg (s : State) : s.disownTail.arg = s.arg := rfl
@[simp] theorem State.disownTail_result (s : State) : s.disownTail.result = s.result := rfl
@[simp] theorem State.disownTail_bsRpos (s : State) : s.disownTail.bsRpos = s.bsRpos := rfl
@[simp] theorem State.disownTail_bsRsize (s : State) : s.disownTail.bsRsize = s.bsRsize := rfl
@[simp] theorem State.disownTail_bsWpos (s : State) : s.disownTail.bsWpos = s.bsWpos := rfl
@[simp] theorem State.disownTail_ctrl (s : State) : s.disownTail.ctrl = s.ctrl := rfl
@[simp] theorem State.disownTail_predKind (s : State) : s.disownTail.predKind = s.predKind := rfl
@[simp] theorem State.disownTail_predColors (s : State) : s.disownTail.predColors = s.predColors := rfl
@[simp] theorem State.disownTail_predBpc (s : State) : s.disownTail.predBpc = s.predBpc := rfl
@[simp] theorem State.disownTail_predColumns (s : State) : s.disownTail.predColumns = s.predColumns := rfl
@[simp] theorem State.disownTail_faxK (s : State) : s.disownTail.faxK = s.faxK := rfl
@[simp] theorem State.disownTail_faxColumns (s : State) : s.disownTail.faxColumns = s.faxColumns := rfl
@[simp] theorem State.disownTail_faxRows (s : State) : s.disownTail.faxRows = s.faxRows := rfl
@[simp] theorem State.disownTail_faxFlags (s : State) : s.disownTail.faxFlags = s.faxFlags := rfl
@[simp] theorem State.disownTail_inBuf (s : State) : s.disownTail.inBuf = s.inBuf := rfl
@[simp] theorem State.disownTail_outBuf (s : State) : s.disownTail.outBuf = s.outBuf.below s.outLen.toNat := rfl
@[simp] theorem State.disownTail_host (s : State) : s.disownTail.host = s.host := rfl
@[simp] theorem State.disownTail_readData (s : State) : s.disownTail.readData = s.readData := rfl
@[simp] theorem State.disownTail_outDraws (s : State) : s.disownTail.outDraws = s.outDraws + 1 := rfl
@[simp] theorem State.disownTail_busDraws (s : State) : s.disownTail.busDraws = s.busDraws := rfl

/-! ## State.finish -/

@[simp] theorem State.finish_cfg (s : State) : s.finish.cfg = s.cfg := rfl
@[simp] theorem State.finish_status (s : State) : s.finish.status = statusDone false := rfl
@[simp] theorem State.finish_errPos (s : State) : s.finish.errPos = 0 := rfl
@[simp] theorem State.finish_inLen (s : State) : s.finish.inLen = s.inLen := rfl
@[simp] theorem State.finish_outLen (s : State) : s.finish.outLen = s.outLen := rfl
@[simp] theorem State.finish_arg (s : State) : s.finish.arg = s.arg := rfl
@[simp] theorem State.finish_result (s : State) : s.finish.result = s.result := rfl
@[simp] theorem State.finish_bsRpos (s : State) : s.finish.bsRpos = s.bsRpos := rfl
@[simp] theorem State.finish_bsRsize (s : State) : s.finish.bsRsize = s.bsRsize := rfl
@[simp] theorem State.finish_bsWpos (s : State) : s.finish.bsWpos = s.bsWpos := rfl
@[simp] theorem State.finish_ctrl (s : State) : s.finish.ctrl = s.ctrl := rfl
@[simp] theorem State.finish_predKind (s : State) : s.finish.predKind = s.predKind := rfl
@[simp] theorem State.finish_predColors (s : State) : s.finish.predColors = s.predColors := rfl
@[simp] theorem State.finish_predBpc (s : State) : s.finish.predBpc = s.predBpc := rfl
@[simp] theorem State.finish_predColumns (s : State) : s.finish.predColumns = s.predColumns := rfl
@[simp] theorem State.finish_faxK (s : State) : s.finish.faxK = s.faxK := rfl
@[simp] theorem State.finish_faxColumns (s : State) : s.finish.faxColumns = s.faxColumns := rfl
@[simp] theorem State.finish_faxRows (s : State) : s.finish.faxRows = s.faxRows := rfl
@[simp] theorem State.finish_faxFlags (s : State) : s.finish.faxFlags = s.faxFlags := rfl
@[simp] theorem State.finish_inBuf (s : State) : s.finish.inBuf = s.inBuf := rfl
@[simp] theorem State.finish_outBuf (s : State) : s.finish.outBuf = s.outBuf.below s.outLen.toNat := rfl
@[simp] theorem State.finish_host (s : State) : s.finish.host = s.host := rfl
@[simp] theorem State.finish_readData (s : State) : s.finish.readData = s.readData := rfl
@[simp] theorem State.finish_outDraws (s : State) : s.finish.outDraws = s.outDraws + 1 := rfl
@[simp] theorem State.finish_busDraws (s : State) : s.finish.busDraws = s.busDraws := rfl

/-! ## State.abort -/

@[simp] theorem State.abort_cfg (s : State) (c : Cause) (pos : Nat) : (s.abort c pos).cfg = s.cfg := rfl
@[simp] theorem State.abort_status (s : State) (c : Cause) (pos : Nat) : (s.abort c pos).status = statusError c := rfl
@[simp] theorem State.abort_errPos (s : State) (c : Cause) (pos : Nat) : (s.abort c pos).errPos = BitVec.ofNat 32 pos := rfl
@[simp] theorem State.abort_inLen (s : State) (c : Cause) (pos : Nat) : (s.abort c pos).inLen = s.inLen := rfl
@[simp] theorem State.abort_outLen (s : State) (c : Cause) (pos : Nat) : (s.abort c pos).outLen = s.outLen := rfl
@[simp] theorem State.abort_arg (s : State) (c : Cause) (pos : Nat) : (s.abort c pos).arg = s.arg := rfl
@[simp] theorem State.abort_result (s : State) (c : Cause) (pos : Nat) : (s.abort c pos).result = s.result := rfl
@[simp] theorem State.abort_bsRpos (s : State) (c : Cause) (pos : Nat) : (s.abort c pos).bsRpos = s.bsRpos := rfl
@[simp] theorem State.abort_bsRsize (s : State) (c : Cause) (pos : Nat) : (s.abort c pos).bsRsize = s.bsRsize := rfl
@[simp] theorem State.abort_bsWpos (s : State) (c : Cause) (pos : Nat) : (s.abort c pos).bsWpos = s.bsWpos := rfl
@[simp] theorem State.abort_ctrl (s : State) (c : Cause) (pos : Nat) : (s.abort c pos).ctrl = s.ctrl := rfl
@[simp] theorem State.abort_predKind (s : State) (c : Cause) (pos : Nat) : (s.abort c pos).predKind = s.predKind := rfl
@[simp] theorem State.abort_predColors (s : State) (c : Cause) (pos : Nat) : (s.abort c pos).predColors = s.predColors := rfl
@[simp] theorem State.abort_predBpc (s : State) (c : Cause) (pos : Nat) : (s.abort c pos).predBpc = s.predBpc := rfl
@[simp] theorem State.abort_predColumns (s : State) (c : Cause) (pos : Nat) : (s.abort c pos).predColumns = s.predColumns := rfl
@[simp] theorem State.abort_faxK (s : State) (c : Cause) (pos : Nat) : (s.abort c pos).faxK = s.faxK := rfl
@[simp] theorem State.abort_faxColumns (s : State) (c : Cause) (pos : Nat) : (s.abort c pos).faxColumns = s.faxColumns := rfl
@[simp] theorem State.abort_faxRows (s : State) (c : Cause) (pos : Nat) : (s.abort c pos).faxRows = s.faxRows := rfl
@[simp] theorem State.abort_faxFlags (s : State) (c : Cause) (pos : Nat) : (s.abort c pos).faxFlags = s.faxFlags := rfl
@[simp] theorem State.abort_inBuf (s : State) (c : Cause) (pos : Nat) : (s.abort c pos).inBuf = s.inBuf := rfl
@[simp] theorem State.abort_outBuf (s : State) (c : Cause) (pos : Nat) : (s.abort c pos).outBuf = s.outBuf.below s.outLen.toNat := rfl
@[simp] theorem State.abort_host (s : State) (c : Cause) (pos : Nat) : (s.abort c pos).host = s.host := rfl
@[simp] theorem State.abort_readData (s : State) (c : Cause) (pos : Nat) : (s.abort c pos).readData = s.readData := rfl
@[simp] theorem State.abort_outDraws (s : State) (c : Cause) (pos : Nat) : (s.abort c pos).outDraws = s.outDraws + 1 := rfl
@[simp] theorem State.abort_busDraws (s : State) (c : Cause) (pos : Nat) : (s.abort c pos).busDraws = s.busDraws := rfl

/-! ## State.resetRegs -/

@[simp] theorem State.resetRegs_cfg (s : State) : s.resetRegs.cfg = s.cfg := rfl
@[simp] theorem State.resetRegs_status (s : State) : s.resetRegs.status = s.status := rfl
@[simp] theorem State.resetRegs_errPos (s : State) : s.resetRegs.errPos = 0 := rfl
@[simp] theorem State.resetRegs_inLen (s : State) : s.resetRegs.inLen = 0 := rfl
@[simp] theorem State.resetRegs_outLen (s : State) : s.resetRegs.outLen = 0 := rfl
@[simp] theorem State.resetRegs_arg (s : State) : s.resetRegs.arg = 0 := rfl
@[simp] theorem State.resetRegs_result (s : State) : s.resetRegs.result = 0 := rfl
@[simp] theorem State.resetRegs_bsRpos (s : State) : s.resetRegs.bsRpos = 0 := rfl
@[simp] theorem State.resetRegs_bsRsize (s : State) : s.resetRegs.bsRsize = 0 := rfl
@[simp] theorem State.resetRegs_bsWpos (s : State) : s.resetRegs.bsWpos = 0 := rfl
@[simp] theorem State.resetRegs_ctrl (s : State) : s.resetRegs.ctrl = 0 := rfl
@[simp] theorem State.resetRegs_predKind (s : State) : s.resetRegs.predKind = 1 := rfl
@[simp] theorem State.resetRegs_predColors (s : State) : s.resetRegs.predColors = 1 := rfl
@[simp] theorem State.resetRegs_predBpc (s : State) : s.resetRegs.predBpc = 8 := rfl
@[simp] theorem State.resetRegs_predColumns (s : State) : s.resetRegs.predColumns = 1 := rfl
@[simp] theorem State.resetRegs_faxK (s : State) : s.resetRegs.faxK = 0 := rfl
@[simp] theorem State.resetRegs_faxColumns (s : State) : s.resetRegs.faxColumns = 1728 := rfl
@[simp] theorem State.resetRegs_faxRows (s : State) : s.resetRegs.faxRows = 0 := rfl
@[simp] theorem State.resetRegs_faxFlags (s : State) : s.resetRegs.faxFlags = 4 := rfl
@[simp] theorem State.resetRegs_inBuf (s : State) : s.resetRegs.inBuf = s.inBuf := rfl
@[simp] theorem State.resetRegs_outBuf (s : State) : s.resetRegs.outBuf = s.outBuf := rfl
@[simp] theorem State.resetRegs_host (s : State) : s.resetRegs.host = s.host := rfl
@[simp] theorem State.resetRegs_readData (s : State) : s.resetRegs.readData = s.readData := rfl
@[simp] theorem State.resetRegs_outDraws (s : State) : s.resetRegs.outDraws = s.outDraws := rfl
@[simp] theorem State.resetRegs_busDraws (s : State) : s.resetRegs.busDraws = s.busDraws := rfl

/-! ## State.putOutBit -/

@[simp] theorem State.putOutBit_cfg (s : State) (p : Nat) (b : Bool) : (s.putOutBit p b).cfg = s.cfg := rfl
@[simp] theorem State.putOutBit_status (s : State) (p : Nat) (b : Bool) : (s.putOutBit p b).status = s.status := rfl
@[simp] theorem State.putOutBit_errPos (s : State) (p : Nat) (b : Bool) : (s.putOutBit p b).errPos = s.errPos := rfl
@[simp] theorem State.putOutBit_inLen (s : State) (p : Nat) (b : Bool) : (s.putOutBit p b).inLen = s.inLen := rfl
@[simp] theorem State.putOutBit_outLen (s : State) (p : Nat) (b : Bool) : (s.putOutBit p b).outLen = s.outLen := rfl
@[simp] theorem State.putOutBit_arg (s : State) (p : Nat) (b : Bool) : (s.putOutBit p b).arg = s.arg := rfl
@[simp] theorem State.putOutBit_result (s : State) (p : Nat) (b : Bool) : (s.putOutBit p b).result = s.result := rfl
@[simp] theorem State.putOutBit_bsRpos (s : State) (p : Nat) (b : Bool) : (s.putOutBit p b).bsRpos = s.bsRpos := rfl
@[simp] theorem State.putOutBit_bsRsize (s : State) (p : Nat) (b : Bool) : (s.putOutBit p b).bsRsize = s.bsRsize := rfl
@[simp] theorem State.putOutBit_bsWpos (s : State) (p : Nat) (b : Bool) : (s.putOutBit p b).bsWpos = s.bsWpos := rfl
@[simp] theorem State.putOutBit_ctrl (s : State) (p : Nat) (b : Bool) : (s.putOutBit p b).ctrl = s.ctrl := rfl
@[simp] theorem State.putOutBit_predKind (s : State) (p : Nat) (b : Bool) : (s.putOutBit p b).predKind = s.predKind := rfl
@[simp] theorem State.putOutBit_predColors (s : State) (p : Nat) (b : Bool) : (s.putOutBit p b).predColors = s.predColors := rfl
@[simp] theorem State.putOutBit_predBpc (s : State) (p : Nat) (b : Bool) : (s.putOutBit p b).predBpc = s.predBpc := rfl
@[simp] theorem State.putOutBit_predColumns (s : State) (p : Nat) (b : Bool) : (s.putOutBit p b).predColumns = s.predColumns := rfl
@[simp] theorem State.putOutBit_faxK (s : State) (p : Nat) (b : Bool) : (s.putOutBit p b).faxK = s.faxK := rfl
@[simp] theorem State.putOutBit_faxColumns (s : State) (p : Nat) (b : Bool) : (s.putOutBit p b).faxColumns = s.faxColumns := rfl
@[simp] theorem State.putOutBit_faxRows (s : State) (p : Nat) (b : Bool) : (s.putOutBit p b).faxRows = s.faxRows := rfl
@[simp] theorem State.putOutBit_faxFlags (s : State) (p : Nat) (b : Bool) : (s.putOutBit p b).faxFlags = s.faxFlags := rfl
@[simp] theorem State.putOutBit_inBuf (s : State) (p : Nat) (b : Bool) : (s.putOutBit p b).inBuf = s.inBuf := rfl
@[simp] theorem State.putOutBit_host (s : State) (p : Nat) (b : Bool) : (s.putOutBit p b).host = s.host := rfl
@[simp] theorem State.putOutBit_readData (s : State) (p : Nat) (b : Bool) : (s.putOutBit p b).readData = s.readData := rfl
@[simp] theorem State.putOutBit_outDraws (s : State) (p : Nat) (b : Bool) : (s.putOutBit p b).outDraws = s.outDraws := rfl
@[simp] theorem State.putOutBit_busDraws (s : State) (p : Nat) (b : Bool) : (s.putOutBit p b).busDraws = s.busDraws := rfl

/-! ## State.putOutBits, by induction over the bits -/

@[simp] theorem State.putOutBits_cfg (s : State) (p : Nat) (bs : List Bool) : (s.putOutBits p bs).cfg = s.cfg := by
  induction bs generalizing s p with
  | nil => rfl
  | cons b bs ih => simp [State.putOutBits, ih]
@[simp] theorem State.putOutBits_status (s : State) (p : Nat) (bs : List Bool) : (s.putOutBits p bs).status = s.status := by
  induction bs generalizing s p with
  | nil => rfl
  | cons b bs ih => simp [State.putOutBits, ih]
@[simp] theorem State.putOutBits_errPos (s : State) (p : Nat) (bs : List Bool) : (s.putOutBits p bs).errPos = s.errPos := by
  induction bs generalizing s p with
  | nil => rfl
  | cons b bs ih => simp [State.putOutBits, ih]
@[simp] theorem State.putOutBits_inLen (s : State) (p : Nat) (bs : List Bool) : (s.putOutBits p bs).inLen = s.inLen := by
  induction bs generalizing s p with
  | nil => rfl
  | cons b bs ih => simp [State.putOutBits, ih]
@[simp] theorem State.putOutBits_outLen (s : State) (p : Nat) (bs : List Bool) : (s.putOutBits p bs).outLen = s.outLen := by
  induction bs generalizing s p with
  | nil => rfl
  | cons b bs ih => simp [State.putOutBits, ih]
@[simp] theorem State.putOutBits_arg (s : State) (p : Nat) (bs : List Bool) : (s.putOutBits p bs).arg = s.arg := by
  induction bs generalizing s p with
  | nil => rfl
  | cons b bs ih => simp [State.putOutBits, ih]
@[simp] theorem State.putOutBits_result (s : State) (p : Nat) (bs : List Bool) : (s.putOutBits p bs).result = s.result := by
  induction bs generalizing s p with
  | nil => rfl
  | cons b bs ih => simp [State.putOutBits, ih]
@[simp] theorem State.putOutBits_bsRpos (s : State) (p : Nat) (bs : List Bool) : (s.putOutBits p bs).bsRpos = s.bsRpos := by
  induction bs generalizing s p with
  | nil => rfl
  | cons b bs ih => simp [State.putOutBits, ih]
@[simp] theorem State.putOutBits_bsRsize (s : State) (p : Nat) (bs : List Bool) : (s.putOutBits p bs).bsRsize = s.bsRsize := by
  induction bs generalizing s p with
  | nil => rfl
  | cons b bs ih => simp [State.putOutBits, ih]
@[simp] theorem State.putOutBits_bsWpos (s : State) (p : Nat) (bs : List Bool) : (s.putOutBits p bs).bsWpos = s.bsWpos := by
  induction bs generalizing s p with
  | nil => rfl
  | cons b bs ih => simp [State.putOutBits, ih]
@[simp] theorem State.putOutBits_ctrl (s : State) (p : Nat) (bs : List Bool) : (s.putOutBits p bs).ctrl = s.ctrl := by
  induction bs generalizing s p with
  | nil => rfl
  | cons b bs ih => simp [State.putOutBits, ih]
@[simp] theorem State.putOutBits_predKind (s : State) (p : Nat) (bs : List Bool) : (s.putOutBits p bs).predKind = s.predKind := by
  induction bs generalizing s p with
  | nil => rfl
  | cons b bs ih => simp [State.putOutBits, ih]
@[simp] theorem State.putOutBits_predColors (s : State) (p : Nat) (bs : List Bool) : (s.putOutBits p bs).predColors = s.predColors := by
  induction bs generalizing s p with
  | nil => rfl
  | cons b bs ih => simp [State.putOutBits, ih]
@[simp] theorem State.putOutBits_predBpc (s : State) (p : Nat) (bs : List Bool) : (s.putOutBits p bs).predBpc = s.predBpc := by
  induction bs generalizing s p with
  | nil => rfl
  | cons b bs ih => simp [State.putOutBits, ih]
@[simp] theorem State.putOutBits_predColumns (s : State) (p : Nat) (bs : List Bool) : (s.putOutBits p bs).predColumns = s.predColumns := by
  induction bs generalizing s p with
  | nil => rfl
  | cons b bs ih => simp [State.putOutBits, ih]
@[simp] theorem State.putOutBits_faxK (s : State) (p : Nat) (bs : List Bool) : (s.putOutBits p bs).faxK = s.faxK := by
  induction bs generalizing s p with
  | nil => rfl
  | cons b bs ih => simp [State.putOutBits, ih]
@[simp] theorem State.putOutBits_faxColumns (s : State) (p : Nat) (bs : List Bool) : (s.putOutBits p bs).faxColumns = s.faxColumns := by
  induction bs generalizing s p with
  | nil => rfl
  | cons b bs ih => simp [State.putOutBits, ih]
@[simp] theorem State.putOutBits_faxRows (s : State) (p : Nat) (bs : List Bool) : (s.putOutBits p bs).faxRows = s.faxRows := by
  induction bs generalizing s p with
  | nil => rfl
  | cons b bs ih => simp [State.putOutBits, ih]
@[simp] theorem State.putOutBits_faxFlags (s : State) (p : Nat) (bs : List Bool) : (s.putOutBits p bs).faxFlags = s.faxFlags := by
  induction bs generalizing s p with
  | nil => rfl
  | cons b bs ih => simp [State.putOutBits, ih]
@[simp] theorem State.putOutBits_inBuf (s : State) (p : Nat) (bs : List Bool) : (s.putOutBits p bs).inBuf = s.inBuf := by
  induction bs generalizing s p with
  | nil => rfl
  | cons b bs ih => simp [State.putOutBits, ih]
@[simp] theorem State.putOutBits_host (s : State) (p : Nat) (bs : List Bool) : (s.putOutBits p bs).host = s.host := by
  induction bs generalizing s p with
  | nil => rfl
  | cons b bs ih => simp [State.putOutBits, ih]
@[simp] theorem State.putOutBits_readData (s : State) (p : Nat) (bs : List Bool) : (s.putOutBits p bs).readData = s.readData := by
  induction bs generalizing s p with
  | nil => rfl
  | cons b bs ih => simp [State.putOutBits, ih]
@[simp] theorem State.putOutBits_outDraws (s : State) (p : Nat) (bs : List Bool) : (s.putOutBits p bs).outDraws = s.outDraws := by
  induction bs generalizing s p with
  | nil => rfl
  | cons b bs ih => simp [State.putOutBits, ih]
@[simp] theorem State.putOutBits_busDraws (s : State) (p : Nat) (bs : List Bool) : (s.putOutBits p bs).busDraws = s.busDraws := by
  induction bs generalizing s p with
  | nil => rfl
  | cons b bs ih => simp [State.putOutBits, ih]

/-! ## State.endWith -/

@[simp] theorem State.endWith_cfg (s : State) (e : JobEnd) : (s.endWith e).cfg = s.cfg := by cases e <;> rfl
@[simp] theorem State.endWith_inLen (s : State) (e : JobEnd) : (s.endWith e).inLen = s.inLen := by cases e <;> rfl
@[simp] theorem State.endWith_outLen (s : State) (e : JobEnd) : (s.endWith e).outLen = s.outLen := by cases e <;> rfl
@[simp] theorem State.endWith_arg (s : State) (e : JobEnd) : (s.endWith e).arg = s.arg := by cases e <;> rfl
@[simp] theorem State.endWith_result (s : State) (e : JobEnd) : (s.endWith e).result = s.result := by cases e <;> rfl
@[simp] theorem State.endWith_bsRpos (s : State) (e : JobEnd) : (s.endWith e).bsRpos = s.bsRpos := by cases e <;> rfl
@[simp] theorem State.endWith_bsRsize (s : State) (e : JobEnd) : (s.endWith e).bsRsize = s.bsRsize := by cases e <;> rfl
@[simp] theorem State.endWith_bsWpos (s : State) (e : JobEnd) : (s.endWith e).bsWpos = s.bsWpos := by cases e <;> rfl
@[simp] theorem State.endWith_ctrl (s : State) (e : JobEnd) : (s.endWith e).ctrl = s.ctrl := by cases e <;> rfl
@[simp] theorem State.endWith_predKind (s : State) (e : JobEnd) : (s.endWith e).predKind = s.predKind := by cases e <;> rfl
@[simp] theorem State.endWith_predColors (s : State) (e : JobEnd) : (s.endWith e).predColors = s.predColors := by cases e <;> rfl
@[simp] theorem State.endWith_predBpc (s : State) (e : JobEnd) : (s.endWith e).predBpc = s.predBpc := by cases e <;> rfl
@[simp] theorem State.endWith_predColumns (s : State) (e : JobEnd) : (s.endWith e).predColumns = s.predColumns := by cases e <;> rfl
@[simp] theorem State.endWith_faxK (s : State) (e : JobEnd) : (s.endWith e).faxK = s.faxK := by cases e <;> rfl
@[simp] theorem State.endWith_faxColumns (s : State) (e : JobEnd) : (s.endWith e).faxColumns = s.faxColumns := by cases e <;> rfl
@[simp] theorem State.endWith_faxRows (s : State) (e : JobEnd) : (s.endWith e).faxRows = s.faxRows := by cases e <;> rfl
@[simp] theorem State.endWith_faxFlags (s : State) (e : JobEnd) : (s.endWith e).faxFlags = s.faxFlags := by cases e <;> rfl
@[simp] theorem State.endWith_inBuf (s : State) (e : JobEnd) : (s.endWith e).inBuf = s.inBuf := by cases e <;> rfl
@[simp] theorem State.endWith_outBuf (s : State) (e : JobEnd) : (s.endWith e).outBuf = s.outBuf := by cases e <;> rfl
@[simp] theorem State.endWith_host (s : State) (e : JobEnd) : (s.endWith e).host = s.host := by cases e <;> rfl
@[simp] theorem State.endWith_readData (s : State) (e : JobEnd) : (s.endWith e).readData = s.readData := by cases e <;> rfl
@[simp] theorem State.endWith_outDraws (s : State) (e : JobEnd) : (s.endWith e).outDraws = s.outDraws := by cases e <;> rfl
@[simp] theorem State.endWith_busDraws (s : State) (e : JobEnd) : (s.endWith e).busDraws = s.busDraws := by cases e <;> rfl

/-! ## State.endCodec -/

@[simp] theorem State.endCodec_cfg (s : State) (r : JobResult) : (s.endCodec r).cfg = s.cfg := by simp [State.endCodec]
@[simp] theorem State.endCodec_inLen (s : State) (r : JobResult) : (s.endCodec r).inLen = s.inLen := by simp [State.endCodec]
@[simp] theorem State.endCodec_outLen (s : State) (r : JobResult) : (s.endCodec r).outLen = BitVec.ofNat 32 r.out.length := by simp [State.endCodec]
@[simp] theorem State.endCodec_arg (s : State) (r : JobResult) : (s.endCodec r).arg = s.arg := by simp [State.endCodec]
@[simp] theorem State.endCodec_result (s : State) (r : JobResult) : (s.endCodec r).result = s.result := by simp [State.endCodec]
@[simp] theorem State.endCodec_bsRpos (s : State) (r : JobResult) : (s.endCodec r).bsRpos = 0 := by simp [State.endCodec]
@[simp] theorem State.endCodec_bsRsize (s : State) (r : JobResult) : (s.endCodec r).bsRsize = 0 := by simp [State.endCodec]
@[simp] theorem State.endCodec_bsWpos (s : State) (r : JobResult) : (s.endCodec r).bsWpos = BitVec.ofNat 32 (8 * r.out.length) := by simp [State.endCodec]
@[simp] theorem State.endCodec_ctrl (s : State) (r : JobResult) : (s.endCodec r).ctrl = s.ctrl := by simp [State.endCodec]
@[simp] theorem State.endCodec_predKind (s : State) (r : JobResult) : (s.endCodec r).predKind = s.predKind := by simp [State.endCodec]
@[simp] theorem State.endCodec_predColors (s : State) (r : JobResult) : (s.endCodec r).predColors = s.predColors := by simp [State.endCodec]
@[simp] theorem State.endCodec_predBpc (s : State) (r : JobResult) : (s.endCodec r).predBpc = s.predBpc := by simp [State.endCodec]
@[simp] theorem State.endCodec_predColumns (s : State) (r : JobResult) : (s.endCodec r).predColumns = s.predColumns := by simp [State.endCodec]
@[simp] theorem State.endCodec_faxK (s : State) (r : JobResult) : (s.endCodec r).faxK = s.faxK := by simp [State.endCodec]
@[simp] theorem State.endCodec_faxColumns (s : State) (r : JobResult) : (s.endCodec r).faxColumns = s.faxColumns := by simp [State.endCodec]
@[simp] theorem State.endCodec_faxRows (s : State) (r : JobResult) : (s.endCodec r).faxRows = s.faxRows := by simp [State.endCodec]
@[simp] theorem State.endCodec_faxFlags (s : State) (r : JobResult) : (s.endCodec r).faxFlags = s.faxFlags := by simp [State.endCodec]
@[simp] theorem State.endCodec_inBuf (s : State) (r : JobResult) : (s.endCodec r).inBuf = s.inBuf := by simp [State.endCodec]
@[simp] theorem State.endCodec_outBuf (s : State) (r : JobResult) : (s.endCodec r).outBuf = Memory.ofBytes r.out := by simp [State.endCodec]
@[simp] theorem State.endCodec_host (s : State) (r : JobResult) : (s.endCodec r).host = s.host := by simp [State.endCodec]
@[simp] theorem State.endCodec_readData (s : State) (r : JobResult) : (s.endCodec r).readData = s.readData := by simp [State.endCodec]
@[simp] theorem State.endCodec_outDraws (s : State) (r : JobResult) : (s.endCodec r).outDraws = s.outDraws + 1 := by simp [State.endCodec]
@[simp] theorem State.endCodec_busDraws (s : State) (r : JobResult) : (s.endCodec r).busDraws = s.busDraws := by simp [State.endCodec]

/-! ## State.codecJob: what no codec job changes -/

@[simp] theorem State.codecJob_cfg (s : State) (job : List Byte → JobResult) : (s.codecJob job).cfg = s.cfg := by
  unfold State.codecJob; split <;> simp
@[simp] theorem State.codecJob_inLen (s : State) (job : List Byte → JobResult) : (s.codecJob job).inLen = s.inLen := by
  unfold State.codecJob; split <;> simp
@[simp] theorem State.codecJob_arg (s : State) (job : List Byte → JobResult) : (s.codecJob job).arg = s.arg := by
  unfold State.codecJob; split <;> simp
@[simp] theorem State.codecJob_result (s : State) (job : List Byte → JobResult) : (s.codecJob job).result = s.result := by
  unfold State.codecJob; split <;> simp
@[simp] theorem State.codecJob_bsRpos (s : State) (job : List Byte → JobResult) : (s.codecJob job).bsRpos = 0 := by
  unfold State.codecJob; split <;> simp
@[simp] theorem State.codecJob_bsRsize (s : State) (job : List Byte → JobResult) : (s.codecJob job).bsRsize = 0 := by
  unfold State.codecJob; split <;> simp
@[simp] theorem State.codecJob_ctrl (s : State) (job : List Byte → JobResult) : (s.codecJob job).ctrl = s.ctrl := by
  unfold State.codecJob; split <;> simp
@[simp] theorem State.codecJob_predKind (s : State) (job : List Byte → JobResult) : (s.codecJob job).predKind = s.predKind := by
  unfold State.codecJob; split <;> simp
@[simp] theorem State.codecJob_predColors (s : State) (job : List Byte → JobResult) : (s.codecJob job).predColors = s.predColors := by
  unfold State.codecJob; split <;> simp
@[simp] theorem State.codecJob_predBpc (s : State) (job : List Byte → JobResult) : (s.codecJob job).predBpc = s.predBpc := by
  unfold State.codecJob; split <;> simp
@[simp] theorem State.codecJob_predColumns (s : State) (job : List Byte → JobResult) : (s.codecJob job).predColumns = s.predColumns := by
  unfold State.codecJob; split <;> simp
@[simp] theorem State.codecJob_faxK (s : State) (job : List Byte → JobResult) : (s.codecJob job).faxK = s.faxK := by
  unfold State.codecJob; split <;> simp
@[simp] theorem State.codecJob_faxColumns (s : State) (job : List Byte → JobResult) : (s.codecJob job).faxColumns = s.faxColumns := by
  unfold State.codecJob; split <;> simp
@[simp] theorem State.codecJob_faxRows (s : State) (job : List Byte → JobResult) : (s.codecJob job).faxRows = s.faxRows := by
  unfold State.codecJob; split <;> simp
@[simp] theorem State.codecJob_faxFlags (s : State) (job : List Byte → JobResult) : (s.codecJob job).faxFlags = s.faxFlags := by
  unfold State.codecJob; split <;> simp
@[simp] theorem State.codecJob_inBuf (s : State) (job : List Byte → JobResult) : (s.codecJob job).inBuf = s.inBuf := by
  unfold State.codecJob; split <;> simp
@[simp] theorem State.codecJob_host (s : State) (job : List Byte → JobResult) : (s.codecJob job).host = s.host := by
  unfold State.codecJob; split <;> simp
@[simp] theorem State.codecJob_readData (s : State) (job : List Byte → JobResult) : (s.codecJob job).readData = s.readData := by
  unfold State.codecJob; split <;> simp
@[simp] theorem State.codecJob_outDraws (s : State) (job : List Byte → JobResult) : (s.codecJob job).outDraws = s.outDraws + 1 := by
  unfold State.codecJob; split <;> simp
@[simp] theorem State.codecJob_busDraws (s : State) (job : List Byte → JobResult) : (s.codecJob job).busDraws = s.busDraws := by
  unfold State.codecJob; split <;> simp

end Sys2Proof.Machine
end

