-- ==== Sys2Proof/Laws/Ops.lean ====
section
/-! SUPPORT. For each shared operation, what it can do, said once: the provers cite these instead of unfolding. -/

namespace Sys2Proof.Machine

-- One theorem after another: the package compiled as one text then needs few threads.
set_option Elab.async false

/-! ## Reading the buffers after an update -/

theorem State.readIn_of_eq {s t : State} (h : t.inBuf = s.inBuf) (i : Nat) : t.readIn i = s.readIn i := by
  simp [State.readIn, h]

/-- `inp` depends on IN and IN_LEN alone. -/
theorem State.inp_of_eq {s t : State} (h : t.inBuf = s.inBuf) (hl : t.inLen = s.inLen) : t.inp = s.inp := by
  simp [State.inp, State.readIn, h, hl]

@[simp] theorem State.inp_length (s : State) : s.inp.length = s.inLen.toNat := by simp [State.inp]

@[simp] theorem State.outBytes_length (s : State) : s.outBytes.length = s.outLen.toNat := by simp [State.outBytes]

/-- A byte OUT holds a value for keeps it when the tail at and beyond it is disowned. -/
theorem State.readOut_disownTail (s : State) (i : Nat) (hi : i < s.outLen.toNat) (hv : (s.outBuf.read? i).isSome) :
    s.disownTail.readOut i = s.readOut i := by
  obtain ⟨v, hv⟩ := Option.isSome_iff_exists.1 hv
  simp [State.readOut, Memory.read?_below, hi, hv]

/-- After `finish` such a byte below OUT_LEN is as before. -/
theorem State.readOut_finish (s : State) (i : Nat) (hi : i < s.outLen.toNat) (hv : (s.outBuf.read? i).isSome) :
    s.finish.readOut i = s.readOut i := State.readOut_disownTail s.succeed i hi hv

/-- After `abort` such a byte below OUT_LEN is as before. -/
theorem State.readOut_abort (s : State) (c : Cause) (pos i : Nat) (hi : i < s.outLen.toNat)
    (hv : (s.outBuf.read? i).isSome) : (s.abort c pos).readOut i = s.readOut i :=
  State.readOut_disownTail (s.raise c pos) i hi hv

/-- OUT[i] of a finished codec job is byte i of what it emitted. -/
theorem State.readOut_endCodec (s : State) (r : JobResult) (i : Nat) (b : Byte) (h : r.out[i]? = some b) :
    (s.endCodec r).readOut i = b := by
  simp [State.readOut, h]

/-- The output the host reads after a codec job is what the job emitted. -/
theorem State.outBytes_endCodec (s : State) (r : JobResult) (h : r.out.length < 2 ^ 32) :
    (s.endCodec r).outBytes = r.out := by
  apply List.ext_getElem?
  intro i
  have hl : (BitVec.ofNat 32 r.out.length).toNat = r.out.length := by
    simp only [BitVec.toNat_ofNat]; exact Nat.mod_eq_of_lt h
  by_cases hi : i < r.out.length
  · have hb : r.out[i]? = some r.out[i] := List.getElem?_eq_getElem hi
    simp [State.outBytes, hl, hi, State.readOut_endCodec s r i _ hb]
  · simp [State.outBytes, hl, hi]

/-! ## Jobs -/

@[simp] theorem JobResult.emitting_out (bs : List Byte) (r : JobResult) : (r.emitting bs).out = bs ++ r.out := rfl
@[simp] theorem JobResult.emitting_ending (bs : List Byte) (r : JobResult) : (r.emitting bs).ending = r.ending := rfl
@[simp] theorem JobResult.done_out : JobResult.done.out = [] := rfl
@[simp] theorem JobResult.done_ending : JobResult.done.ending = .success := rfl
@[simp] theorem JobResult.raised_out (c : Cause) (p : Nat) : (JobResult.raised c p).out = [] := rfl
@[simp] theorem JobResult.raised_ending (c : Cause) (p : Nat) : (JobResult.raised c p).ending = .error c p := rfl

/-- A job whose output fits is not changed by the size of OUT. -/
theorem JobResult.bounded_of_le {cap : Nat} {r : JobResult} (h : r.out.length ≤ cap) : r.bounded cap = r := by
  simp [JobResult.bounded, h]

/-- A job whose output does not fit raises OUT_OVERFLOW at `cap` with the first `cap` bytes kept (R505). -/
theorem JobResult.bounded_of_gt {cap : Nat} {r : JobResult} (h : cap < r.out.length) :
    r.bounded cap = ⟨r.out.take cap, .error .outOverflow cap⟩ := by
  simp [JobResult.bounded, Nat.not_le.2 h]

/-- In every case the output fits and is a prefix of what the job emits. -/
theorem JobResult.bounded_out (cap : Nat) (r : JobResult) : (r.bounded cap).out = r.out.take cap := by
  by_cases h : r.out.length ≤ cap
  · rw [JobResult.bounded_of_le h, List.take_of_length_le h]
  · rw [JobResult.bounded_of_gt (Nat.lt_of_not_le h)]

theorem JobResult.bounded_out_length (cap : Nat) (r : JobResult) : (r.bounded cap).out.length ≤ cap := by
  rw [JobResult.bounded_out, List.length_take]; exact Nat.min_le_left _ _

@[simp] theorem State.endWith_success (s : State) : s.endWith .success = s.succeed := rfl
@[simp] theorem State.endWith_error (s : State) (c : Cause) (p : Nat) : s.endWith (.error c p) = s.raise c p := rfl

/-- Everything a codec command does: it ends one job result, empty with IN_LEN_RANGE when IN_LEN exceeds IN_CAP, else
the unit's job on `inp` in OUT_CAP bytes. -/
theorem State.codecJob_eq (s : State) (job : List Byte → JobResult) :
    s.codecJob job = s.issue.endCodec
      (if s.cfg.inCap < s.inLen.toNat then .raised .inLenRange s.inLen.toNat else (job s.inp).bounded s.cfg.outCap) := by
  unfold State.codecJob; split <;> rfl

/-- The state after a codec command whose job succeeds within both buffers. -/
theorem State.codecJob_success (s : State) (job : List Byte → JobResult) (out : List Byte)
    (hin : s.inLen.toNat ≤ s.cfg.inCap) (hjob : job s.inp = ⟨out, .success⟩) (hout : out.length ≤ s.cfg.outCap) :
    s.codecJob job = s.issue.endCodec ⟨out, .success⟩ := by
  rw [State.codecJob_eq, if_neg (Nat.not_lt.2 hin), hjob, JobResult.bounded_of_le hout]

/-- The state after a codec command whose job raises within both buffers. -/
theorem State.codecJob_error (s : State) (job : List Byte → JobResult) (out : List Byte) (c : Cause) (pos : Nat)
    (hin : s.inLen.toNat ≤ s.cfg.inCap) (hjob : job s.inp = ⟨out, .error c pos⟩) (hout : out.length ≤ s.cfg.outCap) :
    s.codecJob job = s.issue.endCodec ⟨out, .error c pos⟩ := by
  rw [State.codecJob_eq, if_neg (Nat.not_lt.2 hin), hjob, JobResult.bounded_of_le hout]

@[simp] theorem State.endCodec_success_status (s : State) (out : List Byte) :
    (s.endCodec ⟨out, .success⟩).status = statusDone false := rfl
@[simp] theorem State.endCodec_success_errPos (s : State) (out : List Byte) :
    (s.endCodec ⟨out, .success⟩).errPos = 0 := rfl
@[simp] theorem State.endCodec_error_status (s : State) (out : List Byte) (c : Cause) (p : Nat) :
    (s.endCodec ⟨out, .error c p⟩).status = statusError c := rfl
@[simp] theorem State.endCodec_error_errPos (s : State) (out : List Byte) (c : Cause) (p : Nat) :
    (s.endCodec ⟨out, .error c p⟩).errPos = BitVec.ofNat 32 p := rfl
@[simp] theorem State.endCodec_lenient_status (s : State) (out : List Byte) (p : Nat) :
    (s.endCodec ⟨out, .lenient p⟩).status = statusDone true := rfl
@[simp] theorem State.endCodec_lenient_errPos (s : State) (out : List Byte) (p : Nat) :
    (s.endCodec ⟨out, .lenient p⟩).errPos = BitVec.ofNat 32 p := rfl

/-! ## Bits -/

@[simp] theorem byteBits_length (b : Byte) : (byteBits b).length = 8 := rfl

@[simp] theorem bitsOf_nil : bitsOf [] = [] := rfl
@[simp] theorem bitsOf_cons (b : Byte) (bs : List Byte) : bitsOf (b :: bs) = byteBits b ++ bitsOf bs := rfl
theorem bitsOf_append (xs ys : List Byte) : bitsOf (xs ++ ys) = bitsOf xs ++ bitsOf ys := by simp [bitsOf]

@[simp] theorem bitsOf_length (bs : List Byte) : (bitsOf bs).length = 8 * bs.length := by
  induction bs with
  | nil => rfl
  | cons b bs ih => simp [ih]; omega

@[simp] theorem lowBits_length (v n : Nat) : (lowBits v n).length = n := by simp [lowBits]

theorem natOfBits_lt (l : List Bool) : natOfBits l < 2 ^ l.length := by
  have aux : ∀ (l : List Bool) (v : Nat), l.foldl (fun v b => 2 * v + b.toNat) v < (v + 1) * 2 ^ l.length := by
    intro l
    induction l with
    | nil => intro v; simp
    | cons b l ih =>
      intro v
      have h := ih (2 * v + b.toNat)
      have hb : b.toNat ≤ 1 := Bool.toNat_le b
      simp only [List.foldl_cons, List.length_cons, pow_succ]
      calc _ < (2 * v + b.toNat + 1) * 2 ^ l.length := h
        _ ≤ (2 * (v + 1)) * 2 ^ l.length := Nat.mul_le_mul_right _ (by omega)
        _ = (v + 1) * (2 ^ l.length * 2) := by ring
  simpa [natOfBits] using aux l 0

/-! ## What a command and a step can answer -/

/-- Every command answers a next state: no meaning faults or refuses. -/
theorem exec_answers_next (i : Instr) (s : State) : ∃ t, exec i s = .next t := by
  cases i <;> first
    | exact ⟨_, rfl⟩
    | (simp only [exec, execBsRload, execBsRead, execBsWrite, execHufCode]; split <;> first
        | exact ⟨_, rfl⟩
        | (split <;> exact ⟨_, rfl⟩))

/-- A step takes the host's next access, or keeps the state when the host has none. -/
theorem step_eq (s : State) :
    step s = match s.host with
      | [] => .next s
      | a :: rest => hostAccess a { s with host := rest } := rfl

theorem step_of_host_nil {s : State} (h : s.host = []) : step s = .next s := by simp [step_eq, h]

theorem step_of_host_cons {s : State} {a : HostAction} {rest : List HostAction} (h : s.host = a :: rest) :
    step s = hostAccess a { s with host := rest } := by simp [step_eq, h]

end Sys2Proof.Machine
end

