-- ==== Sys2Proof/Laws/Bits.lean ====
section
/-! SUPPORT. What the bit helpers do (spec/00_scope.md R7, spec/40_bitstream.md R170, R171): numbers and bit strings, bytes
and bit strings, and a list cut into pieces. -/

namespace Sys2Proof.Machine

-- One theorem after another: the package compiled as one text then needs few threads.
set_option Elab.async false

/-! ## Numbers and bit strings -/

@[simp] theorem natOfBits_nil : natOfBits [] = 0 := rfl

theorem natOfBits_foldl (l : List Bool) (v : Nat) :
    l.foldl (fun v b => 2 * v + b.toNat) v = v * 2 ^ l.length + natOfBits l := by
  induction l generalizing v with
  | nil => simp
  | cons b l ih =>
    have h0 : natOfBits (b :: l) = b.toNat * 2 ^ l.length + natOfBits l := by
      have := ih (2 * 0 + b.toNat)
      simpa [natOfBits] using this
    rw [List.foldl_cons, ih, h0, List.length_cons, pow_succ]
    ring

theorem natOfBits_cons (b : Bool) (l : List Bool) :
    natOfBits (b :: l) = b.toNat * 2 ^ l.length + natOfBits l := by
  have h := natOfBits_foldl l b.toNat
  simpa [natOfBits] using h

theorem natOfBits_append (xs ys : List Bool) :
    natOfBits (xs ++ ys) = natOfBits xs * 2 ^ ys.length + natOfBits ys := by
  rw [natOfBits, List.foldl_append, natOfBits_foldl]; rfl

theorem natOfBits_zeroBits (n : Nat) : natOfBits (zeroBits n) = 0 := by
  induction n with
  | zero => rfl
  | succ n ih => rw [zeroBits, List.replicate_succ, natOfBits_cons]; simpa [zeroBits] using ih

theorem lowBits_succ (v n : Nat) : lowBits v (n + 1) = v.testBit n :: lowBits v n := by
  apply List.ext_getElem?
  intro i
  cases i with
  | zero => simp [lowBits]
  | succ i =>
    by_cases h : i < n
    · have : n - (i + 1) = n - 1 - i := by omega
      simp [lowBits, h, this]
    · simp [lowBits, h]

/-- The bits that `put(v, n)` appends read back as the low n bits of v. -/
@[simp] theorem natOfBits_lowBits (v n : Nat) : natOfBits (lowBits v n) = v % 2 ^ n := by
  induction n with
  | zero => simp [lowBits, Nat.mod_one]
  | succ n ih =>
    rw [lowBits_succ, natOfBits_cons, ih, lowBits_length, Nat.mod_pow_succ, Nat.toNat_testBit, Nat.add_comm, Nat.mul_comm]

/-- Every bit string is the low bits of its number. -/
@[simp] theorem lowBits_natOfBits (l : List Bool) : lowBits (natOfBits l) l.length = l := by
  induction l with
  | nil => rfl
  | cons b l ih =>
    have hlt := natOfBits_lt l
    have hbit : (natOfBits (b :: l)).testBit l.length = b := by
      rw [natOfBits_cons, Nat.testBit_eq_decide_div_mod_eq, Nat.add_comm, Nat.add_mul_div_right _ _ (by positivity),
        Nat.div_eq_of_lt hlt]
      cases b <;> rfl
    have hrest : lowBits (natOfBits (b :: l)) l.length = lowBits (natOfBits l) l.length := by
      apply List.map_congr_left
      intro i hi
      have hi : i < l.length := List.mem_range.1 hi
      rw [natOfBits_cons, Nat.mul_comm, Nat.testBit_two_pow_mul_add _ hlt, if_pos (by omega)]
    rw [List.length_cons, lowBits_succ, hbit, hrest, ih]

/-! ## Pieces -/

theorem piecesUpTo_of_le {α : Type} {n : Nat} (hn : 0 < n) (fuel : Nat) (l : List α) (h : l.length ≤ fuel) :
    piecesUpTo n fuel l = pieces n l := by
  have aux : ∀ (k : Nat) (l : List α), l.length ≤ k → ∀ f, l.length ≤ f → piecesUpTo n f l = piecesUpTo n k l := by
    intro k
    induction k with
    | zero =>
      intro l hl f _
      cases l with
      | nil => cases f <;> rfl
      | cons x xs => simp at hl
    | succ k ih =>
      intro l hl f hf
      cases l with
      | nil => cases f <;> rfl
      | cons x xs =>
        cases f with
        | zero => simp at hf
        | succ f =>
          have hd : ((x :: xs).drop n).length ≤ xs.length := by
            rw [List.length_drop, List.length_cons]; omega
          simp only [List.length_cons] at hl hf
          rw [piecesUpTo, piecesUpTo, ih _ (by omega) f (by omega)]
  exact aux l.length l (Nat.le_refl _) fuel h

@[simp] theorem pieces_nil {α : Type} (n : Nat) : pieces n ([] : List α) = [] := rfl

/-- A list is its first piece and the pieces of the rest. -/
theorem pieces_eq {α : Type} {n : Nat} (hn : 0 < n) {l : List α} (hl : l ≠ []) :
    pieces n l = l.take n :: pieces n (l.drop n) := by
  cases l with
  | nil => exact absurd rfl hl
  | cons x xs =>
    rw [pieces, List.length_cons, piecesUpTo, piecesUpTo_of_le hn]
    rw [List.length_drop, List.length_cons]; omega

/-- A full first piece. -/
theorem pieces_append {α : Type} {n : Nat} (hn : 0 < n) {p l : List α} (hp : p.length = n) :
    pieces n (p ++ l) = p :: pieces n l := by
  rw [pieces_eq hn (by intro h; simp at h; simp [h.1] at hp; omega), List.take_left' hp, List.drop_left' hp]

/-- The pieces together are the list. -/
theorem pieces_flatten {α : Type} {n : Nat} (hn : 0 < n) (l : List α) : (pieces n l).flatten = l := by
  induction hk : l.length using Nat.strong_induction_on generalizing l with
  | _ k ih =>
    by_cases hl : l = []
    · simp [hl]
    · have hpos : 0 < l.length := List.length_pos_of_ne_nil hl
      rw [pieces_eq hn hl, List.flatten_cons, ih (l.drop n).length (by rw [List.length_drop]; omega) _ rfl,
        List.take_append_drop]

/-! ## Bytes and bit strings -/

/-- A byte is its eight bits. -/
theorem byteOfBits_byteBits (b : Byte) : byteOfBits (byteBits b) = b := by
  revert b; decide

/-- The stream bits of a byte are its low eight bits, most significant first. -/
theorem byteBits_ofNat (m : Nat) : byteBits (BitVec.ofNat 8 m) = lowBits m 8 := by
  have h : ∀ k < 8, (BitVec.ofNat 8 m).getLsbD k = m.testBit k := by
    intro k hk
    rw [BitVec.getLsbD_ofNat, decide_eq_true hk, Bool.true_and]
  simp only [byteBits, h, lowBits, List.range_succ, List.range_zero, List.nil_append, List.map_cons,
    List.map_nil, List.cons_append, Nat.reduceLT, Nat.reduceSub, Nat.sub_zero]

/-- The eight bits of the byte of at most eight bits: these bits, then zeros. -/
theorem byteBits_byteOfBits (l : List Bool) (h : l.length ≤ 8) :
    byteBits (byteOfBits l) = l ++ zeroBits (8 - l.length) := by
  have hlen : (l ++ zeroBits (8 - l.length)).length = 8 := by simp [zeroBits]; omega
  have hk := lowBits_natOfBits (l ++ zeroBits (8 - l.length))
  rw [hlen, natOfBits_append, natOfBits_zeroBits, Nat.add_zero] at hk
  rw [byteOfBits, byteBits_ofNat]
  simpa [zeroBits] using hk

/-- Packing the bits of bytes gives the bytes back. -/
@[simp] theorem packBits_bitsOf (bs : List Byte) : packBits (bitsOf bs) = bs := by
  induction bs with
  | nil => rfl
  | cons b bs ih =>
    rw [packBits, bitsOf_cons, pieces_append (by omega) (byteBits_length b), List.map_cons, byteOfBits_byteBits]
    exact congrArg _ ih

/-- The bits of packed bits are these bits and the zero bits of the last byte. -/
theorem bitsOf_packBits (l : List Bool) : bitsOf (packBits l) = l ++ alignPad l.length := by
  induction hk : l.length using Nat.strong_induction_on generalizing l with
  | _ k ih =>
    by_cases hl : l = []
    · subst hl; simp at hk; subst hk; rfl
    · have hpos : 0 < l.length := List.length_pos_of_ne_nil hl
      rw [packBits, pieces_eq (by omega) hl, List.map_cons, bitsOf_cons]
      have hd := ih (l.drop 8).length (by rw [List.length_drop]; omega) (l.drop 8) rfl
      rw [packBits] at hd
      rw [hd, byteBits_byteOfBits _ (by rw [List.length_take]; omega)]
      subst hk
      by_cases h8 : 8 ≤ l.length
      · have ht : (l.take 8).length = 8 := by rw [List.length_take]; omega
        rw [ht, List.length_drop]
        have hz : alignPad (l.length - 8) = alignPad l.length := by
          simp only [alignPad, ceilDiv, zeroBits]; congr 1; omega
        rw [hz]
        simp [zeroBits, ← List.append_assoc, List.take_append_drop]
      · have ht : l.take 8 = l := List.take_of_length_le (by omega)
        have hdr : l.drop 8 = [] := List.drop_eq_nil_of_le (by omega)
        have hc : ceilDiv l.length 8 = 1 := by simp only [ceilDiv]; omega
        rw [ht, hdr]
        have hn : alignPad ([] : List Bool).length = [] := rfl
        rw [hn, alignPad, hc]
        simp

end Sys2Proof.Machine
end

