-- ==== Sys2Proof/Laws/Bus.lean ====
section
/-! SUPPORT. What the host's accesses and a step can do, and what a codec command is, said once for the provers. -/

namespace Sys2Proof.Machine

-- One theorem after another: the package compiled as one text then needs few threads.
set_option Elab.async false

/-! ## Targets (R80) -/

theorem busTarget_register (p : Params) {off : Nat} (h : off < 0x100) : busTarget p (p.base + off) = .register off := by
  simp [busTarget, h]

theorem busTarget_inByte (p : Params) {i : Nat} (h : i < 2 ^ 24) : busTarget p (p.base + inWindow + i) = .inByte i := by
  have h1 : ¬p.base + inWindow + i < p.base := by omega
  have h2 : p.base + inWindow + i - p.base = inWindow + i := by omega
  simp only [busTarget, if_neg h1, h2]
  have h3 : ¬inWindow + i < 0x100 := by simp only [inWindow]; omega
  have h4 : inWindow ≤ inWindow + i ∧ inWindow + i < inWindow + windowSize := by simp only [windowSize]; omega
  rw [if_neg h3, if_pos h4, Nat.add_sub_cancel_left]

theorem busTarget_outByte (p : Params) {i : Nat} (h : i < 2 ^ 24) :
    busTarget p (p.base + outWindow + i) = .outByte i := by
  have h1 : ¬p.base + outWindow + i < p.base := by omega
  have h2 : p.base + outWindow + i - p.base = outWindow + i := by omega
  simp only [busTarget, if_neg h1, h2]
  have h3 : ¬outWindow + i < 0x100 := by simp only [outWindow]; omega
  have h4 : ¬(inWindow ≤ outWindow + i ∧ outWindow + i < inWindow + windowSize) := by
    simp only [inWindow, outWindow, windowSize]; omega
  have h5 : outWindow ≤ outWindow + i ∧ outWindow + i < outWindow + windowSize := by simp only [windowSize]; omega
  rw [if_neg h3, if_neg h4, if_pos h5, Nat.add_sub_cancel_left]

theorem busTarget_below (p : Params) {addr : Nat} (h : addr < p.base) : busTarget p addr = .outside := by
  simp [busTarget, h]

/-- Every register lies at its own offset, and no other register does. -/
theorem regAt_offset (r : Reg) : regAt r.offset = some r := by cases r <;> rfl

theorem offset_of_regAt {off : Nat} {r : Reg} (h : regAt off = some r) : r.offset = off := by
  unfold regAt at h; split at h <;> simp_all <;> subst h <;> rfl

/-! ## Commands -/

/-- Everything a write to CMD of an idle block can do. -/
theorem runCommand_cases {v : Word} {s t : State} (h : runCommand v s = .next t) :
    (∃ e, decode v = .error e ∧ t = s.raise (causeOfDecode e) v.toNat) ∨
      ∃ i, decode v = .ok i ∧ exec i s = .next t := by
  unfold runCommand at h
  split at h
  · rename_i e he
    exact .inl ⟨e, he, by injection h with h; exact h.symm⟩
  · rename_i i hi
    exact .inr ⟨i, hi, h⟩

/-- A codec command is `codecJob` of its unit's job. -/
theorem exec_codec {i : Instr} (h : isCodec i = true) (s : State) :
    exec i s = .next (s.codecJob fun _ => codecEmits i s) := by
  cases i <;> first
    | rfl
    | (simp [isCodec] at h)

/-! ## Host accesses -/

/-- Everything a host write that does not stop can do: nothing, run a command word, set a register, or set a byte of IN. -/
theorem busWrite_cases {addr bytes : Nat} {v : Word} {s t : State} (h : busWrite addr bytes v s = .next t) :
    t = s ∨
      (bytes = 4 ∧ s.busy = false ∧ busTarget s.cfg addr = .register 0 ∧ runCommand v s = .next t) ∨
      (∃ r : Reg, bytes = 4 ∧ s.busy = false ∧ busTarget s.cfg addr = .register r.offset ∧ r ≠ .cmd ∧ t = s.writeReg r v) ∨
      ∃ i, bytes = 1 ∧ s.busy = false ∧ busTarget s.cfg addr = .inByte i ∧ i < s.cfg.inCap ∧
        t = { s with inBuf := s.inBuf.write i (v.truncate 8) } := by
  unfold busWrite at h
  split at h
  · cases h
  · rename_i off htarget
    split at h
    · exact .inl (by injection h with h; exact h.symm)
    rename_i hform
    have hb : bytes = 4 := by omega
    split at h
    · exact .inl (by injection h with h; exact h.symm)
    rename_i hbusy
    have hbusy : s.busy = false := by simpa using hbusy
    split at h
    · exact .inl (by injection h with h; exact h.symm)
    · rename_i hr
      have ho := offset_of_regAt hr
      exact .inr (.inl ⟨hb, hbusy, by rw [htarget, ← ho]; rfl, h⟩)
    · rename_i r hne hr
      have ho := offset_of_regAt hr
      exact .inr (.inr (.inl ⟨r, hb, hbusy, by rw [htarget, ho], by rintro rfl; exact hne rfl,
        by injection h with h; exact h.symm⟩))
  · rename_i i htarget
    split at h
    · exact .inl (by injection h with h; exact h.symm)
    rename_i hform
    split at h
    · exact .inl (by injection h with h; exact h.symm)
    rename_i hbusy
    exact .inr (.inr (.inr ⟨i, by omega, by simpa using hbusy, htarget, by omega,
      by injection h with h; exact h.symm⟩))
  · exact .inl (by injection h with h; exact h.symm)

/-- A host read that does not stop changes what the host got, and the draw number while a job runs. -/
theorem busRead_cases {addr bytes : Nat} {s t : State} (h : busRead addr bytes s = .next t) :
    ∃ v, busValue? addr bytes s = some v ∧ t = { s.drawAfterRead with readData := v } := by
  unfold busRead at h
  split at h
  · cases h
  · rename_i v hv
    exact ⟨v, hv, by injection h with h; exact h.symm⟩

/-- Everything a step that answers a next state can do. -/
theorem step_cases {s t : State} (h : step s = .next t) :
    (s.host = [] ∧ t = s) ∨
      (∃ addr bytes v rest, s.host = .write addr bytes v :: rest ∧
        busWrite addr bytes v { s with host := rest, busDraws := s.busDraws + 1 } = .next t) ∨
      (∃ addr bytes rest, s.host = .read addr bytes :: rest ∧ busRead addr bytes { s with host := rest } = .next t) ∨
      ∃ rest, s.host = .wait :: rest ∧
        t = { s with readData := s.readReg .status, host := if s.busy = true then .wait :: rest else rest } := by
  rcases hq : s.host with _ | ⟨a, rest⟩
  · rw [step_of_host_nil hq] at h
    exact .inl ⟨rfl, by injection h with h; exact h.symm⟩
  · rw [step_of_host_cons hq] at h
    cases a with
    | write addr bytes v => exact .inr (.inl ⟨addr, bytes, v, rest, rfl, h⟩)
    | read addr bytes => exact .inr (.inr (.inl ⟨addr, bytes, rest, rfl, h⟩))
    | wait =>
      refine .inr (.inr (.inr ⟨rest, rfl, ?_⟩))
      simp only [hostAccess] at h
      split at h <;> rename_i hb <;> injection h with h <;> subst h
      · simp only [State.busy] at hb ⊢; simp only [hb, if_true]; rfl
      · simp only [State.busy] at hb ⊢; simp only [hb]; rfl

end Sys2Proof.Machine
end

