-- ==== Sys2Proof/Laws/PerInstr.lean ====
section
/-! SUPPORT. Laws stated per command: the family EncodeFields of LAWS.json. -/

namespace Sys2Proof.Laws

-- One theorem after another: the package compiled as one text then needs few threads.
set_option Elab.async false

/-! ## The fields of a packed word (spec/30_encoding.md R110) -/

theorem fieldOp_packCommand (u o : BitVec 4) (n : BitVec 6) (c : BitVec 1) : fieldOp (packCommand u o n c) = o := by
  ext i hi
  simp only [fieldOp, packCommand, BitVec.getElem_extractLsb', BitVec.getLsbD_append]
  have : i < 4 := hi
  simp [this]

theorem fieldUnit_packCommand (u o : BitVec 4) (n : BitVec 6) (c : BitVec 1) : fieldUnit (packCommand u o n c) = u := by
  ext i hi
  simp only [fieldUnit, packCommand, BitVec.getElem_extractLsb', BitVec.getLsbD_append]
  have : i < 4 := hi
  simp [this]

theorem fieldN_packCommand (u o : BitVec 4) (n : BitVec 6) (c : BitVec 1) : fieldN (packCommand u o n c) = n := by
  ext i hi
  simp only [fieldN, packCommand, BitVec.getElem_extractLsb', BitVec.getLsbD_append]
  have h : i < 6 := hi
  have h1 : ¬8 + i < 4 := by omega
  have h2 : ¬8 + i - 4 < 4 := by omega
  have h3 : 8 + i - 4 - 4 = i := by omega
  simp [h, h1, h2, h3]

theorem fieldC_packCommand (u o : BitVec 4) (n : BitVec 6) (c : BitVec 1) : fieldC (packCommand u o n c) = c := by
  ext i hi
  simp only [fieldC, packCommand, BitVec.getElem_extractLsb', BitVec.getLsbD_append]
  have h : i = 0 := by omega
  subst h
  simp

theorem fieldRsv_packCommand (u o : BitVec 4) (n : BitVec 6) (c : BitVec 1) : fieldRsv (packCommand u o n c) = 0 := by
  ext i hi
  simp only [fieldRsv, packCommand, BitVec.getElem_extractLsb', BitVec.getLsbD_append]
  have h1 : ¬15 + i < 4 := by omega
  have h2 : ¬15 + i - 4 < 4 := by omega
  have h3 : ¬15 + i - 4 - 4 < 6 := by omega
  have h4 : ¬15 + i - 4 - 4 - 6 < 1 := by omega
  simp [h1, h2, h3, h4]

theorem colourOfBit_colourBit (c : Colour) : colourOfBit (colourBit c) = c := by cases c <;> rfl

/-! ## EncodeFields -/

/-- The fields of a command's word select that command and its operands in the operation map (R110, R113), and RSV is 0. -/
def EncodeFields.Statement (i : Instr) : Prop :=
  operationOf (fieldUnit (encode i)) (fieldOp (encode i)) (fieldN (encode i)) (colourOfBit (fieldC (encode i))) = some i ∧
    fieldRsv (encode i) = 0

theorem encodeFields_of_pack {i : Instr} {u o : BitVec 4} {n : BitVec 6} {c : BitVec 1}
    (he : encode i = packCommand u o n c) (ho : operationOf u o n (colourOfBit c) = some i) : EncodeFields.Statement i := by
  simp only [EncodeFields.Statement, he, fieldUnit_packCommand, fieldOp_packCommand, fieldN_packCommand,
    fieldC_packCommand, fieldRsv_packCommand]
  exact ⟨ho, trivial⟩

theorem EncodeFields.bsRload : EncodeFields.Statement .bsRload :=
  encodeFields_of_pack rfl rfl

theorem EncodeFields.bsPeek (n : BitVec 6) : EncodeFields.Statement (.bsPeek n) :=
  encodeFields_of_pack rfl rfl

theorem EncodeFields.bsRead (n : BitVec 6) : EncodeFields.Statement (.bsRead n) :=
  encodeFields_of_pack rfl rfl

theorem EncodeFields.bsRalign : EncodeFields.Statement .bsRalign :=
  encodeFields_of_pack rfl rfl

theorem EncodeFields.bsEod : EncodeFields.Statement .bsEod :=
  encodeFields_of_pack rfl rfl

theorem EncodeFields.bsWreset : EncodeFields.Statement .bsWreset :=
  encodeFields_of_pack rfl rfl

theorem EncodeFields.bsWrite (n : BitVec 6) : EncodeFields.Statement (.bsWrite n) :=
  encodeFields_of_pack rfl rfl

theorem EncodeFields.bsWalign : EncodeFields.Statement .bsWalign :=
  encodeFields_of_pack rfl rfl

theorem EncodeFields.ahxEnc : EncodeFields.Statement .ahxEnc :=
  encodeFields_of_pack rfl rfl

theorem EncodeFields.ahxDec : EncodeFields.Statement .ahxDec :=
  encodeFields_of_pack rfl rfl

theorem EncodeFields.a85Enc : EncodeFields.Statement .a85Enc :=
  encodeFields_of_pack rfl rfl

theorem EncodeFields.a85Dec : EncodeFields.Statement .a85Dec :=
  encodeFields_of_pack rfl rfl

theorem EncodeFields.rlEnc : EncodeFields.Statement .rlEnc :=
  encodeFields_of_pack rfl rfl

theorem EncodeFields.rlDec : EncodeFields.Statement .rlDec :=
  encodeFields_of_pack rfl rfl

theorem EncodeFields.predPre : EncodeFields.Statement .predPre :=
  encodeFields_of_pack rfl rfl

theorem EncodeFields.predPost : EncodeFields.Statement .predPost :=
  encodeFields_of_pack rfl rfl

theorem EncodeFields.lzwEnc : EncodeFields.Statement .lzwEnc :=
  encodeFields_of_pack rfl rfl

theorem EncodeFields.lzwDec : EncodeFields.Statement .lzwDec :=
  encodeFields_of_pack rfl rfl

theorem EncodeFields.faxEnc : EncodeFields.Statement .faxEnc :=
  encodeFields_of_pack rfl rfl

theorem EncodeFields.faxDec : EncodeFields.Statement .faxDec :=
  encodeFields_of_pack rfl rfl

theorem EncodeFields.hufLookup (c : Colour) (n : BitVec 6) : EncodeFields.Statement (.hufLookup c n) :=
  encodeFields_of_pack rfl (by rw [colourOfBit_colourBit]; rfl)

theorem EncodeFields.hufCode (c : Colour) : EncodeFields.Statement (.hufCode c) :=
  encodeFields_of_pack rfl (by rw [colourOfBit_colourBit]; rfl)

theorem EncodeFields.sysNop : EncodeFields.Statement .sysNop :=
  encodeFields_of_pack rfl rfl

theorem EncodeFields.sysSreset : EncodeFields.Statement .sysSreset :=
  encodeFields_of_pack rfl rfl

end Sys2Proof.Laws
end

