-- ==== Sys2Proof/Tests/Slice0.lean ====
section
/-! SUPPORT. The model's own tests: the smoke test of WellFormed, words written out from spec/30_encoding.md R110 to R114,
one-step tests whose expected results are the vectors of spec/95_test_vectors.md, and a witness for the hypotheses of every
statement that has some. -/

namespace Sys2Proof.Tests

open Sys2Proof.Machine

-- One theorem after another: the package compiled as one text then needs few threads.
set_option Elab.async false

/-! ## Helpers -/

/-- The reset state with the given bytes loaded into IN and IN_LEN set (R121, `load`). -/
def loaded (bs : List Byte) : State :=
  { State.reset with inBuf := Memory.ofBytes bs, inLen := BitVec.ofNat 32 bs.length }

/-- The predictor registers set (R121, `pred`). -/
def withPred (kind colors bpc columns : Word) (s : State) : State :=
  { s with predKind := kind, predColors := colors, predBpc := bpc, predColumns := columns }

/-- The fax registers set, FAX_K = FAX_ROWS = 0 (R121, `fax`). -/
def withFax (columns flags : Word) (s : State) : State := { s with faxColumns := columns, faxFlags := flags }

/-- The reader bound to the first `size` bytes of IN, at bit `pos`. -/
def withReader (size pos : Word) (s : State) : State := { s with bsRsize := size, bsRpos := pos }

/-- A writer that has written `bits` bits, OUT holding `bs`. -/
def withWriter (bits : Word) (bs : List Byte) (s : State) : State :=
  { s with bsWpos := bits, outLen := BitVec.ofNat 32 bs.length, outBuf := Memory.ofBytes bs }

/-- The state a step gives after the host has written the word to CMD, if it gives one. -/
def afterWord (w : Nat) (s : State) : Option State :=
  match step (s.withFetchWord 32 w) with
  | .next t => some t
  | .fault _ => none
  | .refused _ => none

/-- STATUS, ERR_POS and OUT[0..OUT_LEN) after the word. -/
def codecAnswer (w : Nat) (s : State) : Option (Word × Word × List Byte) :=
  (afterWord w s).map fun t => (t.status, t.errPos, t.outBytes)

/-- STATUS, ERR_POS, RESULT and BS_RPOS after the word. -/
def readerAnswer (w : Nat) (s : State) : Option (Word × Word × Word × Word) :=
  (afterWord w s).map fun t => (t.status, t.errPos, t.result, t.bsRpos)

/-- STATUS, ERR_POS, BS_WPOS and OUT[0..OUT_LEN) after the word. -/
def writerAnswer (w : Nat) (s : State) : Option (Word × Word × Word × List Byte) :=
  (afterWord w s).map fun t => (t.status, t.errPos, t.bsWpos, t.outBytes)

/-! ## WellFormed refuses ill-formed operands (R114) -/

theorem test_wellFormed_refuses_peek_33 : (Instr.bsPeek 33).wellFormed = false := by decide
theorem test_wellFormed_refuses_read_33 : (Instr.bsRead 33).wellFormed = false := by decide
theorem test_wellFormed_refuses_write_33 : (Instr.bsWrite 33).wellFormed = false := by decide
theorem test_wellFormed_refuses_lookup_0 : (Instr.hufLookup .white 0).wellFormed = false := by decide
theorem test_wellFormed_refuses_lookup_14 : (Instr.hufLookup .black 14).wellFormed = false := by decide

/-! ## Decoding: one word per command, its fields written out as RSV, C, N, UNIT, OP (R110, R113) -/

theorem test_decode_bsRload : decode 0b00000000000000000_0_000000_0000_0000 = .ok (.bsRload) := by rfl
theorem test_decode_bsPeek : decode 0b00000000000000000_0_000100_0000_0001 = .ok (.bsPeek 4) := by rfl
theorem test_decode_bsRead : decode 0b00000000000000000_0_001001_0000_0010 = .ok (.bsRead 9) := by rfl
theorem test_decode_bsRalign : decode 0b00000000000000000_0_000000_0000_0011 = .ok (.bsRalign) := by rfl
theorem test_decode_bsEod : decode 0b00000000000000000_0_000000_0000_0100 = .ok (.bsEod) := by rfl
theorem test_decode_bsWreset : decode 0b00000000000000000_0_000000_0000_0101 = .ok (.bsWreset) := by rfl
theorem test_decode_bsWrite : decode 0b00000000000000000_0_100000_0000_0110 = .ok (.bsWrite 32) := by rfl
theorem test_decode_bsWalign : decode 0b00000000000000000_0_000000_0000_0111 = .ok (.bsWalign) := by rfl
theorem test_decode_ahxEnc : decode 0b00000000000000000_0_000000_0001_0000 = .ok (.ahxEnc) := by rfl
theorem test_decode_ahxDec : decode 0b00000000000000000_0_000000_0001_0001 = .ok (.ahxDec) := by rfl
theorem test_decode_a85Enc : decode 0b00000000000000000_0_000000_0010_0000 = .ok (.a85Enc) := by rfl
theorem test_decode_a85Dec : decode 0b00000000000000000_0_000000_0010_0001 = .ok (.a85Dec) := by rfl
theorem test_decode_rlEnc : decode 0b00000000000000000_0_000000_0011_0000 = .ok (.rlEnc) := by rfl
theorem test_decode_rlDec : decode 0b00000000000000000_0_000000_0011_0001 = .ok (.rlDec) := by rfl
theorem test_decode_predPre : decode 0b00000000000000000_0_000000_0100_0000 = .ok (.predPre) := by rfl
theorem test_decode_predPost : decode 0b00000000000000000_0_000000_0100_0001 = .ok (.predPost) := by rfl
theorem test_decode_lzwEnc : decode 0b00000000000000000_0_000000_0101_0000 = .ok (.lzwEnc) := by rfl
theorem test_decode_lzwDec : decode 0b00000000000000000_0_000000_0101_0001 = .ok (.lzwDec) := by rfl
theorem test_decode_faxEnc : decode 0b00000000000000000_0_000000_0110_0000 = .ok (.faxEnc) := by rfl
theorem test_decode_faxDec : decode 0b00000000000000000_0_000000_0110_0001 = .ok (.faxDec) := by rfl
theorem test_decode_hufLookup : decode 0b00000000000000000_1_000111_0111_0000 = .ok (.hufLookup .black 7) := by rfl
theorem test_decode_hufCode : decode 0b00000000000000000_0_000000_0111_0001 = .ok (.hufCode .white) := by rfl
theorem test_decode_sysNop : decode 0b00000000000000000_0_000000_1111_0000 = .ok (.sysNop) := by rfl
theorem test_decode_sysSreset : decode 0b00000000000000000_0_000000_1111_0001 = .ok (.sysSreset) := by rfl

theorem test_decode_refuses_reserved_unit : decode 0x00000090 = .error .illegalCmd := by rfl
theorem test_decode_refuses_unused_n : decode 0x00000130 = .error .reservedField := by rfl
theorem test_decode_refuses_unused_c : decode 0x00004002 = .error .reservedField := by rfl
theorem test_decode_refuses_bit_count : decode 0x00000E70 = .error .badBitcount := by rfl

/-! ## One step each (expected results: spec/95_test_vectors.md sections 1 and 2) -/

/-- 95_test_vectors.md section 2.1: `bs.rload` with IN_LEN = 2. -/
theorem test_bs_rload :
    (afterWord 0x00 (loaded [0xA5, 0x3C])).map (fun t => (t.status, t.bsRsize, t.bsRpos)) = some (0x2, 2, 0) := by decide +kernel

/-- 95_test_vectors.md section 2.1, step 1. -/
theorem test_bs_peek :
    readerAnswer 0x0401 (withReader 2 0 (loaded [0xA5, 0x3C])) = some (0x2, 0, 0xA, 0) := by decide +kernel

/-- 95_test_vectors.md section 2.1, step 5. -/
theorem test_bs_peek_past_end :
    readerAnswer 0x0801 (withReader 2 12 (loaded [0xA5, 0x3C])) = some (0x2, 0, 0xC0, 12) := by decide +kernel

/-- 95_test_vectors.md section 2.1, step 3. -/
theorem test_bs_read :
    readerAnswer 0x0902 (withReader 2 3 (loaded [0xA5, 0x3C])) = some (0x2, 0, 0x53, 12) := by decide +kernel

/-- 95_test_vectors.md section 2.1, step 6. -/
theorem test_bs_read_underrun :
    readerAnswer 0x0502 ({ withReader 2 12 (loaded [0xA5, 0x3C]) with result := 0xC0 }) = some (0x9076, 12, 0xC0, 12) := by decide +kernel

/-- 95_test_vectors.md section 2.1. -/
theorem test_bs_ralign :
    readerAnswer 0x03 (withReader 2 12 (loaded [0xA5, 0x3C])) = some (0x2, 0, 0, 16) := by decide +kernel

/-- 95_test_vectors.md section 2.1, step 4. -/
theorem test_bs_eod_not_at_end :
    readerAnswer 0x04 ({ withReader 2 12 (loaded [0xA5, 0x3C]) with result := 7 }) = some (0x2, 0, 0, 12) := by decide +kernel

/-- 95_test_vectors.md section 2.1, step 8. -/
theorem test_bs_eod_at_end :
    readerAnswer 0x04 (withReader 2 16 (loaded [0xA5, 0x3C])) = some (0x2, 0, 1, 16) := by decide +kernel

/-- 95_test_vectors.md section 2.1 and R160. -/
theorem test_bs_wreset :
    writerAnswer 0x05 (withWriter 12 [0xA5, 0x30] .reset) = some (0x2, 0, 0, []) := by decide +kernel

/-- 95_test_vectors.md section 2.1, `bs.write 9`. -/
theorem test_bs_write :
    writerAnswer 0x0906 ({ withWriter 3 [0xA0] .reset with arg := 0x53 }) = some (0x2, 0, 12, [0xA5, 0x30]) := by decide +kernel

/-- 95_test_vectors.md section 2.1, OUT_CAP = 2. -/
theorem test_bs_write_overflow :
    writerAnswer 0x0506 ({ withWriter 12 [0xA5, 0x30] .reset with cfg := ⟨0, 8, 2, none⟩, arg := 0x1F }) = some (0x7166, 12, 12, [0xA5, 0x30]) := by decide +kernel

/-- 95_test_vectors.md section 2.1. -/
theorem test_bs_walign :
    writerAnswer 0x07 (withWriter 12 [0xA5, 0x30] .reset) = some (0x2, 0, 16, [0xA5, 0x30]) := by decide +kernel

/-- 95_test_vectors.md section 2.2. -/
theorem test_ahx_enc :
    codecAnswer 0x10 (loaded [0x00, 0xFF, 0x4A]) = some (0x2, 0, [0x30, 0x30, 0x46, 0x46, 0x34, 0x41]) := by decide +kernel

/-- 95_test_vectors.md section 2.2: whitespace, both cases, `>`. -/
theorem test_ahx_dec :
    codecAnswer 0x11 (loaded [0x34, 0x61, 0x20, 0x34, 0x42, 0x3E, 0x7A, 0x7A]) = some (0x2, 0, [0x4A, 0x4B]) := by decide +kernel

/-- 95_test_vectors.md section 2.2. -/
theorem test_ahx_dec_bad_char :
    codecAnswer 0x11 (loaded [0x34, 0x31, 0x47, 0x32]) = some (0x1016, 2, [0x41]) := by decide +kernel

/-- 95_test_vectors.md section 2.3: a full group. -/
theorem test_a85_enc :
    codecAnswer 0x20 (loaded [0x4D, 0x61, 0x6E, 0x20]) = some (0x2, 0, [0x39, 0x6A, 0x71, 0x6F, 0x5E]) := by decide +kernel

/-- 95_test_vectors.md section 2.3: no `z` for a partial group. -/
theorem test_a85_enc_partial_zero :
    codecAnswer 0x20 (loaded [0x00, 0x00, 0x00, 0x00, 0x00]) = some (0x2, 0, [0x7A, 0x21, 0x21]) := by decide +kernel

/-- 95_test_vectors.md section 2.3: a short final group. -/
theorem test_a85_dec :
    codecAnswer 0x21 (loaded [0x39, 0x6A, 0x71, 0x6F]) = some (0x2, 0, [0x4D, 0x61, 0x6E]) := by decide +kernel

/-- 95_test_vectors.md section 2.3. -/
theorem test_a85_dec_pad_overflow :
    codecAnswer 0x21 (loaded [0x73, 0x38, 0x57]) = some (0x2216, 0, []) := by decide +kernel

/-- 95_test_vectors.md section 2.4. -/
theorem test_rl_enc :
    codecAnswer 0x30 (loaded [0x41, 0x42, 0x42, 0x43]) = some (0x2, 0, [0x00, 0x41, 0xFF, 0x42, 0x00, 0x43, 0x80]) := by decide +kernel

/-- 95_test_vectors.md section 2.9: OUT_CAP = 3 (here with 130 bytes). -/
theorem test_rl_enc_overflow :
    codecAnswer 0x30 ({ loaded (List.replicate 130 0x41) with cfg := ⟨0, 200, 3, none⟩ }) = some (0x7166, 3, [0x81, 0x41, 0xFF]) := by decide +kernel

/-- 95_test_vectors.md section 2.4. -/
theorem test_rl_dec :
    codecAnswer 0x31 (loaded [0xFE, 0x41, 0x80, 0x7A, 0x7A]) = some (0x2, 0, [0x41, 0x41, 0x41]) := by decide +kernel

/-- 95_test_vectors.md section 2.4. -/
theorem test_rl_dec_truncated :
    codecAnswer 0x31 (loaded [0x01, 0x41, 0x42, 0x03, 0x41, 0x42]) = some (0x3016, 3, [0x41, 0x42]) := by decide +kernel

/-- 95_test_vectors.md section 2.5. -/
theorem test_pred_pre_pad_bits :
    codecAnswer 0x40 (withPred 2 1 1 10 (loaded [0xCA, 0x7F])) = some (0x2, 0, [0xAF, 0x7F]) := by decide +kernel

/-- 95_test_vectors.md section 2.5. -/
theorem test_pred_pre_paeth :
    codecAnswer 0x40 (withPred 14 1 8 3 (loaded [0x0A, 0x14, 0x1E, 0x28, 0x0F, 0xC8])) = some (0x2, 0, [0x04, 0x0A, 0x0A, 0x0A, 0x04, 0x1E, 0xE7, 0xAA]) := by decide +kernel

/-- 95_test_vectors.md section 2.5: tags Sub, Up. -/
theorem test_pred_post :
    codecAnswer 0x41 (withPred 12 1 8 4 (loaded [0x01, 0x01, 0x01, 0x01, 0x01, 0x02, 0x01, 0x01, 0x01, 0x01])) = some (0x2, 0, [0x01, 0x02, 0x03, 0x04, 0x02, 0x03, 0x04, 0x05]) := by decide +kernel

/-- 95_test_vectors.md section 2.5: CTRL = 1. -/
theorem test_pred_post_lenient :
    codecAnswer 0x41 ({ withPred 12 1 8 4 (loaded [0x01, 0x01, 0x01, 0x01, 0x01, 0x05, 0x00, 0x00, 0x00, 0x00]) with ctrl := 1 }) = some (0xA, 5, [0x01, 0x02, 0x03, 0x04]) := by decide +kernel

/-- 95_test_vectors.md section 2.6. -/
theorem test_lzw_enc :
    codecAnswer 0x50 (loaded [0x2D, 0x2D, 0x2D, 0x2D, 0x2D, 0x41, 0x2D, 0x2D, 0x2D, 0x42]) = some (0x2, 0, [0x80, 0x0B, 0x60, 0x50, 0x22, 0x0C, 0x0C, 0x85, 0x01]) := by decide +kernel

/-- 95_test_vectors.md section 2.6: with PNG Up. -/
theorem test_lzw_enc_up :
    codecAnswer 0x50 (withPred 12 1 8 2 (loaded [0x01, 0x02, 0x03, 0x04])) = some (0x2, 0, [0x80, 0x00, 0x80, 0x20, 0x28, 0x20, 0x0A, 0x02]) := by decide +kernel

/-- 95_test_vectors.md section 2.6: the code equals D. -/
theorem test_lzw_dec_own_code :
    codecAnswer 0x51 (loaded [0x80, 0x10, 0x60, 0x50, 0x10]) = some (0x2, 0, [0x41, 0x41, 0x41]) := by decide +kernel

/-- 95_test_vectors.md section 2.6: the first fault in stream order. -/
theorem test_lzw_dec_tag_before_bad_code :
    codecAnswer 0x51 (withPred 10 1 8 2 (loaded [0x80, 0x00, 0x00, 0x20, 0x20, 0x3C, 0xB0])) = some (0x4516, 3, [0x01, 0x02]) := by decide +kernel

/-- 95_test_vectors.md section 2.7: BLACKIS1 and EOB. -/
theorem test_fax_enc :
    codecAnswer 0x60 (withFax 16 0xC (loaded [0x0F, 0xF0])) = some (0x2, 0, [0xB1, 0x6C, 0x00, 0x40, 0x04, 0x00, 0x40, 0x04, 0x00, 0x40, 0x04]) := by decide +kernel

/-- 95_test_vectors.md section 2.7: EOL and BYTEALIGN. -/
theorem test_fax_enc_eol_align :
    codecAnswer 0x60 (withFax 8 0x3 (loaded [0xFF, 0xFF])) = some (0x2, 0, [0x00, 0x19, 0x80, 0x00, 0x19, 0x80]) := by decide +kernel

/-- 95_test_vectors.md section 2.7: RTC stops. -/
theorem test_fax_dec :
    codecAnswer 0x61 (withFax 8 0x6 (loaded [0x98, 0x98, 0x00, 0x10, 0x01, 0x00, 0x10, 0x01, 0x00, 0x10, 0x01])) = some (0x2, 0, [0xFF, 0xFF]) := by decide +kernel

/-- 95_test_vectors.md section 2.7. -/
theorem test_fax_dec_bad_code :
    codecAnswer 0x61 (withFax 8 0x0 (loaded [0x98, 0x02])) = some (0x6416, 5, [0xFF]) := by decide +kernel

/-- 95_test_vectors.md section 2.8. -/
theorem test_huf_lookup :
    readerAnswer 0x0470 ({ State.reset with arg := 0xFFF7 }) = some (0x2, 0, 0x80000002, 0) := by decide +kernel

/-- 95_test_vectors.md section 2.8. -/
theorem test_huf_lookup_extended_makeup :
    readerAnswer 0x0B70 ({ State.reset with arg := 0x8 }) = some (0x2, 0, 0xC0000700, 0) := by decide +kernel

/-- 95_test_vectors.md section 2.8. -/
theorem test_huf_code :
    readerAnswer 0x0071 ({ State.reset with arg := 64 }) = some (0x2, 0, 0x4005001B, 0) := by decide +kernel

/-- 95_test_vectors.md section 2.8. -/
theorem test_huf_code_bad_run :
    readerAnswer 0x4071 ({ State.reset with arg := 2624, result := 9 }) = some (0x8356, 2624, 9, 0) := by decide +kernel

/-- 95_test_vectors.md section 2.9: a previous error is cleared. -/
theorem test_sys_nop :
    readerAnswer 0xF0 ({ State.reset with status := 0x9076, errPos := 12, result := 9, bsRpos := 3 }) = some (0x2, 0, 9, 3) := by decide +kernel

/-- R86: OUT beyond OUT_LEN holds nothing defined after BS_UNDERRUN, OUT[0..OUT_LEN) stays (R506). -/
theorem test_underrun_disowns_tail :
    (afterWord 0x0102 { State.reset with outLen := 1, outBuf := [(0, 0xA5), (1, 0x30)] }).map (fun t => (t.outBuf, t.outDraws)) =
      some ([(0, 0xA5)], 1) := by decide +kernel

/-- 95_test_vectors.md section 2.9. -/
theorem test_sys_sreset :
    readerAnswer 0xF1 ({ State.reset with errPos := 12, result := 9, bsRpos := 3 }) = some (0x2, 0, 0, 0) := by decide +kernel

/-- 95_test_vectors.md section 2.9. -/
theorem test_illegal_word :
    readerAnswer 0x90 ({ State.reset with result := 9, bsRpos := 3 }) = some (0x8056, 0x90, 9, 3) := by decide +kernel

/-- R121, 95_test_vectors.md P1: `wrb IN+1, 0x3C` then a read of it. -/
theorem test_host_write_and_read_in :
    (match step { State.reset with host := [hostWrb Params.atReset 1 0x3C, .read 0x01000001 1] } with
      | .next t => (match step t with
        | .next u => some (u.readData, u.inBuf)
        | .fault _ => none
        | .refused _ => none)
      | .fault _ => none
      | .refused _ => none) = some (0x3C, [(1, 0x3C)]) := by decide +kernel

/-- R113: the word of `huf.code black`. -/
theorem test_decodeTableWord : decodeTableWord 32 0x4071 = some (.hufCode .black) := by decide


/-! ## Witnesses: a state and operands that meet each statement's hypotheses, clause by clause -/

theorem witness_EncodedCommandDecodes :
    (Instr.bsRead 32).WellFormed ∧ (Instr.hufLookup .white 1).WellFormed ∧ (Instr.hufLookup .black 13).WellFormed := by
  decide

theorem witness_DecodedWordIsTheEncoding : decode 0x2002 = .ok (.bsRead 32) := by rfl

theorem witness_DecodeMatchesOpcodeTable :
    decode 0x4D70 = .ok (.hufLookup .black 13) ∧ (Instr.hufLookup .black 13).WellFormed ∧
      (0x4D70 : Word) &&& 0xFFFF80FF = 0x70 := ⟨rfl, by decide, by decide⟩

/-- An idle block whose host is about to write the word to CMD. -/
def commanded (v : Word) : State := { State.reset with host := [hostWr Params.atReset .cmd v] }

theorem witness_CommandWordCheckedInOrder :
    (∀ v, (commanded v).busy = false ∧ (commanded v).host = .write (commanded v).cfg.base 4 v :: []) ∧
      commandCheck 0x90 = some .illegalCmd ∧ commandCheck 0x80F0 = some .reservedField ∧
      commandCheck 0x2102 = some .badBitcount ∧ commandCheck 0xE70 = some .badBitcount ∧ commandCheck 0x2002 = none :=
  ⟨fun _ => ⟨by simp [State.busy, commanded, State.reset], rfl⟩, by decide, by decide, by decide, by decide, by decide⟩

theorem witness_StepRunsDecodedCommand :
    (commanded 0xF0).busy = false ∧ (commanded 0xF0).host = .write (commanded 0xF0).cfg.base 4 0xF0 :: [] ∧
      decode 0xF0 = .ok .sysNop ∧ decode (BitVec.ofNat 32 0xF0) = .ok .sysNop := ⟨rfl, rfl, rfl, rfl⟩

theorem witness_WrittenRegisterReadsBack :
    ∀ r ∈ [Reg.inLen, Reg.faxFlags], r.writable = true ∧ State.reset.busy = false ∧
      { State.reset with host := [hostWr Params.atReset r 0xFFFFFFFF, hostRd Params.atReset r] }.host =
        [hostWr State.reset.cfg r 0xFFFFFFFF, hostRd State.reset.cfg r] := by decide

theorem witness_ReadOnlyAndReservedIgnoreWrites :
    ∀ off ∈ [0x04, 0x24, 0x4C, 0xFC], off < 0x100 ∧ off % 4 = 0 ∧ State.reset.busy = false ∧
      (off ∈ [0x04, 0x08, 0x10, 0x18, 0x1C, 0x20, 0x24] ∨ 0x4C ≤ off) ∧
      { State.reset with host := [.write off 4 1] }.host = [.write (State.reset.cfg.base + off) 4 1] ∧
      { State.reset with host := [.read off 4] }.host = [.read (State.reset.cfg.base + off) 4] := by decide

/-- The reset block with other parameters. -/
def withParams (p : Params) : State := { State.reset with cfg := p }

theorem witness_RefusedAccessesHaveNoEffect :
    let s := withParams ⟨4, 1, 1, none⟩
    (∃ off, off < 0x100 ∧ 4 + 0xFE = s.cfg.base + off ∧ (4 ≠ 4 ∨ off % 4 ≠ 0)) ∧
      (∃ off, off < 0x100 ∧ 4 + 0xFC = s.cfg.base + off ∧ (1 ≠ 4 ∨ off % 4 ≠ 0)) ∧
      (∃ i, i < 2 ^ 24 ∧ 4 + 0x01FFFFFF = s.cfg.base + 0x01000000 + i ∧ (1 ≠ 1 ∨ s.cfg.inCap ≤ i)) ∧
      (∃ i, i < 2 ^ 24 ∧ 4 + 0x02000000 = s.cfg.base + 0x02000000 + i ∧ (4 ≠ 1 ∨ s.cfg.outCap ≤ i)) ∧
      3 < s.cfg.base :=
  ⟨⟨0xFE, by decide⟩, ⟨0xFC, by decide⟩, ⟨0xFFFFFF, by decide⟩, ⟨0, by decide⟩, by decide⟩

theorem witness_ReadsHaveNoSideEffect :
    let s := { State.reset with host := [hostRd Params.atReset .status, hostRd Params.atReset .status] }
    s.busy = false ∧ s.host = [.read 4 4, .read 4 4] ∧ ∃ t, step s = .next t :=
  ⟨by decide, by decide, _, rfl⟩

theorem witness_WrittenInByteReadsBack :
    let s := { State.reset with host := [hostWrb Params.atReset 0xFFFFFF 0x80, .read 0x01FFFFFF 1] }
    s.cfg.Legal ∧ 0xFFFFFF < s.cfg.inCap ∧ s.busy = false ∧
      s.host = [hostWrb s.cfg 0xFFFFFF 0x80, .read (s.cfg.base + 0x01000000 + 0xFFFFFF) 1] := by decide

theorem witness_OutIsReadOnlyForTheHost :
    let s := { State.reset with host := [.write 0x02FFFFFF 1 0x80, hostRdb Params.atReset 0xFFFFFF] }
    s.cfg.Legal ∧ 0xFFFFFF < s.cfg.outCap ∧ s.busy = false ∧
      s.host = [.write (s.cfg.base + 0x02000000 + 0xFFFFFF) 1 0x80, hostRdb s.cfg 0xFFFFFF] := by decide

theorem witness_BusyBlockIgnoresWrites :
    let s := { State.reset with status := statusBusy, host := [.write 0x00 4 0xF0] }
    s.busy = true ∧ busTarget s.cfg 0 ≠ .outside ∧ s.host = [.write 0 4 0xF0] ∧
      { s with host := [hostRd s.cfg .status] }.host = [hostRd s.cfg .status] := by decide

theorem witness_RloadBindsReader :
    (OutDefined (loaded [1, 2]) ∧ (withParams ⟨0, 2, 1, none⟩).cfg.inCap = (loaded [1, 2]).inLen.toNat) ∧
      (let s := { loaded [1, 2] with cfg := ⟨0, 1, 1, none⟩ };
        OutDefined s ∧ s.cfg.inCap < s.inLen.toNat) ∧ (loaded [1, 2]).inLen.toNat ≤ (loaded [1, 2]).cfg.inCap := by decide

theorem witness_PeekReadsBits :
    (0 : BitVec 6).toNat ≤ 32 ∧ (32 : BitVec 6).toNat ≤ 32 ∧ OutDefined (withReader 2 12 (loaded [0xA5, 0x3C])) := by decide

theorem witness_ReadConsumesBits :
    let s := withReader 2 12 (loaded [0xA5, 0x3C])
    OutDefined s ∧ ReaderSound s ∧ (4 : BitVec 6).toNat ≤ 32 ∧ s.bsRpos.toNat + 4 = 8 * s.bsRsize.toNat ∧
      8 * s.bsRsize.toNat < s.bsRpos.toNat + 5 ∧ (5 : BitVec 6).toNat ≤ 32 := by decide

theorem witness_EodTellsEndOfData :
    OutDefined (withReader 2 16 (loaded [0xA5, 0x3C])) ∧ OutDefined (withReader 2 15 (loaded [0xA5, 0x3C])) := by decide

theorem witness_RalignMovesToByteBoundary :
    let s := withReader 2 9 (loaded [0xA5, 0x3C])
    OutDefined s ∧ ReaderSound s := by decide

theorem witness_WriteAppendsBits :
    let s := { withWriter 12 [0xA5, 0x30] .reset with cfg := ⟨0, 1, 2, none⟩ }
    WriterSound s ∧ OutDefined s ∧ WriterPadded s ∧ ceilDiv (s.bsWpos.toNat + (4 : BitVec 6).toNat) 8 ≤ s.cfg.outCap ∧
      s.cfg.outCap < ceilDiv (s.bsWpos.toNat + (5 : BitVec 6).toNat) 8 := by decide +kernel

theorem witness_WalignPadsWithZeros :
    let s := withWriter 12 [0xA5, 0x30] .reset
    WriterSound s ∧ OutDefined s ∧ WriterPadded s := by decide +kernel

theorem witness_CodecReportsItsJob :
    (isCodec .rlEnc = true ∧ CodecReady (loaded [0x41]) ∧
      codecEmits .rlEnc (loaded [0x41]) = ⟨[0x00, 0x41, 0x80], .success⟩) ∧
    (isCodec .ahxDec = true ∧ CodecReady (loaded [0x47]) ∧
      codecEmits .ahxDec (loaded [0x47]) = ⟨[], .error .ahxBadChar 0⟩) ∧
    (let s := { withPred 10 1 8 1 (loaded [5]) with ctrl := 1 };
      isCodec .predPost = true ∧ CodecReady s ∧ codecEmits .predPost s = ⟨[], .lenient 0⟩) := by decide +kernel

theorem witness_CodecRespectsBufferLimits :
    (let s := { loaded [1, 2] with cfg := ⟨0, 1, 1, none⟩ };
      s.cfg.Legal ∧ s.cfg.inCap < s.inLen.toNat) ∧
    (let s := { loaded [1] with cfg := ⟨0, 1, 1, none⟩ };
      isCodec .ahxEnc = true ∧ s.cfg.Legal ∧ s.inLen.toNat ≤ s.cfg.inCap ∧
        s.cfg.outCap < (codecEmits .ahxEnc s).out.length) := by decide +kernel

theorem witness_CodecSetsBitstreamRegisters :
    (isCodec .rlEnc = true ∧ (withReader 1 3 (loaded [1])).cfg.Legal ∧
      ∃ t, exec .rlEnc (withReader 1 3 (loaded [1])) = .next t) ∧
    commandCheck 0x130 = some .reservedField ∧ ∃ t, runCommand 0x130 (withReader 1 3 (loaded [1])) = .next t :=
  ⟨⟨rfl, by decide, _, rfl⟩, by decide, _, rfl⟩

theorem witness_CodecDependsOnSampledInputsOnly :
    let s := loaded [0x41]
    let u := { withReader 1 3 (loaded [0x41]) with result := 9, arg := 7, status := 0x8056 }
    isCodec .rlEnc = true ∧ s.cfg.Legal ∧ u.cfg = s.cfg ∧ u.inLen = s.inLen ∧ u.ctrl = s.ctrl ∧
      u.predConfig = s.predConfig ∧ u.faxConfig = s.faxConfig ∧ (∀ j < s.inLen.toNat, u.readIn j = s.readIn j) ∧ u ≠ s := by
  decide +kernel

theorem witness_ResultWrittenOnlyByItsCommands :
    (∃ t, exec .rlEnc (loaded [0x41]) = .next t) ∧
      ∃ t, exec (.hufCode .white) { State.reset with arg := 64 + 1 } = .next t ∧ t.error = true :=
  ⟨⟨_, rfl⟩, _, rfl, by decide⟩

/-- A TIFF configuration with LINE_CAP = 8. -/
def tiffSetup (colors bpc columns : Word) : State :=
  { withPred 2 colors bpc columns (loaded [1]) with cfg := ⟨0, 1, 1, some 8⟩ }

theorem witness_PredictorConfigurationChecked :
    CodecReady (withPred 9 1 8 1 (loaded [1])) ∧ CodecReady (withPred 16 1 8 1 (loaded [1])) ∧
      CodecReady (tiffSetup 5 8 1) ∧ CodecReady (tiffSetup 1 3 1) ∧ CodecReady (tiffSetup 1 8 0) ∧
      CodecReady (tiffSetup 1 8 9) ∧
      (tiffSetup 1 8 9).cfg.lineCap.any (fun cap => cap < (9 * 1 * 8 + 7) / 8) = true ∧
      (tiffSetup 1 8 8).cfg.lineCap.any (fun cap => cap < (8 * 1 * 8 + 7) / 8) = false ∧
      ∃ t, exec .predPre (tiffSetup 1 8 1) = .next t :=
  ⟨by decide, by decide, by decide, by decide, by decide, by decide, by decide, by decide, _, rfl⟩

/-- A fax configuration with LINE_CAP = 8. -/
def faxSetup (k columns rows : Word) : State :=
  { loaded [] with cfg := ⟨0, 1, 1, some 8⟩, faxK := k, faxColumns := columns, faxRows := rows }

theorem witness_FaxConfigurationChecked :
    CodecReady (faxSetup 0 8 0) ∧ (faxSetup 0xFFFFFFFF 0 0).faxK.toInt < 0 ∧ 0 < (faxSetup 1 0 0).faxK.toInt ∧
      (faxSetup 0 0 0).faxColumns.toInt < 1 ∧ (faxSetup 0 1 0xFFFFFFFF).faxRows.toInt < 0 ∧
      (faxSetup 0 65 0).cfg.lineCap.any (fun cap => cap < ((faxSetup 0 65 0).faxColumns.toNat + 7) / 8) = true ∧
      (faxSetup 0 64 0).cfg.lineCap.any (fun cap => cap < ((faxSetup 0 64 0).faxColumns.toNat + 7) / 8) = false ∧
      ∃ t, exec .faxDec (faxSetup 0 64 0) = .next t :=
  ⟨by decide, by decide, by decide, by decide, by decide, by decide, by decide, _, rfl⟩

theorem witness_PlainInputMustBeWholeRows :
    (let s := withPred 12 1 8 4 (loaded [9, 8, 7, 6, 5]);
      CodecReady s ∧ s.predConfig.invalid? s.cfg = none ∧ s.predKind.toNat ≠ 1 ∧ s.inLen.toNat % s.predConfig.bpr ≠ 0) ∧
    (let s := withFax 16 4 (loaded [0]);
      CodecReady s ∧ s.faxConfig.invalid? s.cfg = none ∧ s.inLen.toNat % ((s.faxColumns.toNat + 7) / 8) ≠ 0) := by
  decide +kernel

theorem witness_AhxEncodesHexText :
    let s := { loaded [0xFF] with cfg := ⟨0, 1, 2, none⟩ }
    CodecReady s ∧ 2 * s.inLen.toNat ≤ s.cfg.outCap := by decide

theorem witness_AhxDecodesInFourStages :
    (let s := { loaded [0x34, 0x20, 0x61, 0x3E, 0x7A] with cfg := ⟨0, 5, 1, none⟩ };
      CodecReady s ∧ ((hexData s.inp).length + 1) / 2 ≤ s.cfg.outCap ∧
        ∀ ch ∈ hexData s.inp, (hexValue? ch).isSome = true) ∧
    (let s := loaded [0x34, 0x47];
      CodecReady s ∧ ((hexData s.inp).length + 1) / 2 ≤ s.cfg.outCap ∧ ∃ ch ∈ hexData s.inp, hexValue? ch = none) := by
  decide +kernel

theorem witness_AhxBadCharacterKeepsPairs :
    let s := loaded [0x34, 0x31, 0x47, 0x32]
    CodecReady s ∧ s.inp = [0x34, 0x31] ++ 0x47 :: [0x32] ∧
      (∀ ch ∈ [0x34#8, 0x31], ch ≠ 0x3E#8 ∧ (isWhitespace ch = true ∨ (hexValue? ch).isSome = true)) ∧
      (0x47 : Byte) ≠ 0x3E#8 ∧ isWhitespace 0x47 = false ∧ hexValue? 0x47 = none ∧ 2 ≤ 2 * s.cfg.outCap := by
  decide +kernel

theorem witness_Ascii85DigitsAreBase85 : 2 ^ 32 - 1 < 2 ^ 32 := by decide

theorem witness_Ascii85EncodesByGroups :
    let s := { loaded [0, 0, 0, 0, 1] with cfg := ⟨0, 5, 10, none⟩ }
    CodecReady s ∧ 5 * ((s.inLen.toNat + 3) / 4) ≤ s.cfg.outCap := by decide

theorem witness_Ascii85RoundTrip :
    let s := loaded [0x4D, 0x61, 0x6E]
    let u := { loaded [0x39, 0x6A, 0x71, 0x6F] with cfg := ⟨0, 4, 3, none⟩ }
    CodecReady s ∧ (a85Encode s.inp).out.length ≤ s.cfg.outCap ∧ CodecReady u ∧ u.inp = (a85Encode s.inp).out ∧
      s.inLen.toNat ≤ u.cfg.outCap := by decide +kernel

/-- The text of four zero bytes, then the given characters. -/
def afterZeroGroup (tail : List Byte) : State := loaded (a85Chars [0, 0, 0, 0] ++ tail)

theorem witness_Ascii85DecodeFaults :
    (∀ tail ∈ [[0x20#8], [0x7E, 0x3E], [0x7E], [0x21, 0x7A], [0x75]],
      CodecReady (afterZeroGroup tail) ∧ 4 ≤ (afterZeroGroup tail).cfg.outCap ∧
        (afterZeroGroup tail).inp = a85Chars [0, 0, 0, 0] ++ tail) ∧
      (¬isDigit85 0x20 ∧ ¬isDigit85 0x76 ∧ isDigit85 0x21 ∧ isDigit85 0x75) ∧
      ([] : List Byte).head? ≠ some 0x3E#8 := by decide +kernel

theorem witness_RunLengthRoundTrip :
    let s := loaded [0x41, 0x41, 0x42]
    let u := { loaded [0xFF, 0x41, 0x00, 0x42, 0x80] with cfg := ⟨0, 5, 3, none⟩ }
    CodecReady s ∧ (rlEncode s.inp).out.length ≤ s.cfg.outCap ∧ CodecReady u ∧ u.inp = (rlEncode s.inp).out ∧
      s.inLen.toNat ≤ u.cfg.outCap := by decide +kernel

theorem witness_RunLengthEncodesRecords :
    (let s := { loaded (List.replicate 128 0x41) with cfg := ⟨0, 128, 3, none⟩ };
      CodecReady s ∧ s.inp = List.replicate 128 0x41 ∧ 3 ≤ s.cfg.outCap) ∧
    (let s := { loaded [0x41] with cfg := ⟨0, 1, 3, none⟩ };
      CodecReady s ∧ 1 ≤ s.inLen.toNat ∧ s.inLen.toNat ≤ 128 ∧
        (∀ k, k + 1 < s.inLen.toNat → s.inp[k]? ≠ s.inp[k + 1]?) ∧ s.inLen.toNat + 2 ≤ s.cfg.outCap) ∧
    ∃ t, exec .rlEnc (loaded []) = .next t ∧ Succeeded t := by
  refine ⟨by decide +kernel, ⟨by decide, by decide, by decide, ?_, by decide⟩, _, rfl, rfl, rfl⟩
  intro k hk
  exact absurd hk (by simp [loaded])

theorem witness_RunLengthDecodeEnds :
    ∀ ct ∈ [((0x7F : Byte), ([] : List Byte)), (0x00, []), (0x81, []), (0xFF, []), (0x80, [0x01])],
      CodecReady (loaded (rlRecords 1 [0x41] ++ ct.1 :: ct.2)) ∧
        (loaded (rlRecords 1 [0x41] ++ ct.1 :: ct.2)).inp = rlRecords 1 [0x41] ++ ct.1 :: ct.2 ∧
        1 ≤ (loaded (rlRecords 1 [0x41] ++ ct.1 :: ct.2)).cfg.outCap ∧
        ((ct.1.toNat < 128 ∧ ct.2.length < ct.1.toNat + 1) ∨ (128 < ct.1.toNat ∧ ct.2 = []) ∨ ct.1.toNat = 128) := by
  decide +kernel

theorem witness_PredictorRoundTrip :
    let s := withPred 12 1 8 2 (loaded [1, 2, 3, 4])
    let u := withPred 12 1 8 2 (loaded [2, 1, 2, 2, 2, 2])
    CodecReady s ∧ s.predConfig.invalid? s.cfg = none ∧ s.predConfig.badPlainLength s.inp = false ∧
      (prePredict s.predConfig s.inp).length ≤ s.cfg.outCap ∧ CodecReady u ∧ u.predConfig = s.predConfig ∧
      u.predConfig.invalid? u.cfg = none ∧ u.inp = prePredict s.predConfig s.inp ∧ s.inLen.toNat ≤ u.cfg.outCap := by
  decide +kernel

theorem witness_TiffStoresSampleDifferences :
    let p : PredConfig := ⟨2, 1, 1, 10⟩
    1 ≤ p.colors ∧ p.bpc ∈ [1, 2, 4, 8, 16] ∧ [0xCA#8, 0x7F].length = p.bpr := by decide

/-- One row of one byte under PNG tag 4, then a row under the unknown tag 5. -/
def unknownTag (ctrl : Word) : State := { withPred 10 1 8 1 (loaded [4, 9, 5, 9]) with ctrl := ctrl }

theorem witness_UnknownPngTagFatalOrLenient :
    ∀ lenient : Bool,
      let s := unknownTag ((BitVec.ofBool lenient).zeroExtend 32)
      CodecReady s ∧ s.predConfig.invalid? s.cfg = none ∧ 10 ≤ s.predKind.toNat ∧ s.predConfig.bpr = 1 ∧
        s.inp[0 * (1 + 1)]? = some 4 ∧ s.inp[1 * (1 + 1)]? = some 5 ∧ 1 * 1 ≤ s.cfg.outCap := by decide +kernel

theorem witness_IncompleteTiffRowReported :
    let s := withPred 2 1 8 2 (loaded [1, 1, 1])
    CodecReady s ∧ s.predConfig.invalid? s.cfg = none ∧ s.predKind.toNat = 2 ∧
      s.inLen.toNat % s.predConfig.bpr ≠ 0 ∧ s.inLen.toNat ≤ s.cfg.outCap := by decide +kernel

theorem witness_LzwEncodesCodeStream :
    CodecReady (loaded [0x41, 0x41]) ∧ (loaded [0x41, 0x41]).predKind.toNat = 1 ∧
      (lzwCompress (loaded [0x41, 0x41]).inp).length ≤ (loaded [0x41, 0x41]).cfg.outCap := by decide +kernel

theorem witness_LzwRoundTrip :
    let s := withPred 12 1 8 2 (loaded [1, 2, 3, 4])
    let u := withPred 12 1 8 2 (loaded [0x80, 0x00, 0x80, 0x20, 0x28, 0x20, 0x0A, 0x02])
    CodecReady s ∧ s.predConfig.invalid? s.cfg = none ∧ s.predConfig.badPlainLength s.inp = false ∧
      (lzwCompress (prePredict s.predConfig s.inp)).length ≤ s.cfg.outCap ∧ CodecReady u ∧
      u.predConfig = s.predConfig ∧ u.predConfig.invalid? u.cfg = none ∧
      u.inp = lzwCompress (prePredict s.predConfig s.inp) ∧ s.inLen.toNat ≤ u.cfg.outCap := by decide +kernel

theorem witness_LzwFirstCodeMustBeLiteral :
    (let s := loaded [0x81, 0x00];
      CodecReady s ∧ s.predKind.toNat = 1 ∧ 9 ≤ 8 * s.inLen.toNat ∧ natOfBits ((bitsOf s.inp).take 9) = 258) ∧
    (let s := loaded [0x80, 0x40, 0x80];
      CodecReady s ∧ s.predKind.toNat = 1 ∧ 18 ≤ 8 * s.inLen.toNat ∧ natOfBits ((bitsOf s.inp).take 9) = 256 ∧
        natOfBits (((bitsOf s.inp).drop 9).take 9) = 258) := by decide +kernel

theorem witness_FaxRoundTrip :
    let s := withFax 3 0 (loaded [0xA0])
    let u := { withFax 3 0 (loaded [0x1D, 0x0E]) with faxRows := 1 }
    CodecReady s ∧ s.faxConfig.invalid? s.cfg = none ∧ s.inLen.toNat % s.faxConfig.rowBytes = 0 ∧
      (∀ row ∈ pieces s.faxConfig.rowBytes s.inp, allZero ((bitsOf row).drop s.faxConfig.width) = true) ∧
      (faxCompress s.faxConfig s.inp).length ≤ s.cfg.outCap ∧ CodecReady u ∧ u.faxConfig.invalid? u.cfg = none ∧
      u.faxColumns = s.faxColumns ∧ u.faxFlags = s.faxFlags ∧ u.faxEob = false ∧
      u.faxRows.toInt = (s.inLen.toNat / s.faxConfig.rowBytes : Nat) ∧ u.inp = faxCompress s.faxConfig s.inp ∧
      s.inLen.toNat ≤ u.cfg.outCap := by decide +kernel

theorem witness_FaxMissingEolReported :
    let s := withFax 8 1 (loaded [0x98])
    CodecReady s ∧ s.faxConfig.invalid? s.cfg = none ∧ s.faxEol = true ∧ true ∈ bitsOf s.inp ∧
      (bitsOf s.inp).take 12 ≠ eolBits := by decide +kernel

theorem witness_LookupFindsCodeword :
    OutDefined State.reset ∧ (1 : BitVec 6).toNat = 1 ∧ (13 : BitVec 6).toNat = 13 ∧ termCode .black 63 = (0x67, 12) ∧
      makeupCode .white 64 = (0x1B, 5) ∧ makeupCode .black 2560 = (0x1F, 12) ∧
      ((∀ r ≤ 63, termCode .white r ≠ (1, 12)) ∧
        ∀ k < 40, makeupCode .white (64 * (k + 1)) ≠ (1, 12)) := by decide +kernel

theorem witness_CodeOfRunGiven :
    OutDefined State.reset ∧ { State.reset with arg := 63 }.arg.toNat ≤ 63 ∧
      (∀ r ∈ [64, 2560], (BitVec.ofNat 32 r).toNat = r ∧ r % 64 = 0 ∧ 64 ≤ r ∧ r ≤ 2560) ∧
      ∀ r ∈ [65, 2624], (BitVec.ofNat 32 r).toNat = r ∧ 63 < r ∧ (r % 64 ≠ 0 ∨ 2560 < r) := by decide +kernel

theorem witness_StepKeepsInvariant : StateInv State.reset ∧ ∃ t, step State.reset = .next t := by
  refine ⟨⟨by decide, .inl rfl, by decide, by decide, by decide, by decide, by decide, by decide, by decide, by decide,
    by decide, ?_⟩, _, rfl⟩
  intro k _ h
  exact absurd rfl h

theorem witness_LzwRoundTrip_full_table :
    nextCode (List.replicate 3837 []) = 4095 ∧ dictCode? (List.replicate 3837 []) ([0x41] ++ [0x42]) = none := by
  decide +kernel

theorem witness_LookupFindsCodeword_refused : (0 : BitVec 6).toNat = 0 ∧ 13 < (14 : BitVec 6).toNat := by decide

theorem witness_SoftResetRestoresRegisters :
    let s := { State.reset with status := statusBusy, host := [hostCmd Params.atReset .sysSreset] }
    s.busy = true ∧ s.host = [hostCmd s.cfg .sysSreset] := by decide

theorem witness_ReadOnlyAndReservedIgnoreWrites_reads :
    let s := { State.reset with status := 0x8056, host := [.read 0x04 4] }
    s.busy = false ∧ s.host = [.read (s.cfg.base + 0x04) 4] ∧ s.status &&& 0x0000FFFF = 0x8056 ∧
      State.reset.busy = false ∧ { State.reset with host := [.read 0x48 4] }.host = [.read (State.reset.cfg.base + 0x48) 4] := by
  decide

theorem witness_PngFiltersRows :
    ∀ kind ∈ [10, 15],
      let s := { withPred (BitVec.ofNat 32 kind) 3 8 2 (loaded (List.replicate 12 0x41)) with cfg := ⟨0, 12, 14, some 6⟩ }
      CodecReady s ∧ s.predConfig.invalid? s.cfg = none ∧ 10 ≤ s.predKind.toNat ∧
        s.inLen.toNat % ((s.predColumns.toNat * s.predColors.toNat * s.predBpc.toNat + 7) / 8) = 0 ∧
        s.inLen.toNat / 6 * (6 + 1) ≤ s.cfg.outCap := by decide +kernel

theorem witness_NopChangesOnlyStatus :
    0 < (withWriter 12 [0xA5, 0x30] .reset).outLen.toNat ∧
      ((withWriter 12 [0xA5, 0x30] .reset).outBuf.read? 0).isSome = true := by decide

end Sys2Proof.Tests
end

section
/-! PROOF. The codec commands in common (spec/00_scope.md R10 to R12, R16, spec/60_exceptions.md R501, R504, R505): what
each reports, how the buffers bound it, and what it depends on. -/

namespace Sys2Proof.Machine

/-! ## The frame of the codec commands -/

/-- What a codec command's job amounts to once the range check of IN_LEN (R504) and the capacity of OUT (R505) have had
their say. -/
def codecOutcome (i : Instr) (s : State) : JobResult :=
  if s.cfg.inCap < s.inLen.toNat then .raised .inLenRange s.inLen.toNat else (codecEmits i s).bounded s.cfg.outCap

/-- A codec command ends the job `codecOutcome` names. -/
theorem exec_codec_eq_endCodec {i : Instr} (h : isCodec i = true) (s : State) :
    exec i s = .next (s.issue.endCodec (codecOutcome i s)) := by
  rw [exec_codec h, State.codecJob_eq]; rfl

theorem codecOutcome_of_inLen_gt {i : Instr} {s : State} (h : s.cfg.inCap < s.inLen.toNat) :
    codecOutcome i s = .raised .inLenRange s.inLen.toNat := if_pos h

theorem codecOutcome_of_inLen_le {i : Instr} {s : State} (h : s.inLen.toNat ≤ s.cfg.inCap) :
    codecOutcome i s = (codecEmits i s).bounded s.cfg.outCap := if_neg (Nat.not_lt.2 h)

/-- No codec command puts out more than OUT_CAP bytes. -/
theorem codecOutcome_out_length_le (i : Instr) (s : State) : (codecOutcome i s).out.length ≤ s.cfg.outCap := by
  unfold codecOutcome
  split
  · simp
  · exact JobResult.bounded_out_length _ _

/-- `(code << 8) | (kind << 4) | 0x6` (R501). -/
theorem statusError_toNat (c : Cause) : (statusError c).toNat = c.code * 256 + c.kind.code * 16 + 6 := by
  cases c <;> rfl

theorem Params.inCap_le_of_legal {p : Params} (h : p.Legal) : p.inCap ≤ 2 ^ 24 := by
  obtain ⟨-, ⟨-, hle⟩, -, -⟩ := h
  exact hle

theorem Params.outCap_le_of_legal {p : Params} (h : p.Legal) : p.outCap ≤ 2 ^ 24 := by
  obtain ⟨-, -, ⟨-, hle⟩, -⟩ := h
  exact hle

/-- What the end of a codec job leaves, whatever the ending: output, bitstream registers and settings. -/
theorem codecLeaves_endCodec (s : State) (r : JobResult) (h : r.out.length ≤ 2 ^ 24) :
    CodecLeaves s (s.issue.endCodec r) r.out where
  output := State.outBytes_endCodec _ _ (by omega)
  outLen := by simp only [State.endCodec_outLen, BitVec.toNat_ofNat]; omega
  rpos := by simp
  rsize := by simp
  wpos := by simp only [State.endCodec_bsWpos, BitVec.toNat_ofNat]; omega
  result := by simp
  settings := by constructor <;> simp [State.readIn]

/-- Two jobs with the same result report the same, whatever states they end in. -/
theorem State.endCodec_report_eq (s u : State) (r : JobResult) :
    (u.endCodec r).status = (s.endCodec r).status ∧ (u.endCodec r).errPos = (s.endCodec r).errPos := by
  obtain ⟨out, ending⟩ := r
  cases ending <;> exact ⟨rfl, rfl⟩

/-- Every codec command answers a next state, the end of its outcome `r`, and leaves `r`'s output. -/
theorem exec_codec_leaves {i : Instr} {s : State} {r : JobResult} (hi : isCodec i = true) (hs : s.cfg.Legal)
    (h : codecOutcome i s = r) :
    exec i s = .next (s.issue.endCodec r) ∧ CodecLeaves s (s.issue.endCodec r) r.out := by
  subst h
  exact ⟨exec_codec_eq_endCodec hi s,
    codecLeaves_endCodec s _ (Nat.le_trans (codecOutcome_out_length_le i s) (Params.outCap_le_of_legal hs))⟩

theorem codecSucceeds_of_outcome {i : Instr} {s : State} {out : List Byte} (hi : isCodec i = true) (hs : s.cfg.Legal)
    (h : codecOutcome i s = ⟨out, .success⟩) : CodecSucceeds i s out := by
  obtain ⟨hexec, hleaves⟩ := exec_codec_leaves hi hs h
  exact ⟨_, hexec, ⟨rfl, rfl⟩, hleaves⟩

theorem codecTruncates_of_outcome {i : Instr} {s : State} {pos : Nat} {out : List Byte} (hi : isCodec i = true)
    (hs : s.cfg.Legal) (h : codecOutcome i s = ⟨out, .lenient pos⟩) : CodecTruncates i s (pos % 2 ^ 32) out := by
  obtain ⟨hexec, hleaves⟩ := exec_codec_leaves hi hs h
  exact ⟨_, hexec, ⟨rfl, by simp⟩, hleaves⟩

theorem codecFails_of_outcome {i : Instr} {s : State} {c : Cause} {pos : Nat} {out : List Byte} (hi : isCodec i = true)
    (hs : s.cfg.Legal) (h : codecOutcome i s = ⟨out, .error c pos⟩) : CodecFails i s c (pos % 2 ^ 32) out := by
  obtain ⟨hexec, hleaves⟩ := exec_codec_leaves hi hs h
  exact ⟨_, hexec, ⟨statusError_toNat c, by simp⟩, hleaves⟩

/-- Settles O22, by the three endings of the command's job. -/
theorem codecReportsItsJob : Obligations.CodecReportsItsJob := by
  intro i s hi ⟨hs, hin⟩ hfit
  have hout : codecOutcome i s = codecEmits i s := by
    rw [codecOutcome_of_inLen_le hin, JobResult.bounded_of_le hfit]
  rcases hjob : codecEmits i s with ⟨out, ending⟩
  rw [hjob] at hout
  cases ending with
  | success => exact codecSucceeds_of_outcome hi hs hout
  | lenient pos => exact codecTruncates_of_outcome hi hs hout
  | error c pos => exact codecFails_of_outcome hi hs hout

/-- Settles O23: each clause is one outcome of the codec frame, and neither position reaches 2^32. -/
theorem codecRespectsBufferLimits : Obligations.CodecRespectsBufferLimits := by
  intro i s hi hs
  refine ⟨fun hin => ?_, fun hin hout => ?_⟩
  · have h := codecFails_of_outcome hi hs (codecOutcome_of_inLen_gt hin)
    rwa [Nat.mod_eq_of_lt s.inLen.isLt] at h
  · have hcap := Params.outCap_le_of_legal hs
    have h := codecFails_of_outcome hi hs ((codecOutcome_of_inLen_le hin).trans (JobResult.bounded_of_gt hout))
    rwa [Nat.mod_eq_of_lt (by omega)] at h

/-! ## What a codec job samples (R16) -/

/-- `inp` depends on IN_LEN and IN[0..IN_LEN) alone. -/
theorem State.inp_congr {s u : State} (hlen : u.inLen = s.inLen) (hin : ∀ j < s.inLen.toNat, u.readIn j = s.readIn j) :
    u.inp = s.inp := by
  unfold State.inp
  rw [hlen]
  exact List.map_congr_left fun j hj => hin j (List.mem_range.1 hj)

/-- A codec command's job depends on the parameters, the input, CTRL and the predictor and fax configurations alone. -/
theorem codecEmits_congr (i : Instr) {s u : State} (hcfg : u.cfg = s.cfg) (hinp : u.inp = s.inp) (hctrl : u.ctrl = s.ctrl)
    (hpred : u.predConfig = s.predConfig) (hfax : u.faxConfig = s.faxConfig) : codecEmits i u = codecEmits i s := by
  cases i <;> simp only [codecEmits, State.pngLenient, hcfg, hinp, hctrl, hpred, hfax]

/-- Settles O25: both commands end the same outcome, and what they report is a function of it. -/
theorem codecDependsOnSampledInputsOnly : Obligations.CodecDependsOnSampledInputsOnly := by
  intro i s u hi hs hcfg hlen hctrl hpred hfax hin
  have hout : codecOutcome i u = codecOutcome i s := by
    unfold codecOutcome
    rw [codecEmits_congr i hcfg (State.inp_congr hlen hin) hctrl hpred hfax, hcfg, hlen]
  have hfit : (codecOutcome i s).out.length < 2 ^ 32 := by
    have := codecOutcome_out_length_le i s
    have := Params.outCap_le_of_legal hs
    omega
  obtain ⟨hstatus, herrPos⟩ := State.endCodec_report_eq s.issue u.issue (codecOutcome i s)
  refine ⟨_, _, exec_codec_eq_endCodec hi s, exec_codec_eq_endCodec hi u, ?_⟩
  rw [hout]
  refine ⟨hstatus, herrPos, by simp, ?_⟩
  rw [State.outBytes_endCodec _ _ hfit, State.outBytes_endCodec _ _ hfit]

end Sys2Proof.Machine
end

section
/-! PROOF. The invariant of the block (spec/00_scope.md R5, spec/10_state.md R34 to R54, spec/40_bitstream.md R161): the
reset state meets it and every step keeps it. -/

namespace Sys2Proof.Machine

/-! ## OUT as a bit stream (R161)

The writer's part of the invariant, stated of the buffer alone, so that it does not mention the draw of OUT's unspecified
bytes. -/

/-- OUT, of capacity `cap`, holds a stream of `p` bits, the last byte padded with zero bits. -/
structure Memory.HoldsStream (m : Memory) (cap p : Nat) : Prop where
  wf : m.wf
  bounded : ∀ c ∈ m, c.1 < cap
  defined : ∀ i < ceilDiv p 8, (m.read? i).isSome = true
  padded : ∀ v, m.read? (p / 8) = some v → p % 8 ≠ 0 → ∀ k < 8, p % 8 ≤ k → v.getLsbD (7 - k) = false

/-- Setting the bit at stream offset `k` changes that bit and no other. -/
theorem setStreamBit_getLsbD (v : Byte) (b : Bool) {k j : Nat} (hk : k < 8) (hj : j < 8) :
    (setStreamBit v k b).getLsbD (7 - j) = if j = k then b else v.getLsbD (7 - j) := by
  have hbound : 7 - j < 8 := by omega
  simp only [setStreamBit, BitVec.getLsbD_or, BitVec.getLsbD_and, BitVec.getLsbD_not, BitVec.getLsbD_shiftLeft]
  by_cases h : j = k
  · subst h; simp [hbound]
  · rcases Nat.lt_or_gt_of_ne h with hlt | hgt
    · have h1 : ¬ 7 - j < 7 - k := by omega
      have h2 : 7 - j - (7 - k) ≠ 0 := by omega
      simp [h, hbound, h1, h2]
    · have h1 : 7 - j < 7 - k := by omega
      simp [h, hbound, h1]

theorem div_lt_ceilDiv {p : Nat} (h : p % 8 ≠ 0) : p / 8 < ceilDiv p 8 := by
  unfold ceilDiv; omega

theorem lt_ceilDiv_succ {i p : Nat} (h : i < ceilDiv (p + 1) 8) : i = p / 8 ∨ i < ceilDiv p 8 := by
  unfold ceilDiv at *; omega

/-- Nothing is written yet. -/
theorem Memory.HoldsStream.zero {m : Memory} {cap : Nat} (hwf : m.wf) (hcap : ∀ c ∈ m, c.1 < cap) :
    m.HoldsStream cap 0 where
  wf := hwf
  bounded := hcap
  defined i hi := absurd hi (Nat.not_lt_zero i)
  padded _ _ h := absurd rfl h

/-- Moving on to the next byte boundary takes the zero bits of the padding into the stream (R162). -/
theorem Memory.HoldsStream.align {m : Memory} {cap p : Nat} (h : m.HoldsStream cap p) :
    m.HoldsStream cap (8 * ceilDiv p 8) where
  wf := h.wf
  bounded := h.bounded
  defined i hi := h.defined i (by unfold ceilDiv at *; omega)
  padded _ _ hne := absurd (Nat.mul_mod_right 8 _) hne

/-- Disowning what lies behind the stream keeps it (R86). -/
theorem Memory.HoldsStream.below {m : Memory} {cap p n : Nat} (h : m.HoldsStream cap p) (hn : ceilDiv p 8 ≤ n) :
    (m.below n).HoldsStream cap p where
  wf := Memory.below_wf h.wf n
  bounded c hc := h.bounded c (List.mem_of_mem_filter hc)
  defined i hi := by
    rw [Memory.read?_below, if_pos (Nat.lt_of_lt_of_le hi hn)]
    exact h.defined i hi
  padded v hv hne := by
    rw [Memory.read?_below, if_pos (Nat.lt_of_lt_of_le (div_lt_ceilDiv hne) hn)] at hv
    exact h.padded v hv hne

/-- The output of a codec job is a stream of whole bytes (R172). -/
theorem Memory.HoldsStream.ofBytes {bs : List Byte} {cap : Nat} (h : bs.length ≤ cap) :
    (Memory.ofBytes bs).HoldsStream cap (8 * bs.length) where
  wf := Memory.ofBytes_wf bs
  bounded c hc := by
    obtain ⟨-, hlt⟩ := Memory.ofBytesFrom_le bs 0 c hc
    omega
  defined i hi := by
    have hlt : i < bs.length := by unfold ceilDiv at hi; omega
    simp [hlt]
  padded _ _ hne := absurd (Nat.mul_mod_right 8 _) hne

/-- One more bit (R161): it goes into a new all-zero byte at a byte boundary, else into the stream's last byte. -/
theorem Memory.HoldsStream.writeBit {m : Memory} {cap p : Nat} (h : m.HoldsStream cap p) (hcap : p / 8 < cap)
    {old : Byte} (hold : if p % 8 = 0 then old = 0#8 else m.read? (p / 8) = some old) (b : Bool) :
    (m.write (p / 8) (setStreamBit old (p % 8) b)).HoldsStream cap (p + 1) where
  wf := Memory.write_wf h.wf _ _
  bounded c hc := by
    rcases Memory.mem_write m _ _ c hc with heq | hmem
    · exact heq ▸ hcap
    · exact h.bounded c hmem
  defined i hi := by
    rw [Memory.read?_write]
    split
    · rfl
    · next hne => exact h.defined i ((lt_ceilDiv_succ hi).resolve_left hne)
  padded v hv hne k hk hle := by
    have hdiv : (p + 1) / 8 = p / 8 := by omega
    rw [hdiv, Memory.read?_write_same] at hv
    cases hv
    rw [setStreamBit_getLsbD old b (by omega) hk, if_neg (by omega)]
    split at hold
    · simp [hold]
    · next hpos => exact h.padded old hold hpos k hk (by omega)

/-- The writer's step for one bit extends the stream by it. -/
theorem State.putOutBit_holdsStream {s : State} {p : Nat} (h : s.outBuf.HoldsStream s.cfg.outCap p)
    (hcap : ceilDiv (p + 1) 8 ≤ s.cfg.outCap) (b : Bool) :
    (s.putOutBit p b).outBuf.HoldsStream s.cfg.outCap (p + 1) := by
  refine h.writeBit (by unfold ceilDiv at hcap; omega) ?_ b
  by_cases hp : p % 8 = 0
  · simp [hp]
  · obtain ⟨v, hv⟩ := Option.isSome_iff_exists.1 (h.defined _ (div_lt_ceilDiv hp))
    simp [hp, State.readOut, hv]

/-- The writer's loop extends the stream by its bits. -/
theorem State.putOutBits_holdsStream {s : State} {p : Nat} {bs : List Bool} (h : s.outBuf.HoldsStream s.cfg.outCap p)
    (hcap : ceilDiv (p + bs.length) 8 ≤ s.cfg.outCap) :
    (s.putOutBits p bs).outBuf.HoldsStream s.cfg.outCap (p + bs.length) := by
  induction bs generalizing s p with
  | nil => exact h
  | cons b bs ih =>
    have hlen : p + (b :: bs).length = p + 1 + bs.length := by simp only [List.length_cons]; omega
    rw [hlen] at hcap ⊢
    have hbit := State.putOutBit_holdsStream h (by unfold ceilDiv at *; omega) b
    exact ih (s := s.putOutBit p b) hbit hcap

/-- The writer's loop changes nothing but OUT's bytes. -/
theorem State.putOutBits_eq (s : State) (p : Nat) (bs : List Bool) :
    s.putOutBits p bs = { s with outBuf := (s.putOutBits p bs).outBuf } := by
  induction bs generalizing s p with
  | nil => rfl
  | cons b bs ih => exact ih (s.putOutBit p b) (p + 1)

/-! ## What keeps the invariant -/

/-- The last clauses of the invariant are that OUT holds a stream of BS_WPOS bits. -/
theorem StateInv.holdsStream {s : State} (h : StateInv s) : s.outBuf.HoldsStream s.cfg.outCap s.bsWpos.toNat where
  wf := h.outBuf.1
  bounded := h.outBuf.2
  defined i hi := h.outDefined i (h.wpos ▸ hi)
  padded v hv hne k hk hle := by
    have hbit := h.padded k hk hne hle
    rwa [State.readOut, hv, Option.getD_some] at hbit

/-- A new stream in OUT, with OUT_LEN and BS_WPOS to match, whatever the draw. -/
theorem StateInv.setStream {s : State} (h : StateInv s) {m : Memory} {len pos : Word} {draws : Nat}
    (hm : m.HoldsStream s.cfg.outCap pos.toNat) (hlen : len.toNat = ceilDiv pos.toNat 8)
    (hcap : len.toNat ≤ s.cfg.outCap) :
    StateInv { s with outBuf := m, outLen := len, bsWpos := pos, outDraws := draws } :=
  { h with
    outLen := hcap
    wpos := hlen
    outBuf := ⟨hm.wf, hm.bounded⟩
    outDefined := fun i hi => hm.defined i (hlen ▸ hi)
    padded := fun k hk hne hle => by
      obtain ⟨v, hv⟩ := Option.isSome_iff_exists.1 (hm.defined _ (div_lt_ceilDiv hne))
      simpa [State.readOut, hv] using hm.padded v hv hne k hk hle }

theorem StateInv.setReader {s : State} (h : StateInv s) {size pos : Word} (hsize : size.toNat ≤ s.cfg.inCap)
    (hpos : pos.toNat ≤ 8 * size.toNat) : StateInv { s with bsRsize := size, bsRpos := pos } :=
  { h with rsize := hsize, rpos := hpos }

theorem StateInv.setResult {s : State} (h : StateInv s) (v : Word) : StateInv { s with result := v } := { h with }

/-- The host's side does not matter to the block. -/
theorem StateInv.setHost {s : State} (h : StateInv s) (q : List HostAction) (draws : Nat) :
    StateInv { s with host := q, busDraws := draws } := { h with }

/-- Any ending: STATUS takes a legal value, ERR_POS any. -/
theorem StateInv.setStatus {s : State} (h : StateInv s) {w : Word} (hw : StatusLegal w) (pos : Word) :
    StateInv { s with status := w, errPos := pos } := { h with status := hw }

theorem StateInv.disownTail {s : State} (h : StateInv s) : StateInv s.disownTail :=
  h.setStream (h.holdsStream.below (Nat.le_of_eq h.wpos.symm)) h.wpos h.outLen

theorem StateInv.succeed {s : State} (h : StateInv s) : StateInv s.succeed := h.setStatus (.inr (.inl rfl)) 0

theorem StateInv.raise {s : State} (h : StateInv s) (c : Cause) (pos : Nat) : StateInv (s.raise c pos) :=
  h.setStatus (.inr (.inr (.inr ⟨c, rfl⟩))) _

theorem StateInv.finish {s : State} (h : StateInv s) : StateInv s.finish := h.succeed.disownTail

theorem StateInv.abort {s : State} (h : StateInv s) (c : Cause) (pos : Nat) : StateInv (s.abort c pos) :=
  (h.raise c pos).disownTail

theorem StateInv.endWith {s : State} (h : StateInv s) (e : JobEnd) : StateInv (s.endWith e) := by
  cases e with
  | success => exact h.succeed
  | lenient pos => exact h.setStatus (.inr (.inr (.inl rfl))) _
  | error c pos => exact h.raise c pos

/-! ## The commands keep the invariant -/

theorem ceilDiv_le_self_of_le_mul {a b : Nat} (h : a ≤ 8 * b) : ceilDiv a 8 ≤ b := by
  unfold ceilDiv; omega

/-- A word that holds a number within a legal buffer's bits holds it whole (log 16). -/
theorem toNat_ofNat_of_le {n : Nat} (h : n ≤ 8 * 2 ^ 24) : (BitVec.ofNat 32 n).toNat = n := by
  rw [BitVec.toNat_ofNat]; omega

/-- The block is sound in `t`, with the parameters of `s`. -/
def KeepsInv (s t : State) : Prop := StateInv t ∧ t.cfg = s.cfg

theorem execBsRload_keepsInv {s t : State} (hs : StateInv s) (h : execBsRload s = .next t) : KeepsInv s t := by
  unfold execBsRload at h
  split at h <;> cases h
  · exact ⟨hs.abort _ _, rfl⟩
  · next hin => exact ⟨(hs.setReader (Nat.not_lt.1 hin) (Nat.zero_le _)).finish, rfl⟩

theorem execBsRead_keepsInv {n : BitVec 6} {s t : State} (hs : StateInv s) (h : execBsRead n s = .next t) :
    KeepsInv s t := by
  unfold execBsRead at h
  dsimp only at h
  split at h <;> cases h
  · exact ⟨hs.abort _ _, rfl⟩
  · next hfit =>
    have hin := Params.inCap_le_of_legal hs.params
    have hsize := hs.rsize
    have hpos := toNat_ofNat_of_le (n := s.bsRpos.toNat + n.toNat) (by omega)
    exact ⟨((hs.setReader hsize (hpos.trans_le (Nat.not_lt.1 hfit))).setResult _).finish, rfl⟩

theorem execBsRalign_keepsInv {s t : State} (hs : StateInv s) (h : execBsRalign s = .next t) : KeepsInv s t := by
  cases h
  have hin := Params.inCap_le_of_legal hs.params
  have hsize := hs.rsize
  have hle := ceilDiv_le_self_of_le_mul hs.rpos
  have hpos := toNat_ofNat_of_le (n := 8 * ceilDiv s.bsRpos.toNat 8) (by omega)
  exact ⟨(hs.setReader hsize (by omega)).finish, rfl⟩

theorem execBsWreset_keepsInv {s t : State} (hs : StateInv s) (h : execBsWreset s = .next t) : KeepsInv s t := by
  cases h
  obtain ⟨hwf, hbounded⟩ := hs.outBuf
  exact ⟨(hs.setStream (len := 0) (pos := 0) (.zero hwf hbounded) rfl (Nat.zero_le _)).finish, rfl⟩

theorem execBsWrite_keepsInv {n : BitVec 6} {s t : State} (hs : StateInv s) (h : execBsWrite n s = .next t) :
    KeepsInv s t := by
  unfold execBsWrite at h
  dsimp only at h
  split at h <;> cases h
  · exact ⟨hs.abort _ _, rfl⟩
  · next hfit =>
    have hfit := Nat.not_lt.1 hfit
    have hout := Params.outCap_le_of_legal hs.params
    have hpos := toNat_ofNat_of_le (n := s.bsWpos.toNat + n.toNat) (by unfold ceilDiv at hfit; omega)
    have hlen := toNat_ofNat_of_le (n := ceilDiv (s.bsWpos.toNat + n.toNat) 8) (by omega)
    have hstream := State.putOutBits_holdsStream (s := s.issue) (bs := s.argBits n.toNat) hs.holdsStream
      (by simpa [State.argBits] using hfit)
    rw [State.argBits, lowBits_length, ← hpos] at hstream
    rw [State.putOutBits_eq]
    exact ⟨(hs.setStream hstream (by rw [hlen, hpos]) (hlen.trans_le hfit)).finish, rfl⟩

theorem execBsWalign_keepsInv {s t : State} (hs : StateInv s) (h : execBsWalign s = .next t) : KeepsInv s t := by
  cases h
  have hout := Params.outCap_le_of_legal hs.params
  have hcap := hs.outLen
  have hwpos := hs.wpos
  have hpos := toNat_ofNat_of_le (n := 8 * ceilDiv s.bsWpos.toNat 8) (by omega)
  have hstream := hs.holdsStream.align
  rw [← hpos] at hstream
  exact ⟨(hs.setStream hstream (by rw [hpos, hwpos]; unfold ceilDiv; omega) hcap).finish, rfl⟩

theorem execHufCode_keepsInv {c : Colour} {s t : State} (hs : StateInv s) (h : execHufCode c s = .next t) :
    KeepsInv s t := by
  unfold execHufCode at h
  dsimp only at h
  split at h
  · cases h; exact ⟨(hs.setResult _).finish, rfl⟩
  · split at h <;> cases h
    · exact ⟨(hs.setResult _).finish, rfl⟩
    · exact ⟨hs.raise _ _, rfl⟩

theorem execSysSreset_keepsInv {s t : State} (hs : StateInv s) (h : execSysSreset s = .next t) : KeepsInv s t := by
  cases h
  obtain ⟨hwf, hbounded⟩ := hs.outBuf
  have hio : StateInv { s with outLen := 0, bsWpos := 0, bsRsize := 0, bsRpos := 0 } :=
    (hs.setStream (len := 0) (pos := 0) (.zero hwf hbounded) rfl (Nat.zero_le _)).setReader (size := 0) (pos := 0)
      (Nat.zero_le _) (Nat.zero_le _)
  have hregs : StateInv s.resetRegs :=
    { hio with ctrl := show (0 : Word).toNat < 2 by decide, faxFlags := show (4 : Word).toNat < 16 by decide }
  exact ⟨hregs.succeed, rfl⟩

/-- STATUS and ERR_POS of the issue are overwritten by every ending. -/
theorem State.issue_endCodec (s : State) (r : JobResult) : s.issue.endCodec r = s.endCodec r := by
  obtain ⟨out, ending⟩ := r
  cases ending <;> rfl

theorem exec_codec_keepsInv {i : Instr} {s t : State} (hi : isCodec i = true) (hs : StateInv s)
    (h : exec i s = .next t) : KeepsInv s t := by
  rw [exec_codec_eq_endCodec hi, State.issue_endCodec] at h
  cases h
  have hcap := codecOutcome_out_length_le i s
  have hout := Params.outCap_le_of_legal hs.params
  have hlen := toNat_ofNat_of_le (n := (codecOutcome i s).out.length) (by omega)
  have hpos := toNat_ofNat_of_le (n := 8 * (codecOutcome i s).out.length) (by omega)
  have hstream := Memory.HoldsStream.ofBytes hcap
  rw [← hpos] at hstream
  have hinv := (hs.setStream (draws := s.outDraws + 1) hstream (by rw [hlen, hpos]; unfold ceilDiv; omega)
    (hlen.trans_le hcap)).setReader (size := 0) (pos := 0) (Nat.zero_le _) (Nat.zero_le _)
  exact ⟨hinv.endWith _, State.endCodec_cfg s _⟩

/-- Every command keeps the invariant, whatever its operands. -/
theorem exec_keepsInv {i : Instr} {s t : State} (hs : StateInv s) (h : exec i s = .next t) : KeepsInv s t := by
  cases i with
  | bsRload => exact execBsRload_keepsInv hs h
  | bsRead n => exact execBsRead_keepsInv hs h
  | bsRalign => exact execBsRalign_keepsInv hs h
  | bsWreset => exact execBsWreset_keepsInv hs h
  | bsWrite n => exact execBsWrite_keepsInv hs h
  | bsWalign => exact execBsWalign_keepsInv hs h
  | hufCode c => exact execHufCode_keepsInv hs h
  | sysSreset => exact execSysSreset_keepsInv hs h
  | sysNop => cases h; exact ⟨hs.finish, rfl⟩
  | bsPeek | bsEod | hufLookup => cases h; exact ⟨(hs.setResult _).finish, rfl⟩
  | ahxEnc | ahxDec | a85Enc | a85Dec | rlEnc | rlDec | predPre | predPost | lzwEnc | lzwDec | faxEnc | faxDec =>
    exact exec_codec_keepsInv rfl hs h

/-! ## The host's accesses keep the invariant -/

theorem runCommand_keepsInv {v : Word} {s t : State} (hs : StateInv s) (h : runCommand v s = .next t) :
    KeepsInv s t := by
  rcases runCommand_cases h with ⟨e, -, rfl⟩ | ⟨i, -, hexec⟩
  · exact ⟨hs.raise _ _, rfl⟩
  · exact exec_keepsInv hs hexec

theorem writeReg_keepsInv {s : State} (hs : StateInv s) (r : Reg) (v : Word) : KeepsInv s (s.writeReg r v) := by
  cases r with
  | cmd | status | errPos | outLen | result | bsRpos | bsRsize | bsWpos => exact ⟨hs, rfl⟩
  | ctrl =>
    have hmask : (v &&& 0x00000001).toNat < 2 := by
      rw [BitVec.toNat_and]; exact Nat.lt_succ_of_le Nat.and_le_right
    exact ⟨{ hs with ctrl := hmask }, rfl⟩
  | faxFlags =>
    have hmask : (v &&& 0x0000000F).toNat < 16 := by
      rw [BitVec.toNat_and]; exact Nat.lt_succ_of_le Nat.and_le_right
    exact ⟨{ hs with faxFlags := hmask }, rfl⟩
  | inLen | arg | predKind | predColors | predBpc | predColumns | faxK | faxColumns | faxRows =>
    exact ⟨{ hs with }, rfl⟩

/-- A host write of a byte of IN. -/
theorem StateInv.writeIn {s : State} (hs : StateInv s) {i : Nat} (hi : i < s.cfg.inCap) (b : Byte) :
    StateInv { s with inBuf := s.inBuf.write i b } := by
  obtain ⟨hwf, hbounded⟩ := hs.inBuf
  refine { hs with inBuf := ⟨Memory.write_wf hwf i b, fun c hc => ?_⟩ }
  rcases Memory.mem_write _ _ _ c hc with heq | hmem
  · exact heq ▸ hi
  · exact hbounded c hmem

theorem busWrite_keepsInv {addr bytes : Nat} {v : Word} {s t : State} (hs : StateInv s)
    (h : busWrite addr bytes v s = .next t) : KeepsInv s t := by
  rcases busWrite_cases h with rfl | ⟨-, -, -, hrun⟩ | ⟨r, -, -, -, -, rfl⟩ | ⟨i, -, -, -, hi, rfl⟩
  · exact ⟨hs, rfl⟩
  · exact runCommand_keepsInv hs hrun
  · exact writeReg_keepsInv hs r v
  · exact ⟨hs.writeIn hi _, rfl⟩

/-- A host read changes only what the host got and the draw number. -/
theorem busRead_keepsInv {addr bytes : Nat} {s t : State} (hs : StateInv s) (h : busRead addr bytes s = .next t) :
    KeepsInv s t := by
  obtain ⟨v, -, rfl⟩ := busRead_cases h
  unfold State.drawAfterRead
  split <;> exact ⟨{ hs with }, rfl⟩

/-- Settles O59, by the host's next access. -/
theorem stepKeepsInvariant : Obligations.StepKeepsInvariant := by
  intro s t hs h
  rcases step_cases h with ⟨-, rfl⟩ | ⟨addr, bytes, v, rest, -, hw⟩ | ⟨addr, bytes, rest, -, hr⟩ | ⟨rest, -, rfl⟩
  · exact ⟨hs, rfl⟩
  · obtain ⟨hinv, hcfg⟩ := busWrite_keepsInv (hs.setHost rest _) hw
    exact ⟨hinv, hcfg⟩
  · obtain ⟨hinv, hcfg⟩ := busRead_keepsInv (hs.setHost rest _) hr
    exact ⟨hinv, hcfg⟩
  · exact ⟨{ hs with }, rfl⟩

/-- Settles O58, clause by clause. -/
theorem resetMeetsInvariant : Obligations.ResetMeetsInvariant where
  params := by decide
  status := .inl rfl
  outLen := Nat.zero_le _
  rsize := Nat.zero_le _
  rpos := Nat.zero_le _
  wpos := rfl
  ctrl := by decide
  faxFlags := by decide
  inBuf := ⟨State.reset_buffers_wf.1, fun _ hc => absurd hc List.not_mem_nil⟩
  outBuf := ⟨State.reset_buffers_wf.2, fun _ hc => absurd hc List.not_mem_nil⟩
  outDefined i hi := absurd hi (Nat.not_lt_zero i)
  padded _ _ h := absurd rfl h

end Sys2Proof.Machine
end

section
/-! PROOF. The host's accesses to the register window (spec/10_state.md R32 to R34, R43, R51, R52, spec/20_memory.md R80,
R89): what a read returns after a write to the same and to another register, and the command a write to CMD runs. -/

namespace Sys2Proof.Machine

/-! ## Registers -/

/-- `writeReg` sets the read-write registers alone (R52); what a write to CMD does is `runCommand`. -/
theorem State.writeReg_of_not_writable {r : Reg} (h : r.writable = false) (s : State) (v : Word) :
    s.writeReg r v = s := by
  cases r with
  | cmd | status | errPos | outLen | result | bsRpos | bsRsize | bsWpos => rfl
  | inLen | arg | ctrl | predKind | predColors | predBpc | predColumns | faxK | faxColumns | faxRows | faxFlags =>
    exact absurd h (by decide)

@[simp] theorem State.writeReg_cfg (s : State) (r : Reg) (v : Word) : (s.writeReg r v).cfg = s.cfg := by
  cases r <;> rfl
@[simp] theorem State.writeReg_status (s : State) (r : Reg) (v : Word) : (s.writeReg r v).status = s.status := by
  cases r <;> rfl
@[simp] theorem State.writeReg_inBuf (s : State) (r : Reg) (v : Word) : (s.writeReg r v).inBuf = s.inBuf := by
  cases r <;> rfl
@[simp] theorem State.writeReg_outBuf (s : State) (r : Reg) (v : Word) : (s.writeReg r v).outBuf = s.outBuf := by
  cases r <;> rfl
@[simp] theorem State.writeReg_host (s : State) (r : Reg) (v : Word) : (s.writeReg r v).host = s.host := by
  cases r <;> rfl
@[simp] theorem State.writeReg_outDraws (s : State) (r : Reg) (v : Word) : (s.writeReg r v).outDraws = s.outDraws := by
  cases r <;> rfl

@[simp] theorem State.writeReg_busy (s : State) (r : Reg) (v : Word) : (s.writeReg r v).busy = s.busy := by
  simp [State.busy]

/-- A read-write register holds what was written to it, its reserved fields 0 (R52). -/
theorem State.readReg_writeReg_same {r : Reg} (h : r.writable = true) (s : State) (v : Word) :
    (s.writeReg r v).readReg r = v &&& r.defined := by
  cases r with
  | cmd | status | errPos | outLen | result | bsRpos | bsRsize | bsWpos => exact absurd h (by decide)
  | ctrl | faxFlags => simp only [State.readReg, State.writeReg, Reg.defined, BitVec.and_assoc, BitVec.and_self]
  | inLen | arg | predKind | predColors | predBpc | predColumns | faxK | faxColumns | faxRows =>
    exact (BitVec.and_allOnes (x := v)).symm

theorem State.readReg_writeReg_of_ne {q r : Reg} (h : q ≠ r) (s : State) (v : Word) :
    (s.writeReg r v).readReg q = s.readReg q := by
  cases r with
  | cmd | status | errPos | outLen | result | bsRpos | bsRsize | bsWpos => rfl
  | inLen | arg | ctrl | predKind | predColors | predBpc | predColumns | faxK | faxColumns | faxRows | faxFlags =>
    cases q <;> simp_all [State.writeReg, State.readReg]

/-! ## The registers and their offsets (R32) -/

/-- The nineteen registers of R32, in the order of their offsets. -/
def Reg.all : List Reg :=
  [.cmd, .status, .errPos, .inLen, .outLen, .arg, .result, .bsRpos, .bsRsize, .bsWpos, .ctrl, .predKind, .predColors,
    .predBpc, .predColumns, .faxK, .faxColumns, .faxRows, .faxFlags]

/-- The read-only registers of R32, in the order of their offsets. -/
def Reg.readOnly : List Reg := [.status, .errPos, .outLen, .result, .bsRpos, .bsRsize, .bsWpos]

theorem Reg.not_writable_of_mem_readOnly : ∀ r ∈ Reg.readOnly, r ≠ .cmd ∧ r.writable = false := by decide

theorem Reg.offset_le (r : Reg) : r.offset ≤ 0x48 := by cases r <;> decide

theorem Reg.offset_mod_four (r : Reg) : r.offset % 4 = 0 := by cases r <;> rfl

/-- Every offset past FAX_FLAGS is reserved. -/
theorem regAt_eq_none_of_ge {off : Nat} (h : 0x4C ≤ off) : regAt off = none := by
  rw [Option.eq_none_iff_forall_ne_some]
  intro r hr
  have hoff := offset_of_regAt hr
  have hle := r.offset_le
  omega

/-! ## Accesses of an idle block to the register window -/

section
variable {s : State} {off : Nat}

/-- A 32-bit write to CMD runs the word written (R33). -/
theorem busWrite_cmd (hidle : s.busy = false) (v : Word) : busWrite s.cfg.base 4 v s = runCommand v s := by
  have htarget : busTarget s.cfg s.cfg.base = .register 0 := busTarget_register s.cfg (off := 0) (by decide)
  simp [busWrite, htarget, hidle, regAt]

theorem busWrite_reg {r : Reg} (hr : r ≠ .cmd) (hidle : s.busy = false) (v : Word) :
    busWrite (s.cfg.base + r.offset) 4 v s = .next (s.writeReg r v) := by
  have htarget := busTarget_register s.cfg (Nat.lt_of_le_of_lt r.offset_le (by decide : 0x48 < 0x100))
  simp [busWrite, htarget, hidle, regAt_offset, r.offset_mod_four]

/-- A reserved register takes no write (R52). -/
theorem busWrite_reserved (hoff : off < 0x100) (hnone : regAt off = none) (v : Word) :
    busWrite (s.cfg.base + off) 4 v s = .next s := by
  simp [busWrite, busTarget_register s.cfg hoff, hnone]

theorem busRead_reg (r : Reg) (hidle : s.busy = false) :
    busRead (s.cfg.base + r.offset) 4 s = .next { s with readData := s.readReg r } := by
  have htarget := busTarget_register s.cfg (Nat.lt_of_le_of_lt r.offset_le (by decide : 0x48 < 0x100))
  simp [busRead, busValue?, htarget, hidle, regAt_offset, r.offset_mod_four, State.drawAfterRead]

/-- A reserved register reads 0 (R32). -/
theorem busRead_reserved (hoff : off < 0x100) (halign : off % 4 = 0) (hnone : regAt off = none)
    (hidle : s.busy = false) : busRead (s.cfg.base + off) 4 s = .next { s with readData := 0 } := by
  simp [busRead, busValue?, busTarget_register s.cfg hoff, halign, hnone, hidle, State.drawAfterRead]

end

/-! ## Steps whose access is to the register window -/

/-- `s` with the host's write taken from its queue: what the write acts on. -/
def State.afterWriteTaken (s : State) (rest : List HostAction) : State :=
  { s with host := rest, busDraws := s.busDraws + 1 }

section
variable {s : State} {rest : List HostAction}

theorem step_write {addr bytes : Nat} {v : Word} (h : s.host = .write addr bytes v :: rest) :
    step s = busWrite addr bytes v (s.afterWriteTaken rest) := step_of_host_cons h

theorem step_read {addr bytes : Nat} (h : s.host = .read addr bytes :: rest) :
    step s = busRead addr bytes { s with host := rest } := step_of_host_cons h

theorem step_writeCmd {v : Word} (hidle : s.busy = false) (h : s.host = .write s.cfg.base 4 v :: rest) :
    step s = runCommand v (s.afterWriteTaken rest) :=
  (step_write h).trans (busWrite_cmd (s := s.afterWriteTaken rest) hidle v)

theorem step_writeReg {r : Reg} {v : Word} (hr : r ≠ .cmd) (hidle : s.busy = false)
    (h : s.host = .write (s.cfg.base + r.offset) 4 v :: rest) :
    step s = .next ((s.afterWriteTaken rest).writeReg r v) :=
  (step_write h).trans (busWrite_reg (s := s.afterWriteTaken rest) hr hidle v)

theorem step_readReg {r : Reg} (hidle : s.busy = false) (h : s.host = .read (s.cfg.base + r.offset) 4 :: rest) :
    step s = .next { s with host := rest, readData := s.readReg r } :=
  (step_read h).trans (busRead_reg (s := { s with host := rest }) r hidle)

end

theorem runCommand_of_decode {v : Word} {i : Instr} (h : decode v = .ok i) (s : State) : runCommand v s = exec i s := by
  simp [runCommand, h]

/-- A step on the state `withFetchWord` makes runs the word, BUSY cleared. -/
theorem step_withFetchWord (s : State) (w : Nat) :
    step (s.withFetchWord 32 w) =
      runCommand (BitVec.ofNat 32 w) { s with status := s.status &&& 0xFFFFFFFE, busDraws := s.busDraws + 1 } := by
  have hidle : (s.withFetchWord 32 w).busy = false := by simp [State.busy, State.withFetchWord, State.withCommand]
  have hword : BitVec.ofNat 32 (w % 2 ^ 32) = BitVec.ofNat 32 w := by simp [← BitVec.toNat_inj]
  have hhost : (s.withFetchWord 32 w).host = .write (s.withFetchWord 32 w).cfg.base 4 (BitVec.ofNat 32 w) :: s.host := by
    simp only [State.withFetchWord, State.withCommand, hword]
  exact step_writeCmd hidle hhost

/-! ## The statements -/

/-- Settles O7: the write sets one register, and the read that follows is of the same idle block. -/
theorem writtenRegisterReadsBack : Obligations.WrittenRegisterReadsBack := by
  intro s r v rest hr hidle hhost
  have hcmd : r ≠ .cmd := by rintro rfl; exact absurd hr (by decide)
  have hwrite := step_writeReg hcmd hidle hhost
  have hread := step_readReg (s := (s.afterWriteTaken (hostRd s.cfg r :: rest)).writeReg r v) (r := r) (rest := rest)
    ((State.writeReg_busy _ r v).trans hidle) (by simp [hostRd, State.afterWriteTaken])
  refine ⟨_, _, hwrite, hread, State.readReg_writeReg_same hr _ v, fun q hq => ?_, fun i => ?_, fun i => ?_⟩
  · rw [State.readReg_writeReg_of_ne hq]
    cases q <;> rfl
  · exact State.readIn_of_eq (by simp [State.afterWriteTaken]) i
  · simp [State.readOut, State.afterWriteTaken]

/-- Settles O8: an offset the statement names is that of a read-only register or reserved, and its list of values is
that of what the nineteen registers read as. -/
theorem readOnlyAndReservedIgnoreWrites : Obligations.ReadOnlyAndReservedIgnoreWrites := by
  refine ⟨fun s off v rest hoff halign hidle => ⟨?_, fun hge hhost => ?_⟩, fun s off value rest hidle hmem hhost => ?_⟩
  · rintro (hmem | hge) hhost
    · obtain ⟨r, hr, rfl⟩ : ∃ r ∈ Reg.readOnly, r.offset = off := List.mem_map.1 hmem
      obtain ⟨hcmd, hro⟩ := Reg.not_writable_of_mem_readOnly r hr
      rw [step_writeReg hcmd hidle hhost, State.writeReg_of_not_writable hro]
      rfl
    · exact (step_write hhost).trans (busWrite_reserved (s := s.afterWriteTaken rest) hoff (regAt_eq_none_of_ge hge) v)
  · exact (step_read hhost).trans
      (busRead_reserved (s := { s with host := rest }) hoff halign (regAt_eq_none_of_ge hge) hidle)
  · obtain ⟨r, -, hr⟩ : ∃ r ∈ Reg.all, (r.offset, s.readReg r) = (off, value) := List.mem_map.1 hmem
    obtain ⟨rfl, rfl⟩ := Prod.mk.inj hr
    exact step_readReg hidle hhost

/-- Settles O6: the write to CMD runs the word, and a word that decodes runs its command. -/
theorem stepRunsDecodedCommand : Obligations.StepRunsDecodedCommand :=
  ⟨fun _ _ _ _ hidle hhost hi => (step_writeCmd hidle hhost).trans (runCommand_of_decode hi _),
    fun s w _ hi => (step_withFetchWord s w).trans (runCommand_of_decode hi _)⟩

end Sys2Proof.Machine
end

section
/-! PROOF. RESULT (spec/10_state.md R39, spec/70_reset_and_hazards.md R552): which commands write it, and that an error
leaves it. -/

namespace Sys2Proof.Machine

/-- The commands that name RESULT (R39), and the reset of all registers (R552). -/
inductive WritesResult : Instr → Prop where
  | bsPeek (n : BitVec 6) : WritesResult (.bsPeek n)
  | bsRead (n : BitVec 6) : WritesResult (.bsRead n)
  | bsEod : WritesResult .bsEod
  | hufLookup (c : Colour) (n : BitVec 6) : WritesResult (.hufLookup c n)
  | hufCode (c : Colour) : WritesResult (.hufCode c)
  | sysSreset : WritesResult .sysSreset

/-- What a command can do to RESULT: keep it, or, being one that writes it, complete without an error. -/
def ResultKeptOrWritten (i : Instr) (s t : State) : Prop := t.result = s.result ∨ WritesResult i ∧ t.error = false

theorem State.succeed_error (s : State) : s.succeed.error = false := by simp [State.error, statusDone, statusWord]

theorem State.finish_error (s : State) : s.finish.error = false := s.succeed_error

theorem execBsRload_result {s t : State} (h : execBsRload s = .next t) : t.result = s.result := by
  unfold execBsRload at h
  split at h <;> cases h <;> rfl

theorem execBsRead_result {n : BitVec 6} {s t : State} (h : execBsRead n s = .next t) :
    ResultKeptOrWritten (.bsRead n) s t := by
  unfold execBsRead at h
  dsimp only at h
  split at h <;> cases h
  · exact .inl rfl
  · exact .inr ⟨.bsRead n, State.finish_error _⟩

theorem execBsWrite_result {n : BitVec 6} {s t : State} (h : execBsWrite n s = .next t) : t.result = s.result := by
  unfold execBsWrite at h
  dsimp only at h
  split at h <;> cases h
  · rfl
  · exact State.putOutBits_result _ _ _

/-- BAD_RUN leaves RESULT (R503); a terminal and a makeup code are written to it. -/
theorem execHufCode_result {c : Colour} {s t : State} (h : execHufCode c s = .next t) :
    ResultKeptOrWritten (.hufCode c) s t := by
  unfold execHufCode at h
  dsimp only at h
  split at h
  · cases h; exact .inr ⟨.hufCode c, State.finish_error _⟩
  · split at h <;> cases h
    · exact .inr ⟨.hufCode c, State.finish_error _⟩
    · exact .inl rfl

theorem exec_codec_result {i : Instr} {s t : State} (hi : isCodec i = true) (h : exec i s = .next t) :
    t.result = s.result := by
  rw [exec_codec hi] at h
  cases h
  exact State.codecJob_result _ _

/-- Every command keeps RESULT, or is one that writes it and completes without an error. -/
theorem exec_result {i : Instr} {s t : State} (h : exec i s = .next t) : ResultKeptOrWritten i s t := by
  cases i with
  | bsRload => exact .inl (execBsRload_result h)
  | bsPeek n => cases h; exact .inr ⟨.bsPeek n, State.finish_error _⟩
  | bsRead n => exact execBsRead_result h
  | bsEod => cases h; exact .inr ⟨.bsEod, State.finish_error _⟩
  | bsWrite n => exact .inl (execBsWrite_result h)
  | hufLookup c n => cases h; exact .inr ⟨.hufLookup c n, State.finish_error _⟩
  | hufCode c => exact execHufCode_result h
  | sysSreset => cases h; exact .inr ⟨.sysSreset, State.succeed_error _⟩
  | bsRalign | bsWreset | bsWalign | sysNop => cases h; exact .inl rfl
  | ahxEnc | ahxDec | a85Enc | a85Dec | rlEnc | rlDec | predPre | predPost | lzwEnc | lzwDec | faxEnc | faxDec =>
    exact .inl (exec_codec_result rfl h)

/-- Settles O26: a command that does not keep RESULT is one of the six, and raised no error. -/
theorem resultWrittenOnlyByItsCommands : Obligations.ResultWrittenOnlyByItsCommands := by
  intro i s t h
  rcases exec_result h with hkept | ⟨hwrites, hok⟩
  · exact ⟨fun _ _ _ _ _ => hkept, fun _ => hkept⟩
  · refine ⟨fun hlist hpeek hread hlookup hcode => ?_, fun herr => absurd herr (by simp [hok])⟩
    cases hwrites with
    | bsPeek n => exact absurd rfl (hpeek n)
    | bsRead n => exact absurd rfl (hread n)
    | bsEod | sysSreset => exact absurd hlist (by simp)
    | hufLookup c n => exact absurd rfl (hlookup c n)
    | hufCode c => exact absurd rfl (hcode c)

end Sys2Proof.Machine
end

section
/-! PROOF. The host's accesses to the three windows (spec/20_memory.md R80 to R84, R89, R94): the ones that are refused,
the ones outside the block, those of a busy block, and the byte accesses to IN and OUT. -/

namespace Sys2Proof.Machine

/-- A host write to OUT has no effect, whatever its width and index (R82). -/
theorem busWrite_outByte {s : State} {addr i : Nat} (htarget : busTarget s.cfg addr = .outByte i) (bytes : Nat)
    (v : Word) : busWrite addr bytes v s = .next s := by
  simp only [busWrite, htarget]

/-! ## Refused accesses (R83, R84) -/

/-- The accesses inside the windows that R83 and R84 refuse, by what the address names: a register access that is not an
aligned 32-bit one, and an access to IN or OUT that is not of one byte below the capacity. -/
inductive Refused (p : Params) (addr bytes : Nat) : Prop where
  | register {off : Nat} (htarget : busTarget p addr = .register off) (hform : bytes ≠ 4 ∨ off % 4 ≠ 0)
  | inByte {i : Nat} (htarget : busTarget p addr = .inByte i) (hform : bytes ≠ 1 ∨ p.inCap ≤ i)
  | outByte {i : Nat} (htarget : busTarget p addr = .outByte i) (hform : bytes ≠ 1 ∨ p.outCap ≤ i)

theorem busWrite_refused {s : State} {addr bytes : Nat} (h : Refused s.cfg addr bytes) (v : Word) :
    busWrite addr bytes v s = .next s := by
  cases h with
  | register htarget hform | inByte htarget hform => simp only [busWrite, htarget, if_pos hform]
  | outByte htarget => exact busWrite_outByte htarget bytes v

/-- The value of a refused read is left to a draw, whether a job runs or not. -/
theorem busValue?_refused {s : State} {addr bytes : Nat} (h : Refused s.cfg addr bytes) :
    busValue? addr bytes s = some (Config.refusedRead s.busDraws addr bytes) := by
  cases h with
  | register htarget hform | inByte htarget hform | outByte htarget hform =>
    simp only [busValue?, htarget, if_pos hform]

/-! ## Reads (R89) -/

theorem busRead_of_value {addr bytes : Nat} {s : State} {w : Word} (h : busValue? addr bytes s = some w) :
    busRead addr bytes s = .next { s.drawAfterRead with readData := w } := by
  simp only [busRead, h]

theorem State.drawAfterRead_of_idle {s : State} (hidle : s.busy = false) : s.drawAfterRead = s := by
  simp [State.drawAfterRead, hidle]

/-- After a read at most the draw number has moved. -/
theorem State.drawAfterRead_eq (s : State) : s.drawAfterRead = { s with busDraws := s.drawAfterRead.busDraws } := by
  unfold State.drawAfterRead
  split <;> rfl

/-- A read of an idle block that is answered hands the host its value and changes nothing else. -/
theorem busRead_idle {addr bytes : Nat} {s t : State} (hidle : s.busy = false) (h : busRead addr bytes s = .next t) :
    busValue? addr bytes s = some t.readData ∧ t = { s with readData := t.readData } := by
  obtain ⟨w, hvalue, rfl⟩ := busRead_cases h
  rw [State.drawAfterRead_of_idle hidle]
  exact ⟨hvalue, rfl⟩

/-- What a read returns depends neither on the accesses still to come nor on what the host read before. -/
theorem busValue?_setHost_setReadData (addr bytes : Nat) (s : State) (rest : List HostAction) (w : Word) :
    busValue? addr bytes { s with host := rest, readData := w } = busValue? addr bytes s := rfl

/-! ## Accesses outside the block (R80; log 10) -/

section
variable {s : State} {addr : Nat}

theorem busWrite_outside (h : busTarget s.cfg addr = .outside) (bytes : Nat) (v : Word) :
    busWrite addr bytes v s = .fault (.outsideBlock addr) := by
  simp only [busWrite, h]

theorem busRead_outside (h : busTarget s.cfg addr = .outside) (bytes : Nat) :
    busRead addr bytes s = .fault (.outsideBlock addr) := by
  simp only [busRead, busValue?, h]

end

/-! ## A busy block (R94) -/

theorem busWrite_busy {s : State} {addr : Nat} (hbusy : s.busy = true) (hinside : busTarget s.cfg addr ≠ .outside)
    (bytes : Nat) (v : Word) : busWrite addr bytes v s = .next s := by
  cases htarget : busTarget s.cfg addr with
  | outside => exact absurd htarget hinside
  | register off | inByte i => simp only [busWrite, htarget, hbusy, if_true, ite_self]
  | outByte i => exact busWrite_outByte htarget bytes v

/-- STATUS is the one register whose value a read returns whether a job runs or not. -/
theorem busValue?_status (s : State) : busValue? (s.cfg.base + Reg.status.offset) 4 s = some (s.readReg .status) := by
  have htarget : busTarget s.cfg (s.cfg.base + Reg.status.offset) = .register Reg.status.offset :=
    busTarget_register s.cfg (by decide)
  simp [busValue?, htarget, regAt_offset, Reg.offset_mod_four]

/-- Bit 0 of what STATUS reads as is BUSY (R34). -/
theorem State.readReg_status_getLsbD_zero (s : State) : (s.readReg .status).getLsbD 0 = s.busy := by
  simp [State.readReg, State.busy]

/-! ## Bytes of IN and OUT (R81, R82) -/

/-- `s` with the byte `b` at IN[i]: what the host's byte write does (R81). -/
def State.setInByte (s : State) (i : Nat) (b : Byte) : State := { s with inBuf := s.inBuf.write i b }

theorem State.readIn_setInByte (s : State) (i : Nat) (b : Byte) (j : Nat) :
    (s.setInByte i b).readIn j = if j = i then b else s.readIn j := by
  simp only [State.readIn, State.setInByte, Memory.read?_write]
  split <;> rfl

section
variable {s : State} {addr i : Nat}

theorem busWrite_inByte (htarget : busTarget s.cfg addr = .inByte i) (hcap : i < s.cfg.inCap) (hidle : s.busy = false)
    (b : Byte) : busWrite addr 1 (b.zeroExtend 32) s = .next (s.setInByte i b) := by
  simp [busWrite, htarget, hidle, Nat.not_le.2 hcap, State.setInByte]

theorem busRead_inByte (htarget : busTarget s.cfg addr = .inByte i) (hcap : i < s.cfg.inCap) (hidle : s.busy = false) :
    busRead addr 1 s = .next { s with readData := (s.readIn i).zeroExtend 32 } := by
  simp [busRead, busValue?, htarget, hidle, Nat.not_le.2 hcap, State.drawAfterRead]

theorem busRead_outByte (htarget : busTarget s.cfg addr = .outByte i) (hcap : i < s.cfg.outCap)
    (hidle : s.busy = false) : busRead addr 1 s = .next { s with readData := (s.readOut i).zeroExtend 32 } := by
  simp [busRead, busValue?, htarget, hidle, Nat.not_le.2 hcap, State.drawAfterRead]

end

/-! ## The statements -/

/-- Settles O9: the three kinds of address the statement names are what `Refused` is about. -/
theorem refusedAccessesHaveNoEffect : Obligations.RefusedAccessesHaveNoEffect := by
  intro s addr bytes v rest
  refine ⟨fun haddr => ?_, fun hbelow => ?_⟩
  · have hrefused : Refused s.cfg addr bytes := by
      rcases haddr with ⟨off, hoff, rfl, hform⟩ | ⟨i, hi, rfl, hform⟩ | ⟨i, hi, rfl, hform⟩
      · exact .register (busTarget_register s.cfg hoff) hform
      · exact .inByte (busTarget_inByte s.cfg hi) hform
      · exact .outByte (busTarget_outByte s.cfg hi) hform
    refine ⟨fun hhost => (step_write hhost).trans (busWrite_refused (s := s.afterWriteTaken rest) hrefused v),
      fun hhost => ⟨_, (step_read hhost).trans
        (busRead_of_value (busValue?_refused (s := { s with host := rest }) hrefused)), ?_⟩⟩
    rw [State.drawAfterRead_eq]
  · have houtside := busTarget_below s.cfg hbelow
    exact ⟨fun hhost => (step_write hhost).trans (busWrite_outside (s := s.afterWriteTaken rest) houtside bytes v),
      fun hhost => (step_read hhost).trans (busRead_outside (s := { s with host := rest }) houtside bytes)⟩

/-- Settles O10: the second read is of a state that differs from the first one's in nothing a read depends on. -/
theorem readsHaveNoSideEffect : Obligations.ReadsHaveNoSideEffect := by
  intro s t addr bytes rest hidle hhost hstep
  obtain ⟨hvalue, ht⟩ := busRead_idle (s := { s with host := .read addr bytes :: rest }) hidle
    ((step_read hhost).symm.trans hstep)
  have hagain : busValue? addr bytes { t with host := rest } = some t.readData := by
    rw [ht]
    exact (busValue?_setHost_setReadData addr bytes _ rest _).trans hvalue
  have hthost : t.host = .read addr bytes :: rest := by rw [ht]
  exact ⟨ht, _, (step_read hthost).trans (busRead_of_value hagain), rfl⟩

/-- Settles O11: the write sets one byte of IN, and the read that follows is of the same idle block. -/
theorem writtenInByteReadsBack : Obligations.WrittenInByteReadsBack := by
  intro s i b rest hlegal hcap hidle hhost
  obtain ⟨-, ⟨-, hinCap⟩, -⟩ := hlegal
  have htarget := busTarget_inByte s.cfg (Nat.lt_of_lt_of_le hcap hinCap)
  let t := (s.afterWriteTaken (.read (s.cfg.base + 0x01000000 + i) 1 :: rest)).setInByte i b
  have hwrite : step s = .next t :=
    (step_write hhost).trans (busWrite_inByte (s := s.afterWriteTaken _) htarget hcap hidle b)
  have hread : step t = .next { t with host := rest, readData := (t.readIn i).zeroExtend 32 } :=
    (step_read rfl).trans (busRead_inByte (s := { t with host := rest }) htarget hcap hidle)
  have hin (j : Nat) : t.readIn j = if j = i then b else s.readIn j := State.readIn_setInByte _ i b j
  have hsame : t.readIn i = b := (hin i).trans (if_pos rfl)
  refine ⟨t, _, hwrite, hread, ?_, hsame, fun j hj => (hin j).trans (if_neg hj), fun _ => rfl, fun r => ?_⟩
  · rw [hsame]
  · cases r <;> rfl

/-- Settles O12: the write leaves the state it is taken from, and the read that follows is of the same idle block. -/
theorem outIsReadOnlyForTheHost : Obligations.OutIsReadOnlyForTheHost := by
  intro s i v rest hlegal hcap hidle hhost
  obtain ⟨-, -, ⟨-, houtCap⟩, -⟩ := hlegal
  have htarget := busTarget_outByte s.cfg (Nat.lt_of_lt_of_le hcap houtCap)
  have hwrite := (step_write hhost).trans (busWrite_outByte (s := s.afterWriteTaken _) htarget 1 v)
  have hread := (step_read (s := s.afterWriteTaken (hostRdb s.cfg i :: rest)) rfl).trans
    (busRead_outByte (s := s.afterWriteTaken rest) htarget hcap hidle)
  exact ⟨_, _, hwrite, hread, rfl, rfl⟩

/-- Settles O13: BUSY gates every write inside the windows, and no read of STATUS. -/
theorem busyBlockIgnoresWrites : Obligations.BusyBlockIgnoresWrites := by
  intro s addr bytes v rest hbusy
  refine ⟨fun hinside hhost =>
      (step_write hhost).trans (busWrite_busy (s := s.afterWriteTaken rest) hbusy hinside bytes v),
    fun hhost => ⟨_, (step_read hhost).trans (busRead_of_value (busValue?_status { s with host := rest })), ?_⟩⟩
  exact (State.readReg_status_getLsbD_zero _).trans hbusy

end Sys2Proof.Machine
end

section
/-! PROOF. The decoder and the encoder (spec/30_encoding.md R110 to R116): a word as its five fields, the 24 operations
as one list, and decoding as the inverse of encoding. -/

namespace Sys2Proof

open Sys2Proof.Laws

/-! ## A word and its fields (R110) -/

theorem append_fields (v : Word) : fieldRsv v ++ fieldC v ++ fieldN v ++ fieldUnit v ++ fieldOp v = v := by
  ext i hi
  simp only [fieldRsv, fieldC, fieldN, fieldUnit, fieldOp, BitVec.getElem_append, BitVec.getElem_extractLsb']
  grind

theorem eq_iff_fields {v w : Word} :
    v = w ↔ fieldRsv v = fieldRsv w ∧ fieldC v = fieldC w ∧ fieldN v = fieldN w ∧ fieldUnit v = fieldUnit w ∧
      fieldOp v = fieldOp w := by
  refine ⟨by rintro rfl; simp, fun ⟨hrsv, hc, hn, hunit, hop⟩ => ?_⟩
  rw [← append_fields v, ← append_fields w, hrsv, hc, hn, hunit, hop]

/-- A word whose RSV is 0 is packed from its other fields. -/
theorem packCommand_fields {v : Word} (hrsv : fieldRsv v = 0) :
    packCommand (fieldUnit v) (fieldOp v) (fieldN v) (fieldC v) = v := by
  have happend := append_fields v
  rwa [hrsv] at happend

theorem fieldOp_toNat (v : Word) : (fieldOp v).toNat = v.toNat % 16 := by simp [fieldOp]

theorem fieldUnit_toNat (v : Word) : (fieldUnit v).toNat = v.toNat / 16 % 16 := by
  simp [fieldUnit, Nat.shiftRight_eq_div_pow]

theorem fieldN_toNat (v : Word) : (fieldN v).toNat = v.toNat / 256 % 64 := by
  simp [fieldN, Nat.shiftRight_eq_div_pow]

theorem fieldC_toNat (v : Word) : (fieldC v).toNat = v.toNat / 16384 % 2 := by
  simp [fieldC, Nat.shiftRight_eq_div_pow]

theorem fieldRsv_toNat (v : Word) : (fieldRsv v).toNat = v.toNat / 32768 := by
  have hfit : v.toNat / 32768 < 2 ^ 17 := by omega
  simpa [fieldRsv, Nat.shiftRight_eq_div_pow] using hfit

theorem colourBit_colourOfBit (c : BitVec 1) : colourBit (colourOfBit c) = c := by revert c; decide

theorem colourOfBit_fieldC (v : Word) : colourOfBit (fieldC v) = if v.getLsbD 14 then .black else .white := by
  have hbit : fieldC v = 1#1 ↔ v.getLsbD 14 = true := by simp [BitVec.eq_of_getLsbD_eq_iff, fieldC]
  simp only [colourOfBit, hbit]

/-! ## The operations (R113, R114) -/

/-- The command with its operands N and C, where it uses them, replaced by the given ones. -/
def Instr.withOperands (n : BitVec 6) (c : Colour) : Instr → Instr
  | .bsPeek _ => .bsPeek n
  | .bsRead _ => .bsRead n
  | .bsWrite _ => .bsWrite n
  | .hufLookup _ _ => .hufLookup c n
  | .hufCode _ => .hufCode c
  | i => i

/-- The legal range of N (R114), where the operation uses it. -/
def Instr.legalCounts : Instr → Option (Nat × Nat)
  | .bsPeek _ | .bsRead _ | .bsWrite _ => some (0, 32)
  | .hufLookup _ _ => some (1, 13)
  | _ => none

/-- The 24 operations of R113, one command for each, its operands 0. -/
def operations : List Instr :=
  [.bsRload, .bsPeek 0, .bsRead 0, .bsRalign, .bsEod, .bsWreset, .bsWrite 0, .bsWalign, .ahxEnc, .ahxDec, .a85Enc,
    .a85Dec, .rlEnc, .rlDec, .predPre, .predPost, .lzwEnc, .lzwDec, .faxEnc, .faxDec, .hufLookup .white 0,
    .hufCode .white, .sysNop, .sysSreset]

theorem withOperands_of_mem : ∀ j ∈ operations, j.withOperands 0 .white = j := by decide

theorem withOperands_mem_operations (i : Instr) : i.withOperands 0 .white ∈ operations := by
  cases i <;> simp [operations, Instr.withOperands]

theorem Instr.withOperands_withOperands (n n' : BitVec 6) (c c' : Colour) (i : Instr) :
    (i.withOperands n c).withOperands n' c' = i.withOperands n' c' := by cases i <;> rfl

@[simp] theorem Instr.usesN_withOperands (n : BitVec 6) (c : Colour) (i : Instr) :
    (i.withOperands n c).usesN = i.usesN := by cases i <;> rfl

@[simp] theorem Instr.usesC_withOperands (n : BitVec 6) (c : Colour) (i : Instr) :
    (i.withOperands n c).usesC = i.usesC := by cases i <;> rfl

theorem Instr.legalCounts_eq_none_iff (i : Instr) : i.legalCounts = none ↔ i.usesN = false := by
  cases i <;> simp [legalCounts, usesN]

theorem Instr.wellFormed_withOperands_iff (j : Instr) (n : BitVec 6) (c : Colour) :
    (j.withOperands n c).WellFormed ↔ ∀ r ∈ j.legalCounts, r.1 ≤ n.toNat ∧ n.toNat ≤ r.2 := by
  cases j <;> simp [legalCounts, withOperands, WellFormed, wellFormed]

/-- The operation map selects the operation by UNIT and OP alone; N and C are its operands. -/
theorem operationOf_eq_find? (u o : BitVec 4) (n : BitVec 6) (c : Colour) :
    operationOf u o n c =
      (operations.find? fun j => fieldUnit (encode j) = u ∧ fieldOp (encode j) = o).map (Instr.withOperands n c) := by
  have hpass : operationOf u o n c = (operationOf u o 0 .white).map (Instr.withOperands n c) := by
    unfold operationOf
    split <;> rfl
  have hfind : ∀ u o, operationOf u o 0 .white =
      operations.find? fun j => fieldUnit (encode j) = u ∧ fieldOp (encode j) = o := by decide +kernel
  rw [hpass, hfind]

theorem operationOf_cases {u o : BitVec 4} {n : BitVec 6} {c : Colour} {i : Instr} (h : operationOf u o n c = some i) :
    ∃ j, fieldUnit (encode j) = u ∧ fieldOp (encode j) = o ∧ j.withOperands n c = i := by
  rw [operationOf_eq_find?, Option.map_eq_some_iff] at h
  obtain ⟨j, hfind, hij⟩ := h
  have hkey := List.find?_some hfind
  obtain ⟨hunit, hop⟩ := of_decide_eq_true hkey
  exact ⟨j, hunit, hop, hij⟩

/-! ## The encoder (R113) -/

/-- The word of an operation with given operands holds them where it uses them, and 0 elsewhere. -/
theorem encode_withOperands (i : Instr) (n : BitVec 6) (c : Colour) :
    encode (i.withOperands n c) = packCommand (fieldUnit (encode i)) (fieldOp (encode i))
      (if i.usesN = true then n else 0) (if i.usesC = true then colourBit c else 0) := by
  cases i <;> simp only [encode, fieldUnit_packCommand, fieldOp_packCommand] <;> rfl

/-- Every command is its operation with the operands its own word carries. -/
theorem withOperands_encode (i : Instr) :
    i.withOperands (fieldN (encode i)) (colourOfBit (fieldC (encode i))) = i := by
  cases i <;>
    simp only [Instr.withOperands, encode, fieldN_packCommand, fieldC_packCommand, colourOfBit_colourBit]

theorem encode_eq_packCommand (i : Instr) :
    encode i = packCommand (fieldUnit (encode i)) (fieldOp (encode i))
      (if i.usesN = true then fieldN (encode i) else 0) (if i.usesC = true then fieldC (encode i) else 0) := by
  have h := encode_withOperands i (fieldN (encode i)) (colourOfBit (fieldC (encode i)))
  rwa [withOperands_encode, colourBit_colourOfBit] at h

theorem fieldN_encode_of_not_usesN {i : Instr} (h : i.usesN = false) : fieldN (encode i) = 0 := by
  rw [encode_eq_packCommand, fieldN_packCommand, h]
  rfl

theorem fieldC_encode_of_not_usesC {i : Instr} (h : i.usesC = false) : fieldC (encode i) = 0 := by
  rw [encode_eq_packCommand, fieldC_packCommand, h]
  rfl

/-- `EncodeFields` of every command. -/
theorem encodeFields (i : Instr) : EncodeFields.Statement i := by
  cases i with
  | hufLookup c n => exact EncodeFields.hufLookup c n
  | hufCode c => exact EncodeFields.hufCode c
  | _ => exact encodeFields_of_pack rfl rfl

/-! ## The decoder (R115) -/

/-- The decoder reads a command exactly if the operation map selects it and none of the four checks fails. -/
theorem decode_eq_ok_iff_checks {v : Word} {i : Instr} :
    decode v = .ok i ↔
      operationOf (fieldUnit v) (fieldOp v) (fieldN v) (colourOfBit (fieldC v)) = some i ∧ fieldRsv v = 0 ∧
        (i.usesN = false → fieldN v = 0) ∧ (i.usesC = false → fieldC v = 0) ∧ i.WellFormed := by
  unfold decode
  cases operationOf (fieldUnit v) (fieldOp v) (fieldN v) (colourOfBit (fieldC v)) with
  | none => simp
  | some j =>
    dsimp only
    split_ifs <;> grind

/-- A word decodes to the well-formed command it is the encoding of, and to no other (R110 to R116). -/
theorem decode_eq_ok_iff {v : Word} {i : Instr} : decode v = .ok i ↔ i.WellFormed ∧ encode i = v := by
  rw [decode_eq_ok_iff_checks]
  constructor
  · rintro ⟨hmap, hrsv, hn, hc, hwf⟩
    obtain ⟨j, hunit, hop, rfl⟩ := operationOf_cases hmap
    rw [Instr.usesN_withOperands] at hn
    rw [Instr.usesC_withOperands] at hc
    have hN : (if j.usesN = true then fieldN v else 0) = fieldN v := by grind
    have hC : (if j.usesC = true then fieldC v else 0) = fieldC v := by grind
    refine ⟨hwf, ?_⟩
    rw [encode_withOperands, colourBit_colourOfBit, hunit, hop, hN, hC, packCommand_fields hrsv]
  · rintro ⟨hwf, rfl⟩
    obtain ⟨hmap, hrsv⟩ := encodeFields i
    exact ⟨hmap, hrsv, fieldN_encode_of_not_usesN, fieldC_encode_of_not_usesC, hwf⟩

end Sys2Proof
end

section
/-! PROOF. Command words against the tables of the spec (spec/30_encoding.md R113 to R115): the match and mask words of
spec/opcode_table.json, the checks of a word written to CMD, and the statements about them. -/

namespace Sys2Proof.Machine

open Sys2Proof.Laws

/-! ## The opcode table (R113, R114) -/

/-- The masks of spec/opcode_table.json: every bit but those of the operands an operation uses. -/
def operandMask (usesN usesC : Bool) : Word :=
  match usesN, usesC with
  | false, false => 0xFFFFFFFF
  | true, false => 0xFFFFC0FF
  | true, true => 0xFFFF80FF
  | false, true => 0xFFFFBFFF

/-- The row of spec/opcode_table.json for an operation. -/
def opcodeRow (j : Instr) : Word × Word × (BitVec 6 → Colour → Instr) :=
  (encode j, operandMask j.usesN j.usesC, fun n c => j.withOperands n c)

theorem opcodeTable_eq_map : opcodeTable = operations.map opcodeRow := by rfl

theorem fields_operandMask : ∀ usesN usesC : Bool,
    let m := operandMask usesN usesC
    fieldRsv m = BitVec.allOnes 17 ∧ fieldC m = (if usesC then 0 else BitVec.allOnes 1) ∧
      fieldN m = (if usesN then 0 else BitVec.allOnes 6) ∧ fieldUnit m = BitVec.allOnes 4 ∧
      fieldOp m = BitVec.allOnes 4 := by decide

/-- Under a mask a word keeps its fields, but for the operands the operation uses. -/
theorem fields_and_operandMask (v : Word) (usesN usesC : Bool) :
    let w := v &&& operandMask usesN usesC
    fieldRsv w = fieldRsv v ∧ fieldC w = (if usesC then 0 else fieldC v) ∧
      fieldN w = (if usesN then 0 else fieldN v) ∧ fieldUnit w = fieldUnit v ∧ fieldOp w = fieldOp v := by
  obtain ⟨hrsv, hc, hn, hunit, hop⟩ := fields_operandMask usesN usesC
  unfold fieldRsv fieldC fieldN fieldUnit fieldOp at *
  simp only [BitVec.extractLsb'_and, hrsv, hc, hn, hunit, hop, BitVec.and_allOnes, true_and, and_true]
  constructor
  · cases usesC
    · exact BitVec.and_allOnes
    · exact BitVec.and_zero
  · cases usesN
    · exact BitVec.and_allOnes
    · exact BitVec.and_zero

/-- A word matches an operation's row exactly if it encodes the operation with the operands the word carries. -/
theorem and_operandMask_eq_iff {j : Instr} (hj : j ∈ operations) (v : Word) :
    v &&& operandMask j.usesN j.usesC = encode j ↔
      encode (j.withOperands (fieldN v) (colourOfBit (fieldC v))) = v := by
  have hword := encode_withOperands j 0 .white
  rw [withOperands_of_mem j hj] at hword
  obtain ⟨hrsv, hc, hn, hunit, hop⟩ := fields_and_operandMask v j.usesN j.usesC
  have hN : fieldN (encode j) = 0 := by rw [hword, fieldN_packCommand, ite_self]
  have hC : fieldC (encode j) = 0 := by rw [hword, fieldC_packCommand]; exact ite_self _
  have hR : fieldRsv (encode j) = 0 := (encodeFields j).2
  rw [eq_iff_fields, eq_iff_fields, hrsv, hc, hn, hunit, hop, hN, hC, hR, encode_withOperands]
  simp only [fieldRsv_packCommand, fieldC_packCommand, fieldN_packCommand, fieldUnit_packCommand, fieldOp_packCommand,
    colourBit_colourOfBit]
  grind

/-- A command's word matches the row of its operation, and no other word that matches a row gives the command. -/
theorem encode_eq_iff_row {v : Word} {i : Instr} :
    encode i = v ↔
      ∃ row ∈ opcodeTable, v &&& row.2.1 = row.1 ∧ i = row.2.2 (fieldN v) (colourOfBit (fieldC v)) := by
  rw [opcodeTable_eq_map]
  constructor
  · rintro rfl
    have hj := withOperands_mem_operations i
    have hi : i = (i.withOperands 0 .white).withOperands (fieldN (encode i)) (colourOfBit (fieldC (encode i))) := by
      rw [Instr.withOperands_withOperands, withOperands_encode]
    exact ⟨_, List.mem_map_of_mem hj, (and_operandMask_eq_iff hj _).2 (congrArg encode hi.symm), hi⟩
  · rintro ⟨row, hrow, hmatch, rfl⟩
    obtain ⟨j, hj, rfl⟩ := List.mem_map.1 hrow
    exact (and_operandMask_eq_iff hj v).1 hmatch

/-! ## The checks of a command word, in the order of R115 -/

/-- The row of `operationMap` for an operation. -/
def operationRow (j : Instr) : OperationRow :=
  ⟨(fieldUnit (encode j)).toNat, (fieldOp (encode j)).toNat, j.legalCounts, j.usesC⟩

theorem operationMap_eq_map : operationMap = operations.map operationRow := by decide

/-- `operationMap` holds a row for a word exactly if the decoder's map selects an operation, and it is that one's. -/
theorem operationMap_find? (v : Word) :
    (operationMap.find? fun r => r.unit = v.toNat / 16 % 16 ∧ r.op = v.toNat % 16) =
      (operations.find? fun j => fieldUnit (encode j) = fieldUnit v ∧ fieldOp (encode j) = fieldOp v).map
        operationRow := by
  rw [operationMap_eq_map, List.find?_map]
  simp only [Function.comp_def, operationRow, ← fieldUnit_toNat, ← fieldOp_toNat, BitVec.toNat_inj]

/-- The cause with which the decoder's answer rejects a word, if it does. -/
def rejectionCause : Except DecodeError Instr → Option Cause
  | .error e => some (causeOfDecode e)
  | .ok _ => none

theorem rejectionCause_error (e : DecodeError) : rejectionCause (.error e) = some (causeOfDecode e) := rfl

theorem rejectionCause_ok (i : Instr) : rejectionCause (.ok i) = none := rfl

/-- The decoder makes the checks of R115 in their order: once the two maps select the same operation, the conditions of
the remaining checks agree one by one. -/
theorem commandCheck_eq_rejectionCause (v : Word) : commandCheck v = rejectionCause (decode v) := by
  unfold commandCheck decode
  rw [operationMap_find?, operationOf_eq_find?]
  cases operations.find? fun j => fieldUnit (encode j) = fieldUnit v ∧ fieldOp (encode j) = fieldOp v with
  | none => rfl
  | some j =>
    simp only [Option.map_some, operationRow, Instr.usesN_withOperands, Instr.usesC_withOperands, ← fieldN_toNat,
      ← fieldC_toNat, ← fieldRsv_toNat, Instr.legalCounts_eq_none_iff, BitVec.toNat_ne, BitVec.toNat_ofNat,
      Nat.zero_mod]
    simp only [apply_ite rejectionCause, rejectionCause_error, rejectionCause_ok, causeOfDecode, ← Bool.not_eq_true,
      Instr.wellFormed_withOperands_iff]
    cases j.legalCounts with
    | none => simp
    | some r => simp only [Option.mem_some_iff, forall_eq', ite_not]

theorem runCommand_of_error {v : Word} {e : DecodeError} (h : decode v = .error e) (s : State) :
    runCommand v s = .next (s.raise (causeOfDecode e) v.toNat) := by
  simp [runCommand, h]

/-! ## The statements -/

/-- Settles O1: a well-formed command is what its own encoding decodes to. -/
theorem encodedCommandDecodes : Obligations.EncodedCommandDecodes :=
  fun _ hwf => decode_eq_ok_iff.2 ⟨hwf, rfl⟩

/-- Settles O2: the other direction of `decode_eq_ok_iff`. -/
theorem decodedWordIsTheEncoding : Obligations.DecodedWordIsTheEncoding :=
  fun _ _ => decode_eq_ok_iff.1

/-- Settles O3: decoding is the inverse of encoding, and a word encodes a command exactly if it matches a row. -/
theorem decodeMatchesOpcodeTable : Obligations.DecodeMatchesOpcodeTable := by
  intro v i
  rw [decode_eq_ok_iff, encode_eq_iff_row, colourOfBit_fieldC]
  rfl

/-- Settles O5: the write to CMD runs the word, which the decoder rejects with the cause of the first failed check. -/
theorem commandWordCheckedInOrder : Obligations.CommandWordCheckedInOrder := by
  intro s v rest hidle hhost
  have hstep := step_writeCmd hidle hhost
  rw [commandCheck_eq_rejectionCause]
  cases hv : decode v with
  | error e => exact ⟨_, hstep.trans (runCommand_of_error hv _), ⟨statusError_toNat _, by simp⟩, rfl⟩
  | ok i => exact ⟨i, rfl, hstep.trans (runCommand_of_decode hv _)⟩

/-- Settles O4: five of the words are encodings of well-formed commands; the other three the decoder is run on. -/
theorem specWordsDecode : Obligations.SpecWordsDecode :=
  ⟨encodedCommandDecodes (.bsRead 9) rfl, encodedCommandDecodes (.hufLookup .black 7) rfl,
    encodedCommandDecodes .lzwEnc rfl, encodedCommandDecodes .sysSreset rfl,
    encodedCommandDecodes (.hufCode .black) rfl, rfl, rfl, rfl⟩

end Sys2Proof.Machine
end

section
/-! PROOF. The bit reader and the bit writer (spec/40_bitstream.md R150 to R162): the bits each command reads or writes,
how the cursors move, and what stays; and what a codec job does to the cursors (R172). -/

namespace Sys2Proof.Machine

open Sys2Proof.Laws

/-! ## How a bitstream command ends -/

/-- The word of a bitstream command with a bit count (R113). -/
theorem packCommand_count_toNat (o : BitVec 4) (n : BitVec 6) :
    (packCommand 0 o n 0).toNat = n.toNat * 2 ^ 8 + o.toNat := by
  have hword : (packCommand 0 o n 0).toNat = n.toNat <<< 8 ||| o.toNat := by
    simp only [packCommand, BitVec.toNat_append]
    simp [← Nat.shiftLeft_add]
  have ho : o.toNat < 2 ^ 8 := by omega
  rw [hword, ← Nat.shiftLeft_add_eq_or_of_lt ho, Nat.shiftLeft_eq]

theorem succeeded_finish (s : State) : Succeeded s.finish := ⟨rfl, rfl⟩

theorem failed_abort (s : State) (c : Cause) (pos : Word) : Failed (s.abort c pos.toNat) c pos.toNat :=
  ⟨statusError_toNat c, by simp⟩

/-- Disowning the tail keeps an output all of which is defined (R86), so `finish` and `abort` keep it. -/
theorem outputKept_disownTail {s u : State} (hs : OutDefined s) (hlen : u.outLen = s.outLen)
    (hbuf : u.outBuf = s.outBuf) : OutputKept s u.disownTail := by
  refine ⟨hlen, fun i hi => ?_⟩
  obtain ⟨v, hv⟩ := Option.isSome_iff_exists.1 (hs i hi)
  simp [State.readOut, Memory.read?_below, hlen, hbuf, hi, hv]

theorem OutputKept.streamBit_eq {s t : State} (h : OutputKept s t) {q : Nat} (hq : q < 8 * s.outLen.toNat) :
    streamBit t.readOut q = streamBit s.readOut q := by
  obtain ⟨-, hbytes⟩ := h
  rw [streamBit, hbytes (q / 8) (by omega), streamBit]

/-- STATUS, ERR_POS, RESULT, the bitstream registers and OUT are no settings. -/
theorem settingsKept_update {s : State} {status errPos outLen result rpos rsize wpos : Word} {outBuf : Memory}
    {outDraws : Nat} :
    SettingsKept s
      { s with
        status := status, errPos := errPos, outLen := outLen, result := result, bsRpos := rpos, bsRsize := rsize,
        bsWpos := wpos, outBuf := outBuf, outDraws := outDraws } := by
  constructor <;> intros <;> rfl

/-! ## The reader (R150 to R156) -/

/-- Bit `k` of the number a bit string stands for, counted from the string's end. -/
theorem natOfBits_testBit {l : List Bool} {i : Nat} (hi : i < l.length) :
    (natOfBits l).testBit (l.length - 1 - i) = l[i] := by
  have hget : (lowBits (natOfBits l) l.length)[i]? = l[i]? := by rw [lowBits_natOfBits]
  simpa [lowBits, hi] using hget

/-- The N bits of a read as a number: the bit read first is the most significant (R153, R154). -/
theorem State.rbits_testBit (s : State) (p n k : Nat) :
    (s.rbits p n).testBit k = (decide (k < n) && readerBit s (p + (n - 1 - k))) := by
  have hlen : ((List.range n).map fun i => s.rbit (p + i)).length = n := by simp
  by_cases hk : k < n
  · have hbit := natOfBits_testBit (l := (List.range n).map fun i => s.rbit (p + i)) (i := n - 1 - k) (by omega)
    have hback : n - 1 - (n - 1 - k) = k := by omega
    simp only [List.length_map, List.length_range, hback, List.getElem_map, List.getElem_range] at hbit
    rw [State.rbits, hbit, decide_eq_true hk]
    rfl
  · have hlt : s.rbits p n < 2 ^ k := by
      have hbound := natOfBits_lt ((List.range n).map fun i => s.rbit (p + i))
      rw [hlen] at hbound
      exact Nat.lt_of_lt_of_le hbound (Nat.pow_le_pow_right (by omega) (Nat.not_lt.1 hk))
    simp [hk, Nat.testBit_lt_two_pow hlt]

/-- RESULT after a read of at most 32 bits holds them all. -/
theorem State.rbits_getLsbD (s : State) (p : Nat) {n : Nat} (hn : n ≤ 32) (k : Nat) :
    (BitVec.ofNat 32 (s.rbits p n)).getLsbD k = (decide (k < n) && readerBit s (p + (n - 1 - k))) := by
  rw [BitVec.getLsbD_ofNat, State.rbits_testBit]
  by_cases hk : k < n
  · rw [decide_eq_true (Nat.lt_of_lt_of_le hk hn), Bool.true_and]
  · rw [decide_eq_false hk, Bool.false_and, Bool.and_false]

/-- Settles O14, by the range check of IN_LEN. -/
theorem rloadBindsReader : Obligations.RloadBindsReader := by
  refine ⟨rfl, fun s hs => ⟨fun hin => ?_, fun hin => ?_⟩⟩
  · exact ⟨_, if_neg (Nat.not_lt.2 hin), succeeded_finish _, rfl, rfl, rfl, rfl, outputKept_disownTail hs rfl rfl,
      settingsKept_update⟩
  · exact ⟨_, if_pos hin, failed_abort _ _ _, ⟨rfl, rfl, rfl⟩, rfl, outputKept_disownTail hs rfl rfl,
      settingsKept_update⟩

/-- Settles O15: RESULT holds `rbits`, and the command writes nothing else. -/
theorem peekReadsBits : Obligations.PeekReadsBits :=
  ⟨packCommand_count_toNat 1, fun s _ hn hs =>
    ⟨_, rfl, succeeded_finish _, s.rbits_getLsbD _ hn, ⟨rfl, rfl, rfl⟩, outputKept_disownTail hs rfl rfl,
      settingsKept_update⟩⟩

/-- Settles O16, by whether N bits are left. -/
theorem readConsumesBits : Obligations.ReadConsumesBits := by
  refine ⟨packCommand_count_toNat 2, fun s n hn hs ⟨hcfg, hsize, _⟩ => ⟨fun hleft => ?_, fun hshort => ?_⟩⟩
  · have hin := Params.inCap_le_of_legal hcfg
    exact ⟨_, if_neg (Nat.not_lt.2 hleft), succeeded_finish _, s.rbits_getLsbD _ hn,
      toNat_ofNat_of_le (by omega), rfl, rfl, outputKept_disownTail hs rfl rfl, settingsKept_update⟩
  · exact ⟨_, if_pos hshort, failed_abort _ _ _, rfl, ⟨rfl, rfl, rfl⟩, outputKept_disownTail hs rfl rfl,
      settingsKept_update⟩

/-- Settles O17: RESULT is written with the comparison, and nothing else is. -/
theorem eodTellsEndOfData : Obligations.EodTellsEndOfData := by
  refine ⟨rfl, fun s hs => ⟨_, rfl, succeeded_finish _, ?_, ⟨rfl, rfl, rfl⟩, outputKept_disownTail hs rfl rfl,
    settingsKept_update⟩⟩
  exact apply_ite BitVec.toNat _ _ _

/-- Settles O18: `8 × ceil_div(BS_RPOS, 8)` is the next byte boundary, and the data end at one. -/
theorem ralignMovesToByteBoundary : Obligations.RalignMovesToByteBoundary := by
  refine ⟨rfl, fun s hs ⟨hcfg, hsize, hpos⟩ => ?_⟩
  have hin := Params.inCap_le_of_legal hcfg
  have hend := ceilDiv_le_self_of_le_mul hpos
  have hnew := toNat_ofNat_of_le (n := 8 * ceilDiv s.bsRpos.toNat 8) (by omega)
  refine ⟨_, rfl, succeeded_finish _, ?_, ?_, ?_, ?_, rfl, rfl, rfl, outputKept_disownTail hs rfl rfl,
    settingsKept_update⟩ <;> rw [State.finish_bsRpos, hnew]
  · omega
  · unfold ceilDiv; omega
  · unfold ceilDiv; omega
  · omega

/-! ## The writer (R160 to R162) -/

/-- The writer's step for one bit sets that bit; beginning a byte clears its others (R161). -/
theorem State.streamBit_putOutBit (s : State) (p : Nat) (b : Bool) (q : Nat) :
    streamBit (s.putOutBit p b).readOut q =
      if q = p then b else if q / 8 = p / 8 ∧ p % 8 = 0 then false else streamBit s.readOut q := by
  by_cases hbyte : q / 8 = p / 8
  · have hread : (s.putOutBit p b).readOut (q / 8) =
        setStreamBit (if p % 8 = 0 then 0#8 else s.readOut (p / 8)) (p % 8) b := by
      simp [State.putOutBit, State.readOut, hbyte]
    rw [streamBit, hread, setStreamBit_getLsbD _ _ (by omega) (by omega)]
    have hsame : q % 8 = p % 8 ↔ q = p := by omega
    simp only [hsame, hbyte, true_and, streamBit]
    split_ifs <;> simp
  · have hne : q ≠ p := by rintro rfl; exact hbyte rfl
    have hread : (s.putOutBit p b).readOut (q / 8) = s.readOut (q / 8) := by
      simp [State.putOutBit, State.readOut, Memory.read?_write_other _ _ _ _ hbyte]
    simp [streamBit, hread, hne, hbyte]

/-- The writer's loop leaves the bits before its position. -/
theorem State.streamBit_putOutBits_before (s : State) {p q : Nat} (bs : List Bool) (hq : q < p) :
    streamBit (s.putOutBits p bs).readOut q = streamBit s.readOut q := by
  induction bs generalizing s p with
  | nil => rfl
  | cons b bs ih =>
    have hstep := s.streamBit_putOutBit p b q
    rw [if_neg (by omega), if_neg (by omega)] at hstep
    exact (ih (s.putOutBit p b) (by omega)).trans hstep

/-- The writer's loop sets the bits from its position on. -/
theorem State.streamBit_putOutBits_new (s : State) (p : Nat) (bs : List Bool) {k : Nat} (hk : k < bs.length) :
    streamBit (s.putOutBits p bs).readOut (p + k) = bs[k] := by
  induction bs generalizing s p k with
  | nil => exact absurd hk (Nat.not_lt_zero k)
  | cons b bs ih =>
    cases k with
    | zero =>
      have hkept := (s.putOutBit p b).streamBit_putOutBits_before bs (Nat.lt_succ_self p)
      exact hkept.trans ((s.streamBit_putOutBit p b p).trans (if_pos rfl))
    | succ k =>
      have hrest := ih (s.putOutBit p b) (p + 1) (Nat.lt_of_succ_lt_succ hk)
      rwa [Nat.add_right_comm] at hrest

/-- The bytes of OUT that hold its first `p` bits are defined, and the bits of the last one beyond them are 0. This is
what the BS statements suppose of OUT: `Memory.HoldsStream` without the canonical form. -/
structure State.StreamOf (s : State) (p : Nat) : Prop where
  defined : ∀ i < ceilDiv p 8, (s.outBuf.read? i).isSome = true
  padded : ∀ q, p ≤ q → q < 8 * ceilDiv p 8 → streamBit s.readOut q = false

/-- A sound writer's OUT holds BS_WPOS bits. -/
theorem State.streamOf_bsWpos {s : State} (hlen : s.outLen.toNat = ceilDiv s.bsWpos.toNat 8) (hs : OutDefined s)
    (hpad : WriterPadded s) : s.StreamOf s.bsWpos.toNat where
  defined i hi := hs i (hlen ▸ hi)
  padded q hle hlt := by
    have hbyte : q / 8 = s.bsWpos.toNat / 8 := by unfold ceilDiv at hlt; omega
    rw [streamBit, hbyte]
    unfold ceilDiv at hlt
    exact hpad (q % 8) (by omega) (by omega) (by omega)

/-- The writer's step for one bit extends the stream by it. -/
theorem State.StreamOf.putOutBit {s : State} {p : Nat} (h : s.StreamOf p) (b : Bool) :
    (s.putOutBit p b).StreamOf (p + 1) where
  defined i hi := by
    rcases lt_ceilDiv_succ hi with rfl | hold
    · simp [State.putOutBit]
    · simp only [State.putOutBit, Memory.read?_write]
      split
      · rfl
      · exact h.defined i hold
  padded q hle hlt := by
    have hbyte : q / 8 = p / 8 := by unfold ceilDiv at hlt; omega
    rw [State.streamBit_putOutBit, if_neg (by omega)]
    split
    · rfl
    · next hbegun => exact h.padded q (by omega) (by unfold ceilDiv; omega)

/-- The writer's loop extends the stream by its bits. -/
theorem State.StreamOf.putOutBits {s : State} {p : Nat} (h : s.StreamOf p) (bs : List Bool) :
    (s.putOutBits p bs).StreamOf (p + bs.length) := by
  induction bs generalizing s p with
  | nil => exact h
  | cons b bs ih =>
    have hrest := ih (h.putOutBit b)
    rwa [Nat.add_right_comm] at hrest

@[simp] theorem State.argBits_length (s : State) (n : Nat) : (s.argBits n).length = n := lowBits_length _ n

/-- The bits BS.WRITE appends are the low ones of ARG, most significant first (R161). -/
theorem State.argBits_getElem (s : State) (n k : Nat) (hk : k < (s.argBits n).length) :
    (s.argBits n)[k] = s.arg.getLsbD (n - 1 - k) := by
  simp [State.argBits, lowBits, BitVec.testBit_toNat]

/-- The state BS.WRITE reaches with its bits appended, before it finishes (R161). -/
def State.written (s : State) (n : Nat) : State :=
  { s.issue.putOutBits s.bsWpos.toNat (s.argBits n) with
    bsWpos := BitVec.ofNat 32 (s.bsWpos.toNat + n)
    outLen := BitVec.ofNat 32 (ceilDiv (s.bsWpos.toNat + n) 8) }

theorem exec_bsWrite_of_fit {s : State} {n : BitVec 6} (h : ceilDiv (s.bsWpos.toNat + n.toNat) 8 ≤ s.cfg.outCap) :
    exec (.bsWrite n) s = .next (s.written n.toNat).finish := if_neg (Nat.not_lt.2 h)

/-- BS.WRITE sets no setting. -/
theorem settingsKept_written (s : State) (n : Nat) : SettingsKept s (s.written n).finish := by
  rw [State.written, State.putOutBits_eq]
  exact settingsKept_update

/-- Settles O19: both registers are written 0, and OUT's bytes are left to `finish`. -/
theorem wresetEmptiesWriter : Obligations.WresetEmptiesWriter :=
  ⟨rfl, fun _ => ⟨_, rfl, succeeded_finish _, rfl, rfl, rfl, rfl, rfl, settingsKept_update⟩⟩

/-- Settles O20: if the bits fit, OUT then holds the longer stream, which `finish` keeps; if not, `abort` keeps all. -/
theorem writeAppendsBits : Obligations.WriteAppendsBits := by
  refine ⟨packCommand_count_toNat 6, fun s n _ ⟨hcfg, _, hlen⟩ hs hpad => ⟨fun hfit => ?_, fun hover => ?_⟩⟩
  · have hcap := Params.outCap_le_of_legal hcfg
    have hwpos := toNat_ofNat_of_le (n := s.bsWpos.toNat + n.toNat) (by unfold ceilDiv at hfit; omega)
    have hout : (s.written n.toNat).outLen.toNat = ceilDiv (s.bsWpos.toNat + n.toNat) 8 :=
      toNat_ofNat_of_le (by omega)
    have hstream := (State.streamOf_bsWpos (s := s.issue) hlen hs hpad).putOutBits (s.argBits n.toNat)
    rw [State.argBits_length] at hstream
    have hkept : OutputKept (s.written n.toNat) (s.written n.toNat).finish :=
      outputKept_disownTail (fun i hi => hstream.defined i (hout ▸ hi)) rfl rfl
    have hbits : ∀ q < 8 * ceilDiv (s.bsWpos.toNat + n.toNat) 8,
        streamBit (s.written n.toNat).finish.readOut q =
          streamBit (s.issue.putOutBits s.bsWpos.toNat (s.argBits n.toNat)).readOut q :=
      fun q hq => hkept.streamBit_eq (by rwa [hout])
    refine ⟨_, exec_bsWrite_of_fit hfit, succeeded_finish _, hwpos, hout, fun p hp => ?_, fun k hk => ?_,
      fun p hle hlt => ?_, State.putOutBits_bsRpos _ _ _, State.putOutBits_bsRsize _ _ _,
      State.putOutBits_result _ _ _, settingsKept_written s _⟩
    · rw [hbits p (by unfold ceilDiv; omega)]
      exact s.issue.streamBit_putOutBits_before _ hp
    · rw [hbits _ (by unfold ceilDiv; omega), State.streamBit_putOutBits_new _ _ _ (by simpa using hk)]
      exact s.argBits_getElem ..
    · have hlt : p < 8 * ceilDiv (s.bsWpos.toNat + n.toNat) 8 := by rwa [← hout]
      rw [hbits p hlt]
      exact hstream.padded p hle hlt
  · exact ⟨_, if_pos hover, failed_abort _ _ _, outputKept_disownTail hs rfl rfl, ⟨rfl, rfl, rfl⟩, rfl,
      settingsKept_update⟩

/-- Settles O21: OUT stays, and the bits up to the boundary are the zero bits of its last byte. -/
theorem walignPadsWithZeros : Obligations.WalignPadsWithZeros := by
  refine ⟨rfl, fun s ⟨hcfg, hcap, hlen⟩ hs hpad => ?_⟩
  have hout := Params.outCap_le_of_legal hcfg
  have hwpos := toNat_ofNat_of_le (n := 8 * ceilDiv s.bsWpos.toNat 8) (by omega)
  have hkept : OutputKept s (State.finish { s.issue with bsWpos := BitVec.ofNat 32 (8 * ceilDiv s.bsWpos.toNat 8) }) :=
    outputKept_disownTail hs rfl rfl
  refine ⟨_, rfl, succeeded_finish _, hwpos, by rw [State.finish_bsWpos, hwpos, ← hlen]; rfl, hkept,
    fun p hle hlt => ?_, rfl, rfl, rfl, settingsKept_update⟩
  rw [State.finish_bsWpos, hwpos] at hlt
  rw [hkept.streamBit_eq (by rwa [hlen])]
  exact (State.streamOf_bsWpos hlen hs hpad).padded p hle hlt

/-! ## Codec jobs (R172) -/

/-- Settles O24: the end of a codec job sets the cursors, and a rejected word only raises. -/
theorem codecSetsBitstreamRegisters : Obligations.CodecSetsBitstreamRegisters := by
  refine ⟨fun i s t hi hs h => ?_, fun s t v c hv h => ?_⟩
  · obtain ⟨hexec, hleaves⟩ := exec_codec_leaves hi hs rfl
    cases hexec.symm.trans h
    exact ⟨hleaves.rpos, hleaves.rsize, by rw [hleaves.wpos, hleaves.outLen]⟩
  · rw [commandCheck_eq_rejectionCause] at hv
    cases hd : decode v with
    | ok i => rw [hd] at hv; cases hv
    | error e =>
      cases (runCommand_of_error hd s).symm.trans h
      exact ⟨rfl, rfl, rfl⟩

end Sys2Proof.Machine
end

section
/-! PROOF. What the statements about one codec unit rest on: the codec frame of R11, R501 and R505 for a job whose result is
known and whose output fits OUT. -/

namespace Sys2Proof.Machine

theorem codecSucceeds_of_emits {i : Instr} {s : State} {out : List Byte} (hi : isCodec i = true) (hs : CodecReady s)
    (hjob : codecEmits i s = ⟨out, .success⟩) (hfit : out.length ≤ s.cfg.outCap) : CodecSucceeds i s out := by
  have h := codecReportsItsJob i s hi hs (by rwa [hjob])
  rwa [hjob] at h

/-- An error that lies in the input is reported at its place: the 32 bits of ERR_POS do not cut it (log 16). -/
theorem codecFails_of_emits {i : Instr} {s : State} {c : Cause} {pos : Nat} {out : List Byte} (hi : isCodec i = true)
    (hs : CodecReady s) (hjob : codecEmits i s = ⟨out, .error c pos⟩) (hfit : out.length ≤ s.cfg.outCap)
    (hpos : pos ≤ s.inp.length) : CodecFails i s c pos out := by
  have h := codecReportsItsJob i s hi hs (by rwa [hjob])
  have hlt : pos < 2 ^ 32 := Nat.lt_of_le_of_lt (State.inp_length s ▸ hpos) s.inLen.isLt
  simpa only [hjob, Nat.mod_eq_of_lt hlt] using h

/-- The fields of STATUS after an error (R34, R501). -/
theorem Failed.report {t : State} {c : Cause} {pos : Nat} (h : Failed t c pos) :
    t.error = true ∧ t.errCode = c.code ∧ t.errKind = c.kind.code := by
  have hstatus : t.status = statusError c := BitVec.eq_of_toNat_eq (h.1.trans (statusError_toNat c).symm)
  rw [State.error, State.errCode, State.errKind, hstatus]
  cases c <;> decide

end Sys2Proof.Machine
end

section
/-! PROOF. ascii_hex_codec (spec/41_radix.md R190 to R193): hex digits, what the scan does with each kind of character and
with a whole stretch of digits and whitespace, and the statements about AHX.ENC and AHX.DEC. -/

namespace Sys2Proof.Machine

/-! ## Hex text (R191) -/

theorem hexChar_eq_hexAlphabet : ∀ d < 16, hexChar d = hexAlphabet.getD d 0 := by decide

theorem hexPair_eq_hexAlphabet (b : Byte) :
    hexPair b = [hexAlphabet.getD (b.toNat / 16) 0, hexAlphabet.getD (b.toNat % 16) 0] := by
  rw [hexPair, hexChar_eq_hexAlphabet _ (by omega), hexChar_eq_hexAlphabet _ (by omega)]

theorem hexText_eq_flatMap_hexPair (bs : List Byte) : hexText bs = bs.flatMap hexPair := by
  rw [hexText]
  exact List.flatMap_congr fun b _ => (hexPair_eq_hexAlphabet b).symm

theorem hexText_length (bs : List Byte) : (hexText bs).length = 2 * bs.length := by
  simp [hexText, Nat.mul_comm]

/-! ## What the scan does with a character (R193) -/

/-- No hex digit is whitespace. -/
theorem hexValue?_of_isWhitespace {ch : Byte} (h : isWhitespace ch = true) : hexValue? ch = none := by
  revert ch; decide

theorem ahxScan_eod (i : Nat) (half : Option Nat) (rest : List Byte) :
    ahxScan i half (0x3E#8 :: rest) = ahxFinish half := by rw [ahxScan, if_pos rfl]

theorem ahxScan_whitespace {ch : Byte} (heod : ch ≠ 0x3E#8) (h : isWhitespace ch = true) (i : Nat) (half : Option Nat)
    (rest : List Byte) : ahxScan i half (ch :: rest) = ahxScan (i + 1) half rest := by
  rw [ahxScan, if_neg heod, if_pos h]

theorem ahxScan_badChar {ch : Byte} (heod : ch ≠ 0x3E#8) (hws : isWhitespace ch = false) (h : hexValue? ch = none) (i : Nat)
    (half : Option Nat) (rest : List Byte) : ahxScan i half (ch :: rest) = .raised .ahxBadChar i := by
  rw [ahxScan, if_neg heod, if_neg (by simp [hws]), h]

/-- The digit that waits for its partner behind a digit sequence. -/
def pendingDigit : List Nat → Option Nat
  | _ :: _ :: ds => pendingDigit ds
  | [h] => some h
  | [] => none

/-- A digit completes the pair that waits, or waits itself. -/
theorem ahxScan_digit {ch : Byte} {v : Nat} (heod : ch ≠ 0x3E#8) (h : hexValue? ch = some v) (i : Nat) (half : Option Nat)
    (rest : List Byte) :
    ahxScan i half (ch :: rest) =
      .emitting (digitPairs (half.toList ++ [v])) (ahxScan (i + 1) (pendingDigit (half.toList ++ [v])) rest) := by
  have hws : ¬isWhitespace ch = true := fun hws => by simp [hexValue?_of_isWhitespace hws] at h
  rw [ahxScan, if_neg heod, if_neg hws, h]
  cases half <;> rfl

/-! ## What the scan does with a stretch of data (R193) -/

/-- A data character: a hex digit or whitespace. -/
abbrev isHexData (ch : Byte) : Prop := ch ≠ 0x3E#8 ∧ (isWhitespace ch = true ∨ (hexValue? ch).isSome = true)

/-- A pair in front changes neither the pairs nor the pending digit of the rest. -/
theorem digitPairs_append (half : Option Nat) (v : Nat) (ds : List Nat) :
    digitPairs (half.toList ++ v :: ds) =
        digitPairs (half.toList ++ [v]) ++ digitPairs ((pendingDigit (half.toList ++ [v])).toList ++ ds) ∧
      pendingDigit (half.toList ++ v :: ds) = pendingDigit ((pendingDigit (half.toList ++ [v])).toList ++ ds) := by
  cases half <;> exact ⟨rfl, rfl⟩

theorem pendingDigit_toList (half : Option Nat) : pendingDigit half.toList = half := by cases half <;> rfl

theorem digitPairs_toList (half : Option Nat) : digitPairs half.toList = [] := by cases half <;> rfl

/-- Data characters yield the bytes of their complete digit pairs and leave an odd digit pending. -/
theorem ahxScan_data {pre : List Byte} (hpre : ∀ ch ∈ pre, isHexData ch) (i : Nat) (half : Option Nat) (rest : List Byte) :
    ahxScan i half (pre ++ rest) =
      .emitting (digitPairs (half.toList ++ pre.filterMap hexValue?))
        (ahxScan (i + pre.length) (pendingDigit (half.toList ++ pre.filterMap hexValue?)) rest) := by
  induction pre generalizing i half with
  | nil => simp [JobResult.emitting, pendingDigit_toList, digitPairs_toList]
  | cons ch pre ih =>
    obtain ⟨heod, hdata⟩ := hpre ch (by simp)
    have hrest := ih fun ch' hch' => hpre ch' (List.mem_cons_of_mem _ hch')
    rw [List.cons_append, List.length_cons, Nat.add_comm pre.length, ← Nat.add_assoc]
    rcases hv : hexValue? ch with _ | v
    · have hws : isWhitespace ch = true := by simpa [hv] using hdata
      rw [ahxScan_whitespace heod hws, hrest, List.filterMap_cons_none hv]
    · obtain ⟨hpairs, hpending⟩ := digitPairs_append half v (pre.filterMap hexValue?)
      rw [ahxScan_digit heod hv, hrest, List.filterMap_cons_some hv, hpairs, hpending]
      simp [JobResult.emitting]

/-- Completing the pending digit with a zero gives the bytes of the whole digit sequence (R192, R193). -/
theorem emitting_ahxFinish (ds : List Nat) :
    .emitting (digitPairs ds) (ahxFinish (pendingDigit ds)) = (⟨digitBytes ds, .success⟩ : JobResult) := by
  induction ds using pendingDigit.induct with
  | case1 h l ds ih =>
    simp only [JobResult.emitting, JobResult.mk.injEq, digitBytes] at ih
    obtain ⟨hout, hending⟩ := ih
    have hparity : (h :: l :: ds).length % 2 = ds.length % 2 := by simp only [List.length_cons]; omega
    simp only [JobResult.emitting, JobResult.mk.injEq, digitBytes, digitPairs, pendingDigit, hending, and_true, hparity,
      List.cons_append, hout]
    split <;> rfl
  | case2 h => rfl
  | case3 => rfl

theorem digitPairs_length (ds : List Nat) : (digitPairs ds).length = ds.length / 2 := by
  induction ds using pendingDigit.induct with
  | case1 h l ds ih => simp only [digitPairs, List.length_cons, ih]; omega
  | case2 h => simp [digitPairs]
  | case3 => rfl

theorem digitBytes_length (ds : List Nat) : (digitBytes ds).length = (ds.length + 1) / 2 := by
  rw [digitBytes, digitPairs_length]
  split
  · omega
  · simp

/-- Data up to the end of the input or the first `>` decodes to the bytes of its digits. -/
theorem ahxDecode_data {pre rest : List Byte} (hpre : ∀ ch ∈ pre, isHexData ch)
    (hend : ∀ i half, ahxScan i half rest = ahxFinish half) :
    ahxDecode (pre ++ rest) = ⟨digitBytes (pre.filterMap hexValue?), .success⟩ := by
  rw [ahxDecode, ahxScan_data hpre, hend]
  exact emitting_ahxFinish _

theorem ahxDecode_badChar {pre rest : List Byte} {bad : Byte} (hpre : ∀ ch ∈ pre, isHexData ch) (heod : bad ≠ 0x3E#8)
    (hws : isWhitespace bad = false) (hbad : hexValue? bad = none) :
    ahxDecode (pre ++ bad :: rest) = ⟨digitPairs (pre.filterMap hexValue?), .error .ahxBadChar pre.length⟩ := by
  rw [ahxDecode, ahxScan_data hpre, ahxScan_badChar heod hws hbad]
  simp [JobResult.emitting, JobResult.raised]

/-! ## The four stages (R192) -/

/-- What the first stage keeps: the input up to the first `>`. -/
def textBeforeEod (inp : List Byte) : List Byte := inp.takeWhile (· ≠ 0x3E#8)

/-- What the first stage cuts off ends the scan. -/
theorem ahxScan_after_textBeforeEod (inp : List Byte) :
    ∃ rest, inp = textBeforeEod inp ++ rest ∧ ∀ i half, ahxScan i half rest = ahxFinish half := by
  refine ⟨inp.dropWhile (· ≠ 0x3E#8), List.takeWhile_append_dropWhile.symm, fun i half => ?_⟩
  rcases hrest : inp.dropWhile (· ≠ 0x3E#8) with _ | ⟨ch, rest⟩
  · rfl
  · have hch : ch = 0x3E#8 := by
      have hhead := List.head?_dropWhile_not (· ≠ 0x3E#8) inp
      rw [hrest] at hhead
      simpa using hhead
    rw [hch, ahxScan_eod]

theorem ne_eod_of_mem_textBeforeEod {inp : List Byte} {ch : Byte} (h : ch ∈ textBeforeEod inp) : ch ≠ 0x3E#8 := by
  simpa using List.mem_takeWhile_imp h

theorem mem_hexData_iff {inp : List Byte} {ch : Byte} :
    ch ∈ hexData inp ↔ ch ∈ textBeforeEod inp ∧ isWhitespace ch = false := by
  simp [hexData, textBeforeEod]

/-- The second stage drops no digit. -/
theorem filterMap_hexData (inp : List Byte) :
    (hexData inp).filterMap hexValue? = (textBeforeEod inp).filterMap hexValue? := by
  rw [hexData, List.filterMap_filter]
  refine List.filterMap_congr fun ch _ => ?_
  cases hws : isWhitespace ch with
  | true => simp [hexValue?_of_isWhitespace hws]
  | false => simp

/-- Where the third stage rejects a character, the text before `>` has a first one, behind data characters alone. -/
theorem exists_first_badChar {inp : List Byte} (h : ∃ ch ∈ hexData inp, hexValue? ch = none) :
    ∃ pre bad post, textBeforeEod inp = pre ++ bad :: post ∧ (∀ ch ∈ pre, isHexData ch) ∧ bad ≠ 0x3E#8 ∧
      isWhitespace bad = false ∧ hexValue? bad = none := by
  obtain ⟨ch, hch, hnone⟩ := h
  obtain ⟨hmem, hws⟩ := mem_hexData_iff.1 hch
  have hfound : ((textBeforeEod inp).find? fun c => !isWhitespace c && (hexValue? c).isNone).isSome = true :=
    List.find?_isSome.2 ⟨ch, hmem, by simp [hws, hnone]⟩
  obtain ⟨bad, hbad⟩ := Option.isSome_iff_exists.1 hfound
  obtain ⟨hrejected, pre, post, hsplit, hpre⟩ := List.find?_eq_some_iff_append.1 hbad
  simp only [Bool.and_eq_true, Bool.not_eq_true', Option.isNone_iff_eq_none] at hrejected
  obtain ⟨hbadWs, hbadNone⟩ := hrejected
  have hne : ∀ c ∈ pre ++ bad :: post, c ≠ 0x3E#8 := fun c hc => ne_eod_of_mem_textBeforeEod (hsplit ▸ hc)
  refine ⟨pre, bad, post, hsplit, fun c hc => ⟨hne c (by simp [hc]), ?_⟩, hne bad (by simp), hbadWs, hbadNone⟩
  have hkept := hpre c hc
  cases hcws : isWhitespace c with
  | true => exact .inl rfl
  | false => exact .inr (by simpa [hcws] using hkept)

/-! ## The statements -/

/-- Settles O30. -/
theorem ahxEncodesHexText : Obligations.AhxEncodesHexText := by
  intro s hs hroom
  have hjob : codecEmits .ahxEnc s = ⟨hexText s.inp, .success⟩ := by
    rw [hexText_eq_flatMap_hexPair]; rfl
  exact codecSucceeds_of_emits rfl hs hjob (by rwa [hexText_length, State.inp_length])

/-- Settles O31: data up to the first `>` decodes to its digits' bytes, and a rejected character has a first one. -/
theorem ahxDecodesInFourStages : Obligations.AhxDecodesInFourStages := by
  intro s hs hroom
  obtain ⟨rest, hinp, hend⟩ := ahxScan_after_textBeforeEod s.inp
  have hdigits : ((hexData s.inp).filterMap hexValue?).length ≤ (hexData s.inp).length := List.length_filterMap_le ..
  refine ⟨fun hall => ?_, fun hbad => ?_⟩
  · have hdata : ∀ ch ∈ textBeforeEod s.inp, isHexData ch := fun ch hch => by
      refine ⟨ne_eod_of_mem_textBeforeEod hch, ?_⟩
      cases hws : isWhitespace ch with
      | true => exact .inl rfl
      | false => exact .inr (hall ch (mem_hexData_iff.2 ⟨hch, hws⟩))
    have hjob : codecEmits .ahxDec s = ⟨digitBytes ((hexData s.inp).filterMap hexValue?), .success⟩ := by
      rw [filterMap_hexData, ← ahxDecode_data hdata hend, ← hinp]; rfl
    exact codecSucceeds_of_emits rfl hs hjob (by rw [digitBytes_length]; omega)
  · obtain ⟨pre, bad, post, hbefore, hpre, hne, hws, hnone⟩ := exists_first_badChar hbad
    have hsplit : s.inp = pre ++ bad :: (post ++ rest) := by rw [hinp, hbefore]; simp
    have hjob : codecEmits .ahxDec s = ⟨digitPairs (pre.filterMap hexValue?), .error .ahxBadChar pre.length⟩ := by
      rw [codecEmits, hsplit, ahxDecode_badChar hpre hne hws hnone]
    have hfit : (pre.filterMap hexValue?).length ≤ ((hexData s.inp).filterMap hexValue?).length := by
      rw [filterMap_hexData, hbefore, List.filterMap_append, List.length_append]; omega
    obtain ⟨t, hexec, hfailed, -⟩ :=
      codecFails_of_emits rfl hs hjob (by rw [digitPairs_length]; omega) (by rw [hsplit]; simp)
    exact ⟨t, hexec, hfailed.report⟩

/-- Settles O32. -/
theorem ahxBadCharacterKeepsPairs : Obligations.AhxBadCharacterKeepsPairs := by
  intro s pre rest bad hs hinp hpre hne hws hnone hroom
  have hdigits : (pre.filterMap hexValue?).length ≤ pre.length := List.length_filterMap_le ..
  exact codecFails_of_emits rfl hs (by rw [codecEmits, hinp, ahxDecode_badChar hpre hne hws hnone])
    (by rw [digitPairs_length]; omega) (by rw [hinp]; simp)

end Sys2Proof.Machine
end

section
/-! PROOF. ascii85_codec (spec/41_radix.md R210 to R215): base-85 arithmetic, and A85.ENC's text as the
texts of its groups. -/

namespace Sys2Proof.Machine

/-! ## Groups and their base-85 digits (R210) -/

theorem groupValue_lt (g0 g1 g2 g3 : Byte) : groupValue g0 g1 g2 g3 < 2 ^ 32 := by
  unfold groupValue; omega

theorem groupBytes_groupValue (g0 g1 g2 g3 : Byte) : groupBytes (groupValue g0 g1 g2 g3) = [g0, g1, g2, g3] := by
  simp only [groupBytes, groupValue, List.cons.injEq, and_true]
  refine ⟨?_, ?_, ?_, ?_⟩ <;> exact BitVec.eq_of_toNat_eq (by simp only [BitVec.toNat_ofNat]; omega)

/-- The first n bytes of a value are those of any value that agrees with it above the places of the other bytes. -/
theorem groupBytes_take_congr {v w n : Nat} (hn : 1 ≤ n) (hn3 : n ≤ 3) (h : v / 256 ^ (4 - n) = w / 256 ^ (4 - n)) :
    (groupBytes v).take n = (groupBytes w).take n := by
  have hplaces : v / 2 ^ 24 = w / 2 ^ 24 ∧ (2 ≤ n → v / 2 ^ 16 = w / 2 ^ 16) ∧ (3 ≤ n → v / 2 ^ 8 = w / 2 ^ 8) := by
    interval_cases n <;> omega
  obtain ⟨hfirst, hsecond, hthird⟩ := hplaces
  interval_cases n <;> simp only [groupBytes, List.take_succ_cons, List.take_zero, hfirst]
  · rw [hsecond (by omega)]
  · rw [hsecond (by omega), hthird (by omega)]

theorem digitChar85_toNat (d : Nat) : (BitVec.ofNat 8 (d % 85 + 33)).toNat = d % 85 + 33 := by
  rw [BitVec.toNat_ofNat]; omega

theorem isDigit85_of_mem_digits85 {v : Nat} {c : Byte} (h : c ∈ digits85 v) : isDigit85 c := by
  have hdigit : ∀ d : Nat, isDigit85 (BitVec.ofNat 8 (d % 85 + 33)) := fun d => by
    rw [isDigit85, digitChar85_toNat]; omega
  simp only [digits85, List.mem_cons, List.not_mem_nil, or_false] at h
  obtain rfl | rfl | rfl | rfl | rfl := h <;> exact hdigit _

theorem value85_concat (cs : List Byte) (c : Byte) : value85 (cs ++ [c]) = 85 * value85 cs + (c.toNat - 33) := by
  simp [value85]

/-- Padding with `u`, the digit 84, fills the missing places with their largest value (R215). -/
theorem value85_padded (cs : List Byte) (k : Nat) :
    value85 (cs ++ List.replicate k 0x75#8) + 1 = (value85 cs + 1) * 85 ^ k := by
  induction k with
  | zero => simp
  | succ k ih =>
    rw [List.replicate_succ', ← List.append_assoc, value85_concat]
    calc 85 * value85 (cs ++ List.replicate k 0x75#8) + 84 + 1
        = 85 * (value85 (cs ++ List.replicate k 0x75#8) + 1) := by omega
      _ = (value85 cs + 1) * 85 ^ (k + 1) := by rw [ih, pow_succ]; ring

/-- The first characters of a value are the value without the base-85 places of the others. -/
theorem value85_take_digits85 {v m : Nat} (hv : v < 2 ^ 32) (hm : m ≤ 5) :
    value85 ((digits85 v).take m) = v / 85 ^ (5 - m) := by
  interval_cases m <;>
    simp only [value85, digits85, List.take_succ_cons, List.take_zero, List.foldl_cons, List.foldl_nil,
      digitChar85_toNat] <;> omega

theorem value85_digits85 {v : Nat} (hv : v < 2 ^ 32) : value85 (digits85 v) = v := by
  simpa [digits85] using value85_take_digits85 hv (Nat.le_refl 5)

theorem value85_five (c0 c1 c2 c3 c4 : Byte) :
    value85 [c0, c1, c2, c3, c4] =
      (c0.toNat - 33) * 85 ^ 4 + (c1.toNat - 33) * 85 ^ 3 + (c2.toNat - 33) * 85 ^ 2 + (c3.toNat - 33) * 85
        + (c4.toNat - 33) := by
  simp only [value85, List.foldl_cons, List.foldl_nil]; ring

/-! ## The text of a group (R212, R213) -/

/-- The value of a group of at most four bytes, padded with zeros (R213). -/
def groupValueOf (g : List Byte) : Nat := groupValue (g.getD 0 0) (g.getD 1 0) (g.getD 2 0) (g.getD 3 0)

theorem groupValueOf_lt (g : List Byte) : groupValueOf g < 2 ^ 32 := groupValue_lt ..

theorem groupBytes_groupValueOf_take {g : List Byte} (hg : g.length < 4) :
    (groupBytes (groupValueOf g)).take g.length = g := by
  rw [groupValueOf, groupBytes_groupValue]
  match g, hg with
  | [], _ => rfl
  | [_], _ => rfl
  | [_, _], _ => rfl
  | [_, _, _], _ => rfl

/-- The bytes a short group lacks are zero in its value. -/
theorem groupValueOf_mod {g : List Byte} (hg : g.length < 4) : groupValueOf g % 256 ^ (4 - g.length) = 0 := by
  match g, hg with
  | [], _ => rfl
  | [g0], _ => simp [groupValueOf, groupValue]
  | [g0, g1], _ => simp [groupValueOf, groupValue]; omega
  | [g0, g1, g2], _ => simp [groupValueOf, groupValue]; omega

/-- What A85.ENC emits for a group of one to four bytes. -/
def groupText85 (g : List Byte) : List Byte :=
  if g = [0, 0, 0, 0] then [0x7A#8] else (digits85 (groupValueOf g)).take (g.length + 1)

theorem groupValue_eq_zero_iff (g0 g1 g2 g3 : Byte) : groupValue g0 g1 g2 g3 = 0 ↔ [g0, g1, g2, g3] = [0, 0, 0, 0] := by
  constructor
  · intro h
    rw [← groupBytes_groupValue, h]; rfl
  · intro h
    simp only [List.cons.injEq, and_true] at h
    obtain ⟨rfl, rfl, rfl, rfl⟩ := h
    rfl

theorem a85Chars_full (g0 g1 g2 g3 : Byte) (rest : List Byte) :
    a85Chars (g0 :: g1 :: g2 :: g3 :: rest) = groupText85 [g0, g1, g2, g3] ++ a85Chars rest := by
  rw [a85Chars, groupText85]
  simp only [groupValue_eq_zero_iff]
  rfl

/-- A final group of one to three bytes is the text of that group. -/
theorem a85Chars_partial {g : List Byte} (hpos : g ≠ []) (hg : g.length < 4) : a85Chars g = groupText85 g := by
  match g, hpos, hg with
  | [g0], _, _ => simp [a85Chars, groupText85, groupValueOf]
  | [g0, g1], _, _ => simp [a85Chars, groupText85, groupValueOf]
  | [g0, g1, g2], _, _ => simp [a85Chars, groupText85, groupValueOf]

/-- A list of bytes is worked off group by group: what holds of the short final groups and is kept by a full group in front
holds of every list. -/
theorem groups_induction {P : List Byte → Prop} (nil : P [])
    (final : ∀ g : List Byte, g ≠ [] → g.length < 4 → P g)
    (full : ∀ g0 g1 g2 g3 rest, P rest → P (g0 :: g1 :: g2 :: g3 :: rest)) : ∀ bs, P bs
  | g0 :: g1 :: g2 :: g3 :: rest => full g0 g1 g2 g3 rest (groups_induction nil final full rest)
  | [] => nil
  | [_] => final _ (by simp) (by simp)
  | [_, _] => final _ (by simp) (by simp)
  | [_, _, _] => final _ (by simp) (by simp)

theorem a85Chars_eq_flatMap_pieces (bs : List Byte) : a85Chars bs = (pieces 4 bs).flatMap groupText85 := by
  induction bs using groups_induction with
  | nil => rfl
  | final g hpos hg =>
    rw [a85Chars_partial hpos hg, pieces_eq (by omega) hpos, List.take_of_length_le (by omega),
      List.drop_of_length_le (by omega)]
    simp
  | full g0 g1 g2 g3 rest ih =>
    have hpieces : pieces 4 (g0 :: g1 :: g2 :: g3 :: rest) = [g0, g1, g2, g3] :: pieces 4 rest :=
      pieces_append (p := [g0, g1, g2, g3]) (by omega) rfl
    rw [a85Chars_full, ih, hpieces, List.flatMap_cons]

theorem groupText85_length_le (g : List Byte) : (groupText85 g).length ≤ 5 := by
  unfold groupText85
  split
  · simp
  · simp [digits85]

theorem a85Chars_length_le (bs : List Byte) : (a85Chars bs).length ≤ 5 * ((bs.length + 3) / 4) := by
  induction bs using groups_induction with
  | nil => simp [a85Chars]
  | final g hpos hg =>
    have htext := groupText85_length_le g
    have := List.length_pos_of_ne_nil hpos
    rw [a85Chars_partial hpos hg]
    omega
  | full g0 g1 g2 g3 rest ih =>
    have htext := groupText85_length_le [g0, g1, g2, g3]
    rw [a85Chars_full, List.length_append]
    simp only [List.length_cons]
    omega

theorem groupText85_of_short {g : List Byte} (hg : g.length < 4) :
    groupText85 g = (digits85 (groupValueOf g)).take (g.length + 1) :=
  if_neg (by rintro rfl; simp at hg)

end Sys2Proof.Machine
end

section
/-! PROOF. ascii85_codec (spec/41_radix.md R210 to R215): what A85.DEC's scan does with each kind of character and with a
group's text, and the statements about A85.ENC and A85.DEC. -/

namespace Sys2Proof.Machine

/-! ## What the scan does with a character (R214) -/

theorem isDigit85.ne_special {ch : Byte} (h : isDigit85 ch) : ch ≠ 0x7E#8 ∧ ch ≠ 0x7A#8 := by
  constructor <;> (rintro rfl; revert h; decide)

theorem a85Scan_nil (i gstart : Nat) (grp : List Byte) : a85Scan i gstart grp [] = a85Final grp gstart := rfl

/-- A digit that does not complete its group joins it. -/
theorem a85Scan_digit {ch : Byte} (h : isDigit85 ch) (i gstart : Nat) {grp : List Byte} (hlen : grp.length < 4)
    (rest : List Byte) :
    a85Scan i gstart grp (ch :: rest) = a85Scan (i + 1) (if grp = [] then i else gstart) (grp ++ [ch]) rest := by
  obtain ⟨htilde, hz⟩ := h.ne_special
  rw [a85Scan, if_neg htilde, if_neg hz, if_pos h, if_neg (by simp; omega)]

/-- A fifth digit completes the group, here one without overflow. -/
theorem a85Scan_fifth_digit {ch : Byte} (h : isDigit85 ch) (i gstart : Nat) {grp : List Byte} (hlen : grp.length = 4)
    (hv : value85 (grp ++ [ch]) < 2 ^ 32) (rest : List Byte) :
    a85Scan i gstart grp (ch :: rest) =
      .emitting (groupBytes (value85 (grp ++ [ch]))) (a85Scan (i + 1) gstart [] rest) := by
  obtain ⟨htilde, hz⟩ := h.ne_special
  have hgrp : grp ≠ [] := List.ne_nil_of_length_pos (by omega)
  rw [a85Scan, if_neg htilde, if_neg hz, if_pos h, if_pos (by simp [hlen]), if_neg (by omega), if_neg hgrp]

theorem a85Scan_z (i gstart : Nat) (rest : List Byte) :
    a85Scan i gstart [] (0x7A#8 :: rest) = .emitting [0, 0, 0, 0] (a85Scan (i + 1) gstart [] rest) := rfl

theorem a85Scan_z_inside (i gstart : Nat) {grp : List Byte} (hgrp : grp ≠ []) (rest : List Byte) :
    a85Scan i gstart grp (0x7A#8 :: rest) = .raised .a85ZInGroup i := by
  rw [a85Scan, if_neg (by decide), if_pos rfl, if_pos hgrp]

theorem a85Scan_badChar {ch : Byte} (h : ¬isDigit85 ch) (hz : ch ≠ 0x7A#8) (htilde : ch ≠ 0x7E#8) (i gstart : Nat)
    (grp rest : List Byte) : a85Scan i gstart grp (ch :: rest) = .raised .a85BadChar i := by
  rw [a85Scan, if_neg htilde, if_neg hz, if_neg h]

theorem a85Scan_badEod {rest : List Byte} (h : rest.head? ≠ some 0x3E#8) (i gstart : Nat) (grp : List Byte) :
    a85Scan i gstart grp (0x7E#8 :: rest) = .raised .a85BadEod i := by
  rw [a85Scan, if_pos rfl, if_neg h]

theorem a85Scan_eod (i gstart : Nat) (grp rest : List Byte) :
    a85Scan i gstart grp (0x7E#8 :: 0x3E#8 :: rest) = a85Final grp gstart := rfl

/-- Between two groups the start of the last group plays no part. -/
theorem a85Scan_gstart_irrelevant (i gstart gstart' : Nat) (l : List Byte) :
    a85Scan i gstart [] l = a85Scan i gstart' [] l := by
  induction l generalizing i with
  | nil => rfl
  | cons ch rest ih => simp only [a85Scan, a85Final, ih (i + 1), List.length_nil, if_true]

/-- One to four digits at the start of a group wait there. -/
theorem a85Scan_digits (i gstart : Nat) {cs : List Byte} (hcs : ∀ c ∈ cs, isDigit85 c) (hpos : cs ≠ [])
    (hlen : cs.length < 5) (rest : List Byte) :
    a85Scan i gstart [] (cs ++ rest) = a85Scan (i + cs.length) i cs rest := by
  induction cs using List.reverseRecOn generalizing rest with
  | nil => exact absurd rfl hpos
  | append_singleton cs c ih =>
    have hc : isDigit85 c := hcs c (by simp)
    rw [List.length_append, List.length_singleton] at hlen
    by_cases hnil : cs = []
    · subst hnil
      exact a85Scan_digit hc i gstart (by simp) rest
    · rw [List.append_assoc, ih (fun c' hc' => hcs c' (List.mem_append_left _ hc')) hnil (by omega),
        List.singleton_append, a85Scan_digit hc _ _ (by omega), if_neg hnil, List.length_append, List.length_singleton,
        Nat.add_assoc]

/-! ## Decoding a group's text -/

/-- The five characters of a value give its four bytes. -/
theorem a85Scan_digits85 {v : Nat} (hv : v < 2 ^ 32) (i gstart : Nat) (rest : List Byte) :
    a85Scan i gstart [] (digits85 v ++ rest) = .emitting (groupBytes v) (a85Scan (i + 5) i [] rest) := by
  have hsplit : digits85 v = (digits85 v).take 4 ++ [BitVec.ofNat 8 (v % 85 + 33)] := rfl
  have hwaiting := a85Scan_digits i gstart (cs := (digits85 v).take 4)
    (fun c hc => isDigit85_of_mem_digits85 (List.mem_of_mem_take hc)) (by simp [digits85]) (by simp [digits85])
    (BitVec.ofNat 8 (v % 85 + 33) :: rest)
  have hfifth := a85Scan_fifth_digit (isDigit85_of_mem_digits85 (v := v) (c := BitVec.ofNat 8 (v % 85 + 33))
    (by simp [digits85])) (i + 4) i (grp := (digits85 v).take 4) rfl (by rwa [← hsplit, value85_digits85 hv]) rest
  rw [← hsplit, value85_digits85 hv] at hfifth
  rw [← hfifth, hsplit, List.append_assoc]
  exact hwaiting

/-- The text of a full group gives the group back. -/
theorem a85Scan_groupText85 (g0 g1 g2 g3 : Byte) (i gstart gstart' : Nat) (rest : List Byte) :
    a85Scan i gstart [] (groupText85 [g0, g1, g2, g3] ++ rest) =
      .emitting [g0, g1, g2, g3] (a85Scan (i + (groupText85 [g0, g1, g2, g3]).length) gstart' [] rest) := by
  by_cases hzero : [g0, g1, g2, g3] = [0, 0, 0, 0]
  · rw [groupText85, if_pos hzero, hzero, List.singleton_append, a85Scan_z, a85Scan_gstart_irrelevant _ gstart gstart']
    rfl
  · have htext : groupText85 [g0, g1, g2, g3] = digits85 (groupValue g0 g1 g2 g3) := if_neg hzero
    rw [htext, a85Scan_digits85 (groupValue_lt ..), groupBytes_groupValue, a85Scan_gstart_irrelevant _ i gstart']
    rfl

/-- The text of whole groups gives them back, and the scan goes on behind it, between two groups. -/
theorem a85Scan_a85Chars {b : List Byte} (hb : b.length % 4 = 0) (i gstart gstart' : Nat) (tail : List Byte) :
    a85Scan i gstart [] (a85Chars b ++ tail) = .emitting b (a85Scan (i + (a85Chars b).length) gstart' [] tail) := by
  induction b using groups_induction generalizing i gstart with
  | nil => exact a85Scan_gstart_irrelevant i gstart gstart' tail
  | final g hpos hg =>
    have := List.length_pos_of_ne_nil hpos
    omega
  | full g0 g1 g2 g3 rest ih =>
    have hrest : rest.length % 4 = 0 := by simp only [List.length_cons] at hb; omega
    rw [a85Chars_full, List.append_assoc, a85Scan_groupText85 _ _ _ _ _ _ gstart', ih hrest, List.length_append,
      Nat.add_assoc]
    rfl

/-- The first n bytes of a group come back from its first n + 1 characters: the padding with `u` adds less than
85^(4 - n) ≤ 256^(4 - n) to a value whose places below the n bytes are zero (R213, R215). -/
theorem a85Final_take_digits85 {v n : Nat} (hv : v < 2 ^ 32) (hn : 1 ≤ n) (hn3 : n ≤ 3) (hlow : v % 256 ^ (4 - n) = 0)
    (gstart : Nat) :
    a85Final ((digits85 v).take (n + 1)) gstart = ⟨(groupBytes v).take n, .success⟩ := by
  have hlen : ((digits85 v).take (n + 1)).length = n + 1 := by simp [digits85]; omega
  have hmissing : 5 - (n + 1) = 4 - n := by omega
  have hpadded := value85_padded ((digits85 v).take (n + 1)) (4 - n)
  rw [value85_take_digits85 hv (by omega), hmissing] at hpadded
  generalize hw : value85 ((digits85 v).take (n + 1) ++ List.replicate (4 - n) 0x75#8) = w at hpadded
  have hrange : w < 2 ^ 32 ∧ w / 256 ^ (4 - n) = v / 256 ^ (4 - n) := by
    interval_cases n <;> omega
  obtain ⟨hfits, hhigh⟩ := hrange
  simp only [a85Final, hlen, hmissing, hw]
  rw [if_neg (by omega), if_neg (by omega), if_neg (by omega), Nat.add_sub_cancel, groupBytes_take_congr hn hn3 hhigh]
  simp [JobResult.emitting]

/-- The text of a short final group gives that group back. -/
theorem a85Scan_final_groupText85 {g : List Byte} (hpos : g ≠ []) (hg : g.length < 4) (i gstart : Nat) :
    a85Scan i gstart [] (groupText85 g) = ⟨g, .success⟩ := by
  have hlen : 1 ≤ g.length := List.length_pos_of_ne_nil hpos
  have htext := groupText85_of_short hg
  have htextLen : (groupText85 g).length = g.length + 1 := by rw [htext]; simp [digits85]; omega
  have hwaiting := a85Scan_digits i gstart (cs := groupText85 g)
    (fun c hc => isDigit85_of_mem_digits85 (List.mem_of_mem_take (htext ▸ hc)))
    (List.ne_nil_of_length_pos (by omega)) (by omega) []
  rw [List.append_nil] at hwaiting
  rw [hwaiting, a85Scan_nil, htext, a85Final_take_digits85 (groupValueOf_lt g) hlen (by omega) (groupValueOf_mod hg),
    groupBytes_groupValueOf_take hg]

theorem a85Decode_a85Chars (bs : List Byte) : a85Decode (a85Chars bs) = ⟨bs, .success⟩ := by
  suffices h : ∀ i gstart, a85Scan i gstart [] (a85Chars bs) = ⟨bs, .success⟩ from h 0 0
  induction bs using groups_induction with
  | nil => exact fun _ _ => rfl
  | final g hpos hg =>
    rw [a85Chars_partial hpos hg]
    exact a85Scan_final_groupText85 hpos hg
  | full g0 g1 g2 g3 rest ih =>
    intro i gstart
    rw [a85Chars_full, a85Scan_groupText85 _ _ _ _ _ _ 0, ih]
    rfl

/-! ## The statements -/

/-- Settles O35: the decoder undoes the encoder's text group by group, the short final group by the bound on its padding. -/
theorem ascii85RoundTrip : Obligations.Ascii85RoundTrip := by
  intro s hs hfit
  obtain ⟨t, hexec, hsucc, hleaves⟩ := codecSucceeds_of_emits (i := .a85Enc) rfl hs rfl hfit
  refine ⟨t, hexec, hsucc, hleaves, fun u hu hinp hroom => ?_⟩
  have hjob : codecEmits .a85Dec u = ⟨s.inp, .success⟩ := by
    rw [codecEmits, hinp, hleaves.output]
    exact a85Decode_a85Chars s.inp
  exact codecSucceeds_of_emits rfl hu hjob (by rwa [State.inp_length])

/-- Settles O33. -/
theorem ascii85DigitsAreBase85 : Obligations.Ascii85DigitsAreBase85 := by
  refine ⟨fun v hv => ⟨_, _, _, _, _, rfl, fun c => isDigit85_of_mem_digits85, ?_, value85_digits85 hv⟩,
    groupBytes_groupValue⟩
  rw [← value85_five]
  exact value85_digits85 hv

/-- Settles O34: A85.ENC's text is the text of the pieces of four bytes, at most five characters each. -/
theorem ascii85EncodesByGroups : Obligations.Ascii85EncodesByGroups := by
  intro s hs hroom
  have hlen := a85Chars_length_le s.inp
  rw [State.inp_length] at hlen
  have hsucc : CodecSucceeds .a85Enc s (a85Chars s.inp) := codecSucceeds_of_emits rfl hs rfl (by omega)
  rwa [a85Chars_eq_flatMap_pieces] at hsucc

/-- A85.DEC on whole groups' text and a tail: the groups' bytes, then what the scan makes of the tail. -/
theorem codecEmits_a85Dec_of_inp {s : State} {b tail : List Byte} (hb : b.length % 4 = 0)
    (hinp : s.inp = a85Chars b ++ tail) :
    codecEmits .a85Dec s = .emitting b (a85Scan (a85Chars b).length 0 [] tail) := by
  rw [codecEmits, a85Decode, hinp, a85Scan_a85Chars hb 0 0 0, Nat.zero_add]

/-- Settles O36: behind whole groups the scan of the tail alone decides. -/
theorem ascii85DecodeFaults : Obligations.Ascii85DecodeFaults := by
  intro s b tail hs hb hroom hinp
  have hemits := codecEmits_a85Dec_of_inp hb hinp
  have hlen : s.inp.length = (a85Chars b).length + tail.length := by rw [hinp, List.length_append]
  have hfails : ∀ {c pos}, a85Scan (a85Chars b).length 0 [] tail = .raised c pos → pos ≤ s.inp.length →
      CodecFails .a85Dec s c pos b := fun hscan hpos =>
    codecFails_of_emits rfl hs (by rw [hemits, hscan]; simp [JobResult.emitting, JobResult.raised]) hroom hpos
  refine ⟨fun ch rest htail hch hz htilde => ?_, fun rest htail hrest => ?_, fun rest htail => ?_,
    fun ch rest htail hch => ?_, fun ch htail hch => ?_⟩ <;> subst htail
  · exact hfails (a85Scan_badChar hch hz htilde _ _ _ _) (by omega)
  · exact hfails (a85Scan_badEod hrest _ _ _) (by omega)
  · refine codecSucceeds_of_emits rfl hs ?_ hroom
    rw [hemits, a85Scan_eod]
    simp [JobResult.emitting, JobResult.done, a85Final]
  · refine hfails ?_ (by simp only [List.length_cons] at hlen; omega)
    rw [a85Scan_digit hch _ _ (by simp), a85Scan_z_inside _ _ (by simp)]
  · refine hfails ?_ (by omega)
    rw [a85Scan_digit hch _ _ (by simp), a85Scan_nil]
    rfl

end Sys2Proof.Machine
end

section
/-! PROOF. run_length_encoder and run_length_decoder (spec/42_run_length.md R250 to R255): RL.ENC writes records in the sense
of R250, and RL.DEC undoes every sequence of such records. -/

namespace Sys2Proof.Machine

/-! ## Records (R250) -/

/-- `RecordsOf bytes stream`: `stream` is a sequence of complete records of R250 with payload `bytes`. -/
inductive RecordsOf : List Byte → List Byte → Prop
  | nil : RecordsOf [] []
  | repeated {bytes stream : List Byte} (x : Byte) {r : Nat} (hr : 2 ≤ r) (hr128 : r ≤ 128) (h : RecordsOf bytes stream) :
      RecordsOf (List.replicate r x ++ bytes) (BitVec.ofNat 8 (257 - r) :: x :: stream)
  | literal {bytes stream lit : List Byte} (hlit : 1 ≤ lit.length) (hlit128 : lit.length ≤ 128)
      (h : RecordsOf bytes stream) :
      RecordsOf (lit ++ bytes) (BitVec.ofNat 8 (lit.length - 1) :: (lit ++ stream))

/-! ## The decoder, one control byte at a time (R254) -/

theorem ne_eod_of_toNat_ne {c : Byte} (h : c.toNat ≠ 128) : c ≠ 0x80#8 := fun hc => h (hc ▸ rfl)

theorem rlDecodeFrom_eod (fuel i : Nat) (rest : List Byte) : rlDecodeFrom (fuel + 1) i (0x80#8 :: rest) = .done := by
  rw [rlDecodeFrom.eq_def]
  exact if_pos rfl

theorem rlDecodeFrom_literalControl (fuel i : Nat) {c : Byte} (hc : c.toNat < 128) (rest : List Byte) :
    rlDecodeFrom (fuel + 1) i (c :: rest) =
      if rest.length < c.toNat + 1 then .raised .rlTruncated i
      else .emitting (rest.take (c.toNat + 1)) (rlDecodeFrom fuel (i + 2 + c.toNat) (rest.drop (c.toNat + 1))) := by
  rw [rlDecodeFrom.eq_def]
  exact (if_neg (ne_eod_of_toNat_ne hc.ne)).trans (if_pos hc)

theorem rlDecodeFrom_literal (fuel i : Nat) {lit : List Byte} (hlit : 1 ≤ lit.length) (hlit128 : lit.length ≤ 128)
    (rest : List Byte) :
    rlDecodeFrom (fuel + 1) i (BitVec.ofNat 8 (lit.length - 1) :: (lit ++ rest)) =
      .emitting lit (rlDecodeFrom fuel (i + (lit.length + 1)) rest) := by
  have hc : (BitVec.ofNat 8 (lit.length - 1)).toNat = lit.length - 1 := by rw [BitVec.toNat_ofNat]; omega
  have hpos : i + 2 + (lit.length - 1) = i + (lit.length + 1) := by omega
  rw [rlDecodeFrom_literalControl _ _ (by omega), hc, Nat.sub_add_cancel hlit, if_neg (by simp), List.take_left,
    List.drop_left, hpos]

theorem rlDecodeFrom_truncatedLiteral (fuel i : Nat) {c : Byte} {rest : List Byte} (hc : c.toNat < 128)
    (hrest : rest.length < c.toNat + 1) : rlDecodeFrom (fuel + 1) i (c :: rest) = .raised .rlTruncated i := by
  rw [rlDecodeFrom_literalControl _ _ hc, if_pos hrest]

theorem rlDecodeFrom_repeated (fuel i : Nat) (x : Byte) {r : Nat} (hr : 2 ≤ r) (hr128 : r ≤ 128) (rest : List Byte) :
    rlDecodeFrom (fuel + 1) i (BitVec.ofNat 8 (257 - r) :: x :: rest) =
      .emitting (List.replicate r x) (rlDecodeFrom fuel (i + 2) rest) := by
  have hc : (BitVec.ofNat 8 (257 - r)).toNat = 257 - r := by rw [BitVec.toNat_ofNat]; omega
  have hcount : 257 - (257 - r) = r := by omega
  rw [rlDecodeFrom, if_neg (ne_eod_of_toNat_ne (by omega)), hc, if_neg (by omega), hcount]

theorem rlDecodeFrom_truncatedRepeat (fuel i : Nat) {c : Byte} (hc : 128 < c.toNat) :
    rlDecodeFrom (fuel + 1) i [c] = .raised .rlTruncated i := by
  rw [rlDecodeFrom, if_neg (ne_eod_of_toNat_ne hc.ne'), if_neg (by omega)]

/-- RL.DEC emits the payload of complete records and goes on behind them; each record takes one unit of fuel and at least
one byte, so the fuel that is left still covers the tail. -/
theorem RecordsOf.rlDecodeFrom_append {bytes stream : List Byte} (h : RecordsOf bytes stream) (tail : List Byte)
    {fuel : Nat} (hfuel : (stream ++ tail).length ≤ fuel) (i : Nat) :
    ∃ left, tail.length ≤ left ∧
      rlDecodeFrom fuel i (stream ++ tail) = .emitting bytes (rlDecodeFrom left (i + stream.length) tail) := by
  induction h generalizing fuel i with
  | nil => exact ⟨fuel, hfuel, rfl⟩
  | repeated x hr hr128 _ ih =>
    obtain ⟨n, rfl⟩ : ∃ n, fuel = n + 1 := Nat.exists_eq_add_one.2 (by simp at hfuel; omega)
    obtain ⟨left, hleft, hdec⟩ := ih (fuel := n) (by simp at hfuel ⊢; omega) (i + 2)
    refine ⟨left, hleft, ?_⟩
    rw [List.cons_append, List.cons_append, rlDecodeFrom_repeated _ _ _ hr hr128, hdec]
    simp [JobResult.emitting, Nat.add_assoc, Nat.add_comm 2]
  | @literal _ _ lit hlit hlit128 _ ih =>
    obtain ⟨n, rfl⟩ : ∃ n, fuel = n + 1 := Nat.exists_eq_add_one.2 (by simp at hfuel; omega)
    obtain ⟨left, hleft, hdec⟩ := ih (fuel := n) (by simp at hfuel ⊢; omega) (i + (lit.length + 1))
    refine ⟨left, hleft, ?_⟩
    rw [List.cons_append, List.append_assoc, rlDecodeFrom_literal _ _ hlit hlit128, hdec]
    simp [JobResult.emitting, Nat.add_assoc, Nat.add_comm 1]

/-! ## The encoder's segmentation (R251) -/

theorem take_of_le_leadCount {x : Byte} {xs : List Byte} {n : Nat} (h : n ≤ leadCount x xs) :
    xs.take n = List.replicate n x := by
  induction xs generalizing n with
  | nil => simp_all [leadCount]
  | cons y ys ih =>
    cases n with
    | zero => rfl
    | succ n =>
      rw [leadCount] at h
      split at h
      next hy => rw [List.take_succ_cons, ih (by omega), hy, List.replicate_succ]
      next => omega

theorem leadCount_replicate (x : Byte) (n : Nat) : leadCount x (List.replicate n x) = n := by
  induction n with
  | zero => rfl
  | succ n ih => rw [List.replicate_succ, leadCount, if_pos rfl, ih]

theorem runLength_le (l : List Byte) : runLength l ≤ 128 := by
  cases l with
  | nil => exact Nat.zero_le _
  | cons x xs => exact Nat.min_le_left _ _

theorem take_runLength (x : Byte) (xs : List Byte) :
    (x :: xs).take (runLength (x :: xs)) = List.replicate (runLength (x :: xs)) x := by
  have hpos : runLength (x :: xs) = min 127 (leadCount x xs) + 1 := by rw [runLength]; omega
  rw [hpos, List.take_succ_cons, take_of_le_leadCount (Nat.min_le_right _ _), List.replicate_succ]

theorem runLength_replicate (x : Byte) {r : Nat} (hr : r ≤ 128) : runLength (List.replicate r x) = r := by
  cases r with
  | zero => rfl
  | succ n => rw [List.replicate_succ, runLength, leadCount_replicate, Nat.min_eq_right hr]

/-- The encoder writes a repeat record exactly where a pair starts. -/
theorem two_le_runLength_iff (l : List Byte) : 2 ≤ runLength l ↔ startsPair l = true := by
  match l with
  | [] => simp [runLength, startsPair]
  | [x] => simp [runLength, startsPair, leadCount]
  | x :: y :: ys =>
    simp only [runLength, leadCount, startsPair, decide_eq_true_eq, eq_comm (a := x)]
    split <;> simp_all

theorem startsPair_of_isChain_ne {l : List Byte} (h : l.IsChain (· ≠ ·)) : startsPair l = false := by
  match l with
  | [] => rfl
  | [_] => rfl
  | x :: y :: ys => simpa [startsPair] using (List.isChain_cons_cons.1 h).1

theorem literalLength_le (cap : Nat) (l : List Byte) : literalLength cap l ≤ min cap l.length := by
  induction cap generalizing l with
  | zero => simp [literalLength]
  | succ cap ih =>
    cases l with
    | nil => simp [literalLength]
    | cons x xs =>
      have := ih xs
      rw [literalLength]
      split <;> simp only [List.length_cons] <;> omega

theorem one_le_literalLength (cap : Nat) (x : Byte) (xs : List Byte) : 1 ≤ literalLength (cap + 1) (x :: xs) := by
  rw [literalLength]; split <;> omega

theorem literalLength_of_isChain_ne {cap : Nat} {l : List Byte} (h : l.IsChain (· ≠ ·)) (hcap : l.length ≤ cap) :
    literalLength cap l = l.length := by
  induction l generalizing cap with
  | nil => cases cap <;> rfl
  | cons x xs ih =>
    obtain ⟨n, rfl⟩ : ∃ n, cap = n + 1 := Nat.exists_eq_add_one.2 (Nat.zero_lt_of_lt hcap)
    have hpair : ¬startsPair xs = true := by simp [startsPair_of_isChain_ne (l := xs) h.tail]
    rw [literalLength, if_neg hpair, ih h.tail (Nat.le_of_succ_le_succ hcap), List.length_cons]

/-! ## The encoder's records (R252) -/

theorem rlRecords_nil (fuel : Nat) : rlRecords fuel [] = [] := by cases fuel <;> rfl

/-- RL.ENC writes records of its input: at each place the run or the literal bytes it takes off are one record's payload. -/
theorem recordsOf_rlRecords {fuel : Nat} {l : List Byte} (hfuel : l.length ≤ fuel) : RecordsOf l (rlRecords fuel l) := by
  induction fuel generalizing l with
  | zero =>
    rw [List.length_eq_zero_iff.1 (Nat.le_zero.1 hfuel)]
    exact .nil
  | succ fuel ih =>
    cases l with
    | nil => exact .nil
    | cons x xs =>
      have hrest : ∀ {n}, 1 ≤ n → ((x :: xs).drop n).length ≤ fuel := fun hn => by
        rw [List.length_drop]; omega
      rw [rlRecords]
      split
      next hrun =>
        have hrec := RecordsOf.repeated x hrun (runLength_le _) (ih (hrest (Nat.le_of_succ_le hrun)))
        rwa [← take_runLength, List.take_append_drop] at hrec
      next =>
        have hpos := one_le_literalLength 127 x xs
        have hle := literalLength_le 128 (x :: xs)
        have hlen : ((x :: xs).take (literalLength 128 (x :: xs))).length = literalLength 128 (x :: xs) := by
          rw [List.length_take]; omega
        have hrec := RecordsOf.literal (hlen.symm ▸ hpos) (by omega) (ih (hrest hpos))
        rwa [List.take_append_drop, hlen] at hrec

theorem rlRecords_replicate (x : Byte) {r : Nat} (hr : 2 ≤ r) (hr128 : r ≤ 128) {fuel : Nat} (hfuel : 0 < fuel) :
    rlRecords fuel (List.replicate r x) = [BitVec.ofNat 8 (257 - r), x] := by
  obtain ⟨n, rfl⟩ := Nat.exists_eq_add_one.2 hfuel
  obtain ⟨m, rfl⟩ : ∃ m, r = m + 1 := Nat.exists_eq_add_one.2 (by omega)
  have hrun := runLength_replicate x hr128
  rw [List.replicate_succ] at hrun ⊢
  rw [rlRecords, hrun, if_pos hr, List.drop_of_length_le (by simp), rlRecords_nil, List.append_nil]

theorem rlRecords_of_isChain_ne {l : List Byte} (h : l.IsChain (· ≠ ·)) (hpos : 1 ≤ l.length) (hlen : l.length ≤ 128)
    {fuel : Nat} (hfuel : 0 < fuel) : rlRecords fuel l = BitVec.ofNat 8 (l.length - 1) :: l := by
  obtain ⟨n, rfl⟩ := Nat.exists_eq_add_one.2 hfuel
  obtain ⟨x, xs, rfl⟩ := List.exists_cons_of_length_pos hpos
  have hrun : ¬2 ≤ runLength (x :: xs) := by simp [two_le_runLength_iff, startsPair_of_isChain_ne h]
  rw [rlRecords, if_neg hrun, literalLength_of_isChain_ne h hlen, List.take_length, List.drop_length, rlRecords_nil,
    List.append_nil, List.singleton_append]

/-- RL.DEC on RL.ENC's records and a control byte: the bytes they encode, then what the decoder makes of that byte. -/
theorem rlDecode_rlRecords_append (b : List Byte) (c : Byte) (tail : List Byte) :
    ∃ fuel, rlDecode (rlRecords b.length b ++ c :: tail) =
      .emitting b (rlDecodeFrom (fuel + 1) (rlRecords b.length b).length (c :: tail)) := by
  obtain ⟨left, hleft, hdec⟩ :=
    (recordsOf_rlRecords (Nat.le_refl b.length)).rlDecodeFrom_append (c :: tail) (Nat.le_refl _) 0
  obtain ⟨fuel, rfl⟩ := Nat.exists_eq_add_one.2 (Nat.zero_lt_of_lt hleft)
  exact ⟨fuel, by rwa [Nat.zero_add] at hdec⟩

theorem rlDecode_rlRecords_eod (b rest : List Byte) :
    rlDecode (rlRecords b.length b ++ 0x80#8 :: rest) = ⟨b, .success⟩ := by
  obtain ⟨fuel, hdec⟩ := rlDecode_rlRecords_append b 0x80#8 rest
  rw [hdec, rlDecodeFrom_eod]
  simp [JobResult.emitting, JobResult.done]

/-! ## What a successful codec command has put out -/

/-- A codec command that succeeds has put out all of its job's output. -/
theorem outBytes_of_succeeded {i : Instr} {s t : State} (hi : isCodec i = true) (hs : CodecReady s)
    (hexec : exec i s = .next t) (hsucc : Succeeded t) (hjob : (codecEmits i s).ending = .success) :
    t.outBytes = (codecEmits i s).out := by
  rcases Nat.lt_or_ge s.cfg.outCap (codecEmits i s).out.length with hover | hfit
  · obtain ⟨u, hu, ⟨hfailed, -⟩, -⟩ := (codecRespectsBufferLimits i s hi hs.1).2 hs.2 hover
    cases hexec.symm.trans hu
    have hstatus : t.status.toNat = 2 := by rw [hsucc.1]; rfl
    omega
  · obtain ⟨u, hu, -, hleaves⟩ := codecSucceeds_of_emits hi hs (by rw [← hjob]) hfit
    cases hexec.symm.trans hu
    exact hleaves.output

/-! ## The statements -/

/-- Settles O37: RL.ENC's output is records of the input, then the end-of-data byte, and the decoder undoes records. -/
theorem runLengthRoundTrip : Obligations.RunLengthRoundTrip := by
  intro s hs hfit
  obtain ⟨t, hexec, hsucc, hleaves⟩ := codecSucceeds_of_emits (i := .rlEnc) rfl hs rfl hfit
  refine ⟨t, hexec, hsucc, hleaves, fun u hu hinp hroom => ?_⟩
  have hjob : codecEmits .rlDec u = ⟨s.inp, .success⟩ := by
    rw [codecEmits, hinp, hleaves.output]
    exact rlDecode_rlRecords_eod s.inp []
  exact codecSucceeds_of_emits rfl hu hjob (by rwa [State.inp_length])

/-- Settles O38: a run is one repeat record, bytes without equal neighbours are one literal record, and the last byte of a
complete output is the encoder's end-of-data byte. -/
theorem runLengthEncodesRecords : Obligations.RunLengthEncodesRecords := by
  intro s hs
  have hlen := State.inp_length s
  refine ⟨fun b r hr hr128 hinp hroom => ?_, fun hpos hmax hdistinct hroom => ?_, fun t hexec hsucc => ?_⟩
  · have hjob : codecEmits .rlEnc s = ⟨[BitVec.ofNat 8 (257 - r), b, 0x80#8], .success⟩ := by
      rw [codecEmits, rlEncode, hinp, rlRecords_replicate b hr hr128 (by simp; omega)]; rfl
    exact codecSucceeds_of_emits rfl hs hjob hroom
  · have hchain : s.inp.IsChain (· ≠ ·) := List.isChain_iff_getElem.2 fun k hk heq =>
      hdistinct k (hlen ▸ hk) (by rw [List.getElem?_eq_getElem hk, List.getElem?_eq_getElem (by omega), heq])
    have hjob : codecEmits .rlEnc s = ⟨BitVec.ofNat 8 (s.inLen.toNat - 1) :: s.inp ++ [0x80#8], .success⟩ := by
      rw [codecEmits, rlEncode, rlRecords_of_isChain_ne hchain (by omega) (by omega) (by omega), hlen]
    exact codecSucceeds_of_emits rfl hs hjob (by simp; omega)
  · rw [outBytes_of_succeeded rfl hs hexec hsucc rfl]
    simp [codecEmits, rlEncode]

/-- Settles O39: behind RL.ENC's records of `b` the control byte `c` and what follows it decide. -/
theorem runLengthDecodeEnds : Obligations.RunLengthDecodeEnds := by
  intro s b tail c hs hroom hinp
  obtain ⟨fuel, hdec⟩ := rlDecode_rlRecords_append b c tail
  have htruncated : rlDecodeFrom (fuel + 1) (rlRecords b.length b).length (c :: tail) =
        .raised .rlTruncated (rlRecords b.length b).length →
      CodecFails .rlDec s .rlTruncated (rlRecords b.length b).length b := fun hraised =>
    codecFails_of_emits rfl hs
      (by rw [codecEmits, hinp, hdec, hraised]; simp [JobResult.emitting, JobResult.raised]) hroom (by rw [hinp]; simp)
  refine ⟨fun hc htail => ?_, fun hc htail => ?_, fun hc => ?_⟩
  · exact htruncated (rlDecodeFrom_truncatedLiteral _ _ hc htail)
  · subst htail
    exact htruncated (rlDecodeFrom_truncatedRepeat _ _ hc)
  · obtain rfl : c = 0x80#8 := BitVec.eq_of_toNat_eq hc
    exact codecSucceeds_of_emits rfl hs (by rw [codecEmits, hinp, rlDecode_rlRecords_eod]) hroom

end Sys2Proof.Machine
end

section
/-! PROOF. pixel_predictor_engine, the configuration (spec/43_predictor.md R280, R281): the checks in the rule's own words
and what a configuration that passes them gives. -/

namespace Sys2Proof.Machine

theorem PredConfig.bpr_eq (p : PredConfig) : p.bpr = (p.columns * p.colors * p.bpc + 7) / 8 := rfl

theorem PredConfig.bpp_eq (p : PredConfig) : p.bpp = (p.colors * p.bpc + 7) / 8 := rfl

theorem Params.rowTooLong_eq (params : Params) (n : Nat) :
    params.rowTooLong n = params.lineCap.any fun cap => cap < n := by
  unfold Params.rowTooLong
  cases params.lineCap <;> rfl

theorem PredConfig.kindOk_eq_false_iff (p : PredConfig) :
    p.kindOk = false ↔ p.kind ∉ [1, 2, 10, 11, 12, 13, 14, 15] := by
  simp only [kindOk, Bool.or_eq_false_iff, Bool.and_eq_false_iff, decide_eq_false_iff_not, List.mem_cons,
    List.not_mem_nil, or_false]
  omega

/-- `validate_pred()` in the words of R281: kind 1 passes the last four checks. -/
theorem PredConfig.invalid?_eq (p : PredConfig) (params : Params) :
    p.invalid? params =
      if p.kind ∉ [1, 2, 10, 11, 12, 13, 14, 15] then some .predBadKind
      else if p.kind ≠ 1 ∧ p.colors ∉ [1, 2, 3, 4] then some .predBadColors
      else if p.kind ≠ 1 ∧ p.bpc ∉ [1, 2, 4, 8, 16] then some .predBadBpc
      else if p.kind ≠ 1 ∧ p.columns = 0 then some .predBadColumns
      else if p.kind ≠ 1 ∧ params.lineCap.any (fun cap => cap < (p.columns * p.colors * p.bpc + 7) / 8) = true then
        some .predRowTooLong
      else none := by
  have hcolors : ¬(1 ≤ p.colors ∧ p.colors ≤ 4) ↔ p.colors ∉ [1, 2, 3, 4] := by
    simp only [List.mem_cons, List.not_mem_nil, or_false]
    omega
  simp only [invalid?, p.kindOk_eq_false_iff, hcolors, Params.rowTooLong_eq, p.bpr_eq]
  by_cases hone : p.kind = 1
  · simp [hone]
  · simp only [hone, if_false, ne_eq, not_false_eq_true, true_and]

/-- The configuration predicts: a TIFF or PNG kind, at least one component, and rows and pixels of at least one byte. -/
structure PredConfig.Predicts (p : PredConfig) : Prop where
  kind : p.kind = 2 ∨ 10 ≤ p.kind ∧ p.kind ≤ 15
  one_le_colors : 1 ≤ p.colors
  bpr_pos : 0 < p.bpr
  bpp_pos : 0 < p.bpp

theorem PredConfig.Predicts.kind_ne_one {p : PredConfig} (h : p.Predicts) : p.kind ≠ 1 := by
  have := h.kind
  omega

theorem PredConfig.predicts_of_valid {p : PredConfig} {params : Params} (h : p.invalid? params = none) (hk : p.kind ≠ 1) :
    p.Predicts := by
  rw [invalid?_eq] at h
  split_ifs at h with hkind hcolors hbpc hcolumns
  simp only [hk, ne_eq, not_false_eq_true, true_and, not_not, List.mem_cons, List.not_mem_nil, or_false, false_or]
    at hkind hcolors hbpc hcolumns
  have hcolors0 : 0 < p.colors := by omega
  have hbpc0 : 0 < p.bpc := by omega
  have hcolumns0 : 0 < p.columns := by omega
  refine ⟨by omega, hcolors0, ?_, ?_⟩
  · have : 0 < p.columns * p.colors * p.bpc := by positivity
    rw [bpr_eq]
    omega
  · have : 0 < p.colors * p.bpc := by positivity
    rw [bpp_eq]
    omega

theorem PredConfig.badPlainLength_eq_true_iff (p : PredConfig) (inp : List Byte) :
    p.badPlainLength inp = true ↔ p.kind ≠ 1 ∧ inp.length % p.bpr ≠ 0 := by
  simp [badPlainLength]

end Sys2Proof.Machine
end

section
/-! PROOF. pixel_predictor_engine, TIFF rows (spec/43_predictor.md R284 to R287): a row as its samples and its pad bits, the
differences PRED.PRE stores, and that running sums undo them. -/

namespace Sys2Proof.Machine

/-! ## Samples in a bit string (R284) -/

@[simp] theorem rowSamples_length (bpc n : Nat) (bits : List Bool) : (rowSamples bpc n bits).length = n := by
  induction n generalizing bits with
  | zero => rfl
  | succ n ih => rw [rowSamples, List.length_cons, ih]

theorem rowSamples_getElem (bpc : Nat) {n : Nat} (bits : List Bool) {j : Nat} (hj : j < (rowSamples bpc n bits).length) :
    (rowSamples bpc n bits)[j] = natOfBits ((bits.drop (j * bpc)).take bpc) := by
  induction n generalizing bits j with
  | zero => simp at hj
  | succ n ih =>
    cases j with
    | zero => simp [rowSamples]
    | succ j => simp [rowSamples, ih, Nat.succ_mul, Nat.add_comm]

theorem lt_two_pow_of_mem_rowSamples {bpc n : Nat} {bits : List Bool} : ∀ v ∈ rowSamples bpc n bits, v < 2 ^ bpc := by
  intro v hv
  obtain ⟨j, hj, rfl⟩ := List.getElem_of_mem hv
  rw [rowSamples_getElem]
  exact Nat.lt_of_lt_of_le (natOfBits_lt _) (Nat.pow_le_pow_right (by omega) (List.length_take_le _ _))

@[simp] theorem flatMap_lowBits_length (bpc : Nat) (samples : List Nat) :
    (samples.flatMap fun v => lowBits v bpc).length = samples.length * bpc := by
  simp [List.length_flatMap]

/-- Samples that fit their width read back from the bits they are packed into. -/
theorem rowSamples_flatMap_lowBits {bpc : Nat} {samples : List Nat} (h : ∀ v ∈ samples, v < 2 ^ bpc) (pad : List Bool) :
    rowSamples bpc samples.length (samples.flatMap (fun v => lowBits v bpc) ++ pad) = samples := by
  induction samples with
  | nil => rfl
  | cons v vs ih =>
    rw [List.flatMap_cons, List.append_assoc, List.length_cons, rowSamples, List.take_left' (lowBits_length v bpc),
      List.drop_left' (lowBits_length v bpc), natOfBits_lowBits, Nat.mod_eq_of_lt (h v List.mem_cons_self),
      ih fun w hw => h w (List.mem_cons_of_mem v hw)]

/-- A bit string's samples, packed again, are its bits up to the last sample's. -/
theorem flatMap_lowBits_rowSamples {bpc n : Nat} {bits : List Bool} (h : n * bpc ≤ bits.length) :
    (rowSamples bpc n bits).flatMap (fun v => lowBits v bpc) = bits.take (n * bpc) := by
  induction n generalizing bits with
  | zero => simp [rowSamples]
  | succ n ih =>
    rw [Nat.succ_mul] at h ⊢
    have hfirst : lowBits (natOfBits (bits.take bpc)) bpc = bits.take bpc := by
      have := lowBits_natOfBits (bits.take bpc)
      rwa [List.length_take, Nat.min_eq_left (by omega)] at this
    rw [rowSamples, List.flatMap_cons, hfirst, ih (by rw [List.length_drop]; omega), Nat.add_comm, List.take_add]

/-! ## A row as samples and pad bits (R284) -/

/-- The samples of a row. -/
def PredConfig.samples (p : PredConfig) (row : List Byte) : List Nat := rowSamples p.bpc p.spr (bitsOf row)

/-- The row's pad bits. -/
def PredConfig.padBits (p : PredConfig) (row : List Byte) : List Bool := (bitsOf row).drop (p.spr * p.bpc)

/-- The row with other samples and the same pad bits. -/
def PredConfig.withSamples (p : PredConfig) (row : List Byte) (samples : List Nat) : List Byte :=
  packRow p.bpc samples (p.padBits row)

theorem tiffPre_eq (p : PredConfig) (row : List Byte) :
    tiffPre p row = p.withSamples row (tiffDiffs p.colors p.bpc (p.samples row)) := rfl

theorem tiffPost_eq (p : PredConfig) (row : List Byte) :
    tiffPost p row = p.withSamples row (tiffSums p.colors p.bpc [] (p.samples row)) := rfl

@[simp] theorem PredConfig.samples_length (p : PredConfig) (row : List Byte) : (p.samples row).length = p.spr :=
  rowSamples_length _ _ _

theorem PredConfig.spr_mul_bpc_le (p : PredConfig) : p.spr * p.bpc ≤ 8 * p.bpr := by
  unfold spr bpr ceilDiv
  omega

section
variable {p : PredConfig} {row : List Byte} {samples : List Nat}

/-- A whole row's samples and pad bits fill whole bytes, so packing adds no bit. -/
theorem PredConfig.bitsOf_withSamples (hrow : row.length = p.bpr) (hs : samples.length = p.spr) :
    bitsOf (p.withSamples row samples) = samples.flatMap (fun v => lowBits v p.bpc) ++ p.padBits row := by
  have hlen : (samples.flatMap (fun v => lowBits v p.bpc) ++ p.padBits row).length = 8 * p.bpr := by
    have := p.spr_mul_bpc_le
    rw [List.length_append, flatMap_lowBits_length, hs, padBits, List.length_drop, bitsOf_length, hrow]
    omega
  have hpad : alignPad (8 * p.bpr) = [] := by
    have : 8 * ceilDiv (8 * p.bpr) 8 - 8 * p.bpr = 0 := by unfold ceilDiv; omega
    rw [alignPad, this, zeroBits, List.replicate_zero]
  rw [withSamples, packRow, bitsOf_packBits, hlen, hpad, List.append_nil]

theorem PredConfig.withSamples_length (hrow : row.length = p.bpr) (hs : samples.length = p.spr) :
    (p.withSamples row samples).length = row.length := by
  have hbits := congrArg List.length (bitsOf_withSamples hrow hs)
  have := p.spr_mul_bpc_le
  rw [bitsOf_length, List.length_append, flatMap_lowBits_length, hs, padBits, List.length_drop, bitsOf_length] at hbits
  omega

theorem PredConfig.padBits_withSamples (hrow : row.length = p.bpr) (hs : samples.length = p.spr) :
    p.padBits (p.withSamples row samples) = p.padBits row := by
  rw [padBits, bitsOf_withSamples hrow hs, List.drop_left' (by rw [flatMap_lowBits_length, hs])]

theorem PredConfig.samples_withSamples (hrow : row.length = p.bpr) (hs : samples.length = p.spr)
    (hlt : ∀ v ∈ samples, v < 2 ^ p.bpc) : p.samples (p.withSamples row samples) = samples := by
  rw [PredConfig.samples, bitsOf_withSamples hrow hs, ← hs, rowSamples_flatMap_lowBits hlt]

theorem PredConfig.withSamples_withSamples (hrow : row.length = p.bpr) (hs : samples.length = p.spr) (other : List Nat) :
    p.withSamples (p.withSamples row samples) other = p.withSamples row other := by
  rw [withSamples, padBits_withSamples hrow hs, withSamples]

theorem PredConfig.withSamples_samples (hrow : row.length = p.bpr) : p.withSamples row (p.samples row) = row := by
  have hfit : p.spr * p.bpc ≤ (bitsOf row).length := by rw [bitsOf_length, hrow]; exact p.spr_mul_bpc_le
  rw [withSamples, packRow, PredConfig.samples, flatMap_lowBits_rowSamples hfit, padBits, List.take_append_drop,
    packBits_bitsOf]

end

/-! ## Differences and running sums (R286, R287) -/

@[simp] theorem tiffDiffs_length (colors bpc : Nat) (s : List Nat) : (tiffDiffs colors bpc s).length = s.length := by
  simp [tiffDiffs]

theorem tiffDiffs_getElem (colors bpc : Nat) {s : List Nat} {j : Nat} (hj : j < s.length) :
    (tiffDiffs colors bpc s)[j]'(by simpa) = if j < colors then s[j] else (s[j] + 2 ^ bpc - s[j - colors]) % 2 ^ bpc := by
  have hprev : j - colors < s.length := by omega
  simp [tiffDiffs, hj, hprev]

theorem tiffDiffs_lt {colors bpc : Nat} {s : List Nat} (h : ∀ v ∈ s, v < 2 ^ bpc) :
    ∀ v ∈ tiffDiffs colors bpc s, v < 2 ^ bpc := by
  intro v hv
  obtain ⟨j, hj, rfl⟩ := List.getElem_of_mem hv
  rw [tiffDiffs_length] at hj
  rw [tiffDiffs_getElem _ _ hj]
  split
  · exact h _ (List.getElem_mem hj)
  · exact Nat.mod_lt _ (by positivity)

@[simp] theorem tiffSums_length (colors bpc : Nat) (acc ds : List Nat) :
    (tiffSums colors bpc acc ds).length = acc.length + ds.length := by
  induction ds generalizing acc with
  | nil => rfl
  | cons d ds ih => rw [tiffSums, ih]; simp; omega

/-- Adding the sample a difference was taken from gives the sample back. -/
theorem mod_sub_add_mod {v w m : Nat} (hv : v < m) (hw : w < m) : ((v + m - w) % m + w) % m = v := by
  rw [Nat.mod_add_mod, Nat.sub_add_cancel (by omega), Nat.add_mod_right, Nat.mod_eq_of_lt hv]

/-- From any sample on, the running sums of the differences go on with the samples themselves. -/
theorem tiffSums_drop_tiffDiffs {colors bpc : Nat} (hcolors : 1 ≤ colors) {s : List Nat} (h : ∀ v ∈ s, v < 2 ^ bpc)
    {n k : Nat} (hn : n + k = s.length) :
    tiffSums colors bpc (s.take n) ((tiffDiffs colors bpc s).drop n) = s := by
  induction k generalizing n with
  | zero => rw [List.drop_of_length_le (by simp; omega), tiffSums, List.take_of_length_le (by omega)]
  | succ k ih =>
    have hlt : n < s.length := by omega
    have hlen : (s.take n).length = n := by rw [List.length_take]; omega
    rw [List.drop_eq_getElem_cons (by simpa), tiffSums, hlen, tiffDiffs_getElem _ _ hlt]
    have hstep : (if n < colors then (if n < colors then s[n] else (s[n] + 2 ^ bpc - s[n - colors]) % 2 ^ bpc)
        else ((if n < colors then s[n] else (s[n] + 2 ^ bpc - s[n - colors]) % 2 ^ bpc) +
          (s.take n).getD (n - colors) 0) % 2 ^ bpc) = s[n] := by
      split
      · rfl
      · have hprev : (s.take n).getD (n - colors) 0 = s[n - colors] := by
          rw [List.getD_eq_getElem _ _ (by omega), List.getElem_take]
        rw [hprev, mod_sub_add_mod (h _ (List.getElem_mem _)) (h _ (List.getElem_mem _))]
    rw [hstep, ← List.take_succ_eq_append_getElem hlt]
    exact ih (by omega)

/-- TIFF post-prediction undoes TIFF pre-prediction of a whole row. -/
theorem tiffPost_tiffPre {p : PredConfig} (hcolors : 1 ≤ p.colors) {row : List Byte} (hrow : row.length = p.bpr) :
    tiffPost p (tiffPre p row) = row := by
  have hdiffs : (tiffDiffs p.colors p.bpc (p.samples row)).length = p.spr := by simp
  have hlt : ∀ v ∈ p.samples row, v < 2 ^ p.bpc := lt_two_pow_of_mem_rowSamples
  have hsums : tiffSums p.colors p.bpc [] (tiffDiffs p.colors p.bpc (p.samples row)) = p.samples row :=
    tiffSums_drop_tiffDiffs hcolors hlt (Nat.zero_add _)
  rw [tiffPost_eq, tiffPre_eq, p.samples_withSamples hrow hdiffs (tiffDiffs_lt hlt), p.withSamples_withSamples hrow hdiffs,
    hsums, p.withSamples_samples hrow]

theorem tiffPre_length {p : PredConfig} {row : List Byte} (hrow : row.length = p.bpr) :
    (tiffPre p row).length = row.length := by
  rw [tiffPre_eq, p.withSamples_length hrow (by simp)]

theorem tiffPost_length {p : PredConfig} {row : List Byte} (hrow : row.length = p.bpr) :
    (tiffPost p row).length = row.length := by
  rw [tiffPost_eq, p.withSamples_length hrow (by simp)]

/-- Settles O41: the row's samples become their differences, and its length and pad bits stay. -/
theorem tiffStoresSampleDifferences : Obligations.TiffStoresSampleDifferences := by
  intro p row hcolors _ hrow
  have hdiffs : (tiffDiffs p.colors p.bpc (p.samples row)).length = p.spr := by simp
  have hlt : ∀ v ∈ p.samples row, v < 2 ^ p.bpc := lt_two_pow_of_mem_rowSamples
  have hstored := p.samples_withSamples hrow hdiffs (tiffDiffs_lt hlt)
  have hsample : ∀ (r : List Byte) {j : Nat} (hj : j < p.spr),
      natOfBits (((bitsOf r).drop (j * p.bpc)).take p.bpc) = (p.samples r)[j]'(by simpa) :=
    fun r _ _ => (rowSamples_getElem _ _ _).symm
  refine ⟨tiffPre_length hrow, fun j hj => ?_, p.padBits_withSamples hrow hdiffs⟩
  have hprev : j - p.colors < p.spr := by omega
  have hle : (p.samples row)[j - p.colors]'(by simpa) < 2 ^ p.bpc := hlt _ (List.getElem_mem _)
  simp only [hsample _ hj, hsample _ hprev, tiffPre_eq, hstored]
  rw [tiffDiffs_getElem _ _ (by simpa)]
  split
  · rfl
  · have hcast : (((p.samples row)[j]'(by simpa) + 2 ^ p.bpc - (p.samples row)[j - p.colors]'(by simpa) : Nat) : Int) =
        (p.samples row)[j]'(by simpa) - (p.samples row)[j - p.colors]'(by simpa) + 2 ^ p.bpc := by
      push_cast [Nat.le_add_left_of_le hle.le]
      ring
    rw [Int.natCast_mod, hcast]
    push_cast
    rw [Int.add_emod_right]

end Sys2Proof.Machine
end

section
/-! PROOF. pixel_predictor_engine, PNG rows (spec/43_predictor.md R288 to R293): the Paeth predictor, the filtered bytes of
a row, and that reconstruction undoes every filter type. -/

namespace Sys2Proof.Machine

/-- Settles O42: the two comparisons of `paeth` in the order of R289's ties. -/
theorem paethPicksClosestNeighbour : Obligations.PaethPicksClosestNeighbour := by
  intro a b c d
  refine ⟨fun hab hac => ?_, fun hba hbc => ?_, fun hca hcb => ?_⟩
  · exact if_pos ⟨hab, hac⟩
  · exact (if_neg fun h => (Nat.not_le.2 hba) h.1).trans (if_pos hbc)
  · exact (if_neg fun h => (Nat.not_le.2 hca) h.2).trans (if_neg (Nat.not_le.2 hcb))

/-- R289's table as a list, one entry per tag. -/
theorem pngPrediction_eq_getD {t : Nat} (ht : t ≤ 4) (a b c : Nat) :
    pngPrediction t a b c = [0, a, b, (a + b) / 2, paeth a b c].getD t 0 := by
  interval_cases t <;> rfl

/-! ## The filtered bytes of a row (R291) -/

/-- The bytes of a row less their predictions. -/
def pngFiltered (t bpp : Nat) (up x : List Byte) : List Byte :=
  (List.range x.length).map fun i => x.getD i 0 - BitVec.ofNat 8 (pngPredict t bpp x up i)

theorem pngPre_eq (t bpp : Nat) (up x : List Byte) : pngPre t bpp up x = BitVec.ofNat 8 t :: pngFiltered t bpp up x := rfl

@[simp] theorem pngFiltered_length (t bpp : Nat) (up x : List Byte) : (pngFiltered t bpp up x).length = x.length := by
  simp [pngFiltered]

theorem pngFiltered_getElem? (t bpp : Nat) (up : List Byte) {x : List Byte} {i : Nat} (hi : i < x.length) :
    (pngFiltered t bpp up x)[i]? = some (x.getD i 0 - BitVec.ofNat 8 (pngPredict t bpp x up i)) := by
  simp [pngFiltered, hi]

/-- Byte arithmetic modulo 256 (R291). -/
theorem toNat_sub_ofNat (v : Byte) (n : Nat) : ((v - BitVec.ofNat 8 n).toNat : Int) = ((v.toNat : Int) - n) % 256 := by
  rw [BitVec.toNat_sub, BitVec.toNat_ofNat]
  omega

/-! ## Reconstruction (R293) -/

theorem rowByte_take {x : List Byte} {i n : Nat} (h : i < n) : rowByte (x.take n) i = rowByte x i := by
  simp [rowByte, h]

/-- The prediction of byte `n` reads its own row only before `n`. -/
theorem pngPredict_take {bpp : Nat} (hbpp : 0 < bpp) (t : Nat) (x up : List Byte) (n : Nat) :
    pngPredict t bpp (x.take n) up n = pngPredict t bpp x up n := by
  unfold pngPredict
  split
  · rw [rowByte_take (by omega)]
  · rfl

@[simp] theorem pngPost_length (t bpp : Nat) (up acc ys : List Byte) :
    (pngPost t bpp up acc ys).length = acc.length + ys.length := by
  induction ys generalizing acc with
  | nil => rfl
  | cons y ys ih => rw [pngPost, ih]; simp; omega

/-- From any byte on, reconstruction of the filtered bytes goes on with the row's own bytes. -/
theorem pngPost_drop_pngFiltered {bpp : Nat} (hbpp : 0 < bpp) (t : Nat) (up : List Byte) {x : List Byte} {n k : Nat}
    (hn : n + k = x.length) : pngPost t bpp up (x.take n) ((pngFiltered t bpp up x).drop n) = x := by
  induction k generalizing n with
  | zero => rw [List.drop_of_length_le (by simp; omega), pngPost, List.take_of_length_le (by omega)]
  | succ k ih =>
    have hlt : n < x.length := by omega
    have hlen : (x.take n).length = n := by rw [List.length_take]; omega
    have hbyte : (pngFiltered t bpp up x)[n]'(by simpa) = x[n] - BitVec.ofNat 8 (pngPredict t bpp x up n) := by
      simp [pngFiltered, hlt]
    rw [List.drop_eq_getElem_cons (by simpa), pngPost, hlen, pngPredict_take hbpp, hbyte, BitVec.sub_add_cancel,
      ← List.take_succ_eq_append_getElem hlt]
    exact ih (by omega)

/-- PNG post-prediction undoes PNG pre-prediction of a row. -/
theorem pngPost_pngFiltered {bpp : Nat} (hbpp : 0 < bpp) (t : Nat) (up x : List Byte) :
    pngPost t bpp up [] (pngFiltered t bpp up x) = x :=
  pngPost_drop_pngFiltered hbpp t up (Nat.zero_add _)

end Sys2Proof.Machine
end

section
/-! PROOF. pixel_predictor_engine, whole buffers (spec/43_predictor.md R283, R292, R295 to R298): rows of a buffer, what
PRED.PRE writes for each, and what the stage of PRED.POST and LZW.DEC does with whole rows and with parts of one. -/

namespace Sys2Proof.Machine

/-! ## Rows of a buffer (R283) -/

/-- Row `r` of a buffer of rows of `n` bytes. -/
def rowAt (n : Nat) (l : List Byte) (r : Nat) : List Byte := (l.drop (r * n)).take n

theorem rowAt_succ (n : Nat) (l : List Byte) (r : Nat) : rowAt n l (r + 1) = rowAt n (l.drop n) r := by
  rw [rowAt, rowAt, List.drop_drop, Nat.succ_mul, Nat.add_comm]

theorem rowAt_length {n r rows : Nat} {l : List Byte} (hl : l.length = rows * n) (hr : r < rows) :
    (rowAt n l r).length = n := by
  have : (r + 1) * n ≤ rows * n := Nat.mul_le_mul_right n hr
  rw [Nat.succ_mul] at this
  rw [rowAt, List.length_take, List.length_drop]
  omega

theorem rowByte_rowAt {n i : Nat} (hi : i < n) (l : List Byte) (r : Nat) :
    rowByte (rowAt n l r) i = (l.getD (r * n + i) 0).toNat := by
  simp [rowByte, rowAt, hi]

/-- The pieces of whole rows are the rows. -/
theorem pieces_eq_map_rowAt {n rows : Nat} (hn : 0 < n) {l : List Byte} (hl : l.length = rows * n) :
    pieces n l = (List.range rows).map (rowAt n l) := by
  induction rows generalizing l with
  | zero =>
    rw [Nat.zero_mul, List.length_eq_zero_iff] at hl
    rw [hl]
    rfl
  | succ rows ih =>
    rw [Nat.succ_mul] at hl
    have hne : l ≠ [] := List.ne_nil_of_length_pos (by omega)
    have hfirst : rowAt n l 0 = l.take n := by rw [rowAt, Nat.zero_mul, List.drop_zero]
    rw [pieces_eq hn hne, ih (by rw [List.length_drop]; omega), List.range_succ_eq_map, List.map_cons, hfirst,
      List.map_map]
    simp only [Function.comp_def, rowAt_succ]

theorem length_of_mem_pieces {n rows : Nat} (hn : 0 < n) {l row : List Byte} (hl : l.length = rows * n)
    (hrow : row ∈ pieces n l) : row.length = n := by
  rw [pieces_eq_map_rowAt hn hl] at hrow
  obtain ⟨r, hr, rfl⟩ := List.mem_map.1 hrow
  exact rowAt_length hl (List.mem_range.1 hr)

theorem pieces_length {n rows : Nat} (hn : 0 < n) {l : List Byte} (hl : l.length = rows * n) :
    (pieces n l).length = rows := by
  simp [pieces_eq_map_rowAt hn hl]

/-! ## One row each way -/

/-- What PRED.PRE writes for a row (R292). -/
def preRow (p : PredConfig) (up x : List Byte) : List Byte :=
  if p.kind = 2 then tiffPre p x else pngPre p.preTag p.bpp up x

theorem preRows_cons (p : PredConfig) (up x : List Byte) (rest : List (List Byte)) :
    preRows p up (x :: rest) = preRow p up x ++ preRows p x rest := rfl

/-- A complete row of the stage's input: of the full size and, under a PNG kind, with a known tag (R294). -/
structure PredConfig.WholeRow (p : PredConfig) (row : List Byte) : Prop where
  length : row.length = p.postRowSize
  tag : 10 ≤ p.kind → rowByte row 0 ≤ 4

section
variable {p : PredConfig} (hp : p.Predicts)
include hp

theorem PredConfig.Predicts.postRowSize_pos : 0 < p.postRowSize := by
  have := hp.bpr_pos
  unfold PredConfig.postRowSize
  split <;> omega

theorem PredConfig.Predicts.preTag_le : p.preTag ≤ 4 := by
  have := hp.kind
  unfold PredConfig.preTag
  split <;> omega

theorem wholeRow_preRow (up : List Byte) {x : List Byte} (hx : x.length = p.bpr) : p.WholeRow (preRow p up x) := by
  by_cases hk : p.kind = 2
  · rw [preRow, if_pos hk]
    exact ⟨by rw [tiffPre_length hx, hx, PredConfig.postRowSize, if_pos hk], fun h => by omega⟩
  · rw [preRow, if_neg hk, pngPre_eq]
    refine ⟨by simp [PredConfig.postRowSize, hk, hx], fun _ => ?_⟩
    have := hp.preTag_le
    simp only [rowByte, List.getD_cons_zero, BitVec.toNat_ofNat]
    omega

theorem postRow_preRow (up : List Byte) {x : List Byte} (hx : x.length = p.bpr) : postRow p up (preRow p up x) = x := by
  by_cases hk : p.kind = 2
  · rw [preRow, postRow, if_pos hk, if_pos hk, tiffPost_tiffPre hp.one_le_colors hx]
  · have htag : rowByte (pngPre p.preTag p.bpp up x) 0 = p.preTag := by
      have := hp.preTag_le
      simp only [pngPre_eq, rowByte, List.getD_cons_zero, BitVec.toNat_ofNat]
      omega
    rw [preRow, postRow, if_neg hk, if_neg hk, htag, pngPre_eq, List.drop_succ_cons, List.drop_zero,
      pngPost_pngFiltered hp.bpp_pos]

end

theorem postRow_length {p : PredConfig} {row : List Byte} (hrow : p.WholeRow row) (up : List Byte) :
    (postRow p up row).length = p.bpr := by
  have hlen := hrow.length
  rw [PredConfig.postRowSize] at hlen
  unfold postRow
  split at hlen
  next hk => rw [if_pos hk, tiffPost_length hlen, hlen]
  next hk => rw [if_neg hk, pngPost_length, List.length_drop, hlen]; simp

/-! ## The stage, byte by byte (R296) -/

section
variable {p : PredConfig} {lenient : Bool} {fault : Option (Cause × Nat)}

theorem postStage_nil (st : PostState) :
    postStage p lenient none st [] = if st.row ≠ [] then .raised .predBadLength (st.q - st.row.length) else .done := rfl

theorem postStage_cons_identity (hk : p.kind = 1) (st : PostState) (v : Byte) (vs : List Byte) :
    postStage p lenient fault st (v :: vs) =
      .emitting [v] (postStage p lenient fault { st with q := st.q + 1 } vs) := by
  rw [postStage.eq_def]
  exact if_pos hk

theorem postStage_cons (hk : p.kind ≠ 1) (st : PostState) (v : Byte) (vs : List Byte) :
    postStage p lenient fault st (v :: vs) =
      if (st.row ++ [v]).length = 1 ∧ 10 ≤ p.kind ∧ 4 < v.toNat then
        if lenient then ⟨[], .lenient st.q⟩ else .raised .predBadPngTag st.q
      else if (st.row ++ [v]).length = p.postRowSize then
        .emitting (postRow p st.up (st.row ++ [v]))
          (postStage p lenient fault ⟨st.q + 1, [], postRow p st.up (st.row ++ [v])⟩ vs)
      else postStage p lenient fault ⟨st.q + 1, st.row ++ [v], st.up⟩ vs := by
  rw [postStage.eq_def]
  exact if_neg hk

/-- The stage raises the feeding unit's error or one of its own two (R296, R297). -/
theorem postStage_cause {st : PostState} {data : List Byte} {c : Cause} {pos : Nat}
    (h : (postStage p lenient fault st data).ending = .error c pos) :
    fault = some (c, pos) ∨ c = .predBadLength ∨ c = .predBadPngTag := by
  induction data generalizing st with
  | nil =>
    rcases fault with - | ⟨c', pos'⟩
    · rw [postStage_nil] at h
      split at h <;> cases h
      exact .inr (.inl rfl)
    · cases h
      exact .inl rfl
  | cons v vs ih =>
    by_cases hk : p.kind = 1
    · rw [postStage_cons_identity hk] at h
      exact ih h
    · rw [postStage_cons hk] at h
      split at h
      · split at h <;> cases h
        exact .inr (.inr rfl)
      · split at h <;> exact ih h

/-- Without prediction the stage passes its input on (R282). -/
theorem postStage_identity (hk : p.kind = 1) {st : PostState} (hrow : st.row = []) (data : List Byte) :
    postStage p lenient none st data = ⟨data, .success⟩ := by
  induction data generalizing st with
  | nil => rw [postStage_nil, if_neg (not_not_intro hrow)]; rfl
  | cons v vs ih =>
    rw [postStage_cons_identity hk]
    exact congrArg (JobResult.emitting [v]) (ih (st := { st with q := st.q + 1 }) hrow)

section
variable (hp : p.Predicts)
include hp

/-- A byte that does not begin a row with an unknown tag joins the row. -/
theorem postStage_cons_of_tag (q : Nat) (up row : List Byte) (v : Byte) (vs : List Byte)
    (htag : 10 ≤ p.kind → rowByte (row ++ [v]) 0 ≤ 4) :
    postStage p lenient fault ⟨q, row, up⟩ (v :: vs) =
      if (row ++ [v]).length = p.postRowSize then
        .emitting (postRow p up (row ++ [v])) (postStage p lenient fault ⟨q + 1, [], postRow p up (row ++ [v])⟩ vs)
      else postStage p lenient fault ⟨q + 1, row ++ [v], up⟩ vs := by
  rw [postStage_cons hp.kind_ne_one, if_neg]
  rintro ⟨hlen, hpng, hv⟩
  obtain rfl : row = [] := by simpa using hlen
  exact Nat.not_lt.2 (htag hpng) hv

/-- Bytes that do not complete the row join it. -/
theorem postStage_append_partial {up row vs : List Byte} (q : Nat) (rest : List Byte)
    (hlen : (row ++ vs).length < p.postRowSize) (htag : 10 ≤ p.kind → rowByte (row ++ vs) 0 ≤ 4) :
    postStage p lenient fault ⟨q, row, up⟩ (vs ++ rest) =
      postStage p lenient fault ⟨q + vs.length, row ++ vs, up⟩ rest := by
  induction vs generalizing q row with
  | nil => simp
  | cons v vs ih =>
    rw [List.append_cons] at hlen htag
    have hv : 10 ≤ p.kind → rowByte (row ++ [v]) 0 ≤ 4 := by
      cases row <;> exact htag
    rw [List.cons_append, postStage_cons_of_tag hp _ _ _ _ _ hv, if_neg (by simp at hlen ⊢; omega), ih _ hlen htag]
    simp [Nat.add_assoc, Nat.add_comm 1]

/-- A complete row is reconstructed and put out, and the stage begins the next one. -/
theorem postStage_wholeRow {row : List Byte} (hrow : p.WholeRow row) (q : Nat) (up rest : List Byte) :
    postStage p lenient fault ⟨q, [], up⟩ (row ++ rest) =
      .emitting (postRow p up row) (postStage p lenient fault ⟨q + row.length, [], postRow p up row⟩ rest) := by
  obtain ⟨hlen, htag⟩ := hrow
  have hpos := hp.postRowSize_pos
  obtain rfl | ⟨begun, v, rfl⟩ := row.eq_nil_or_concat'
  · simp at hlen
    omega
  · have hbegun : 10 ≤ p.kind → rowByte ([] ++ begun) 0 ≤ 4 := by
      cases begun with
      | nil => exact fun _ => Nat.zero_le _
      | cons b bs => exact htag
    rw [List.append_assoc, postStage_append_partial hp q _ (by simp at hlen ⊢; omega) hbegun, List.singleton_append,
      List.nil_append, postStage_cons_of_tag hp _ _ _ _ _ htag, if_pos hlen, List.length_append, List.length_singleton,
      Nat.add_assoc]

end
end

end Sys2Proof.Machine
end

section
/-! PROOF. pixel_predictor_engine, the statements about PRED.PRE and PRED.POST (spec/43_predictor.md R290 to R298): whole
buffers of rows through both commands. -/

namespace Sys2Proof.Machine

/-! ## The stage over whole rows (R295, R296) -/

/-- The rows reconstructed one after another, each against the one before it. -/
def postRows (p : PredConfig) (up : List Byte) : List (List Byte) → List Byte
  | [] => []
  | row :: rest => postRow p up row ++ postRows p (postRow p up row) rest

theorem postRows_length {p : PredConfig} {rows : List (List Byte)} (hrows : ∀ row ∈ rows, p.WholeRow row)
    (up : List Byte) : (postRows p up rows).length = rows.length * p.bpr := by
  induction rows generalizing up with
  | nil => simp [postRows]
  | cons row rest ih =>
    obtain ⟨hrow, hrest⟩ := List.forall_mem_cons.1 hrows
    rw [postRows, List.length_append, postRow_length hrow, ih hrest, List.length_cons, Nat.succ_mul, Nat.add_comm]

section
variable {p : PredConfig} {lenient : Bool} (hp : p.Predicts)
include hp

theorem postStage_wholeRows {fault : Option (Cause × Nat)} {rows : List (List Byte)}
    (hrows : ∀ row ∈ rows, p.WholeRow row) (q : Nat) (up : List Byte) :
    ∃ last, ∀ rest, postStage p lenient fault ⟨q, [], up⟩ (rows.flatten ++ rest) =
      .emitting (postRows p up rows) (postStage p lenient fault ⟨q + rows.flatten.length, [], last⟩ rest) := by
  induction rows generalizing q up with
  | nil => exact ⟨up, fun _ => rfl⟩
  | cons row tail ih =>
    obtain ⟨hrow, htail⟩ := List.forall_mem_cons.1 hrows
    obtain ⟨last, hlast⟩ := ih htail (q + row.length) (postRow p up row)
    refine ⟨last, fun rest => ?_⟩
    rw [List.flatten_cons, List.append_assoc, postStage_wholeRow hp hrow, hlast, List.length_append, ← Nat.add_assoc]
    simp [JobResult.emitting, postRows]

/-- The first `n` rows of an input, if they are complete and their tags known: the stage reconstructs them, alone or
before whatever follows. -/
theorem postStage_firstRows {n : Nat} {inp : List Byte} (hn : n * p.postRowSize ≤ inp.length)
    (htags : 10 ≤ p.kind → ∀ r < n, (inp.getD (r * p.postRowSize) 0).toNat ≤ 4) :
    ∃ out last, out.length = n * p.bpr ∧
      postStage p lenient none .init (inp.take (n * p.postRowSize)) = ⟨out, .success⟩ ∧
      ∀ rest, postStage p lenient none .init (inp.take (n * p.postRowSize) ++ rest) =
        .emitting out (postStage p lenient none ⟨n * p.postRowSize, [], last⟩ rest) := by
  have hpos := hp.postRowSize_pos
  have hlen : (inp.take (n * p.postRowSize)).length = n * p.postRowSize := by rw [List.length_take, Nat.min_eq_left hn]
  have hrows : ∀ row ∈ pieces p.postRowSize (inp.take (n * p.postRowSize)), p.WholeRow row := by
    intro row hrow
    refine ⟨length_of_mem_pieces hpos hlen hrow, fun hpng => ?_⟩
    rw [pieces_eq_map_rowAt hpos hlen] at hrow
    obtain ⟨r, hr, rfl⟩ := List.mem_map.1 hrow
    have hr := List.mem_range.1 hr
    have hbefore : r * p.postRowSize < n * p.postRowSize := Nat.mul_lt_mul_of_pos_right hr hpos
    rw [rowByte_rowAt hpos]
    simpa [List.getElem?_take, hbefore] using htags hpng r hr
  obtain ⟨last, hlast⟩ := postStage_wholeRows (lenient := lenient) (fault := none) hp hrows 0 []
  rw [pieces_flatten hpos, hlen, Nat.zero_add] at hlast
  refine ⟨_, last, ?_, ?_, hlast⟩
  · rw [postRows_length hrows, pieces_length hpos hlen]
  · have h := hlast []
    rw [List.append_nil, postStage_nil] at h
    simpa [JobResult.emitting, JobResult.done, PostState.init] using h

/-- The stage gives the rows back from what PRED.PRE writes for them. -/
theorem postStage_preRows {rows : List (List Byte)} (hrows : ∀ x ∈ rows, x.length = p.bpr) (q : Nat) (up : List Byte) :
    postStage p lenient none ⟨q, [], up⟩ (preRows p up rows) = ⟨rows.flatten, .success⟩ := by
  induction rows generalizing q up with
  | nil => rfl
  | cons x rest ih =>
    obtain ⟨hx, hrest⟩ := List.forall_mem_cons.1 hrows
    rw [preRows_cons, postStage_wholeRow hp (wholeRow_preRow hp up hx), postRow_preRow hp up hx, ih hrest]
    rfl

end

/-- The stage gives the input back from the predicted bytes (R298), for LZW.DEC's use of it as for PRED.POST. -/
theorem postStage_prePredict {p : PredConfig} {params : Params} (hvalid : p.invalid? params = none) {inp : List Byte}
    (hplain : p.badPlainLength inp = false) (lenient : Bool) :
    postStage p lenient none .init (prePredict p inp) = ⟨inp, .success⟩ := by
  by_cases hk : p.kind = 1
  · rw [prePredict, if_pos hk, postStage_identity hk rfl]
  · have hp := PredConfig.predicts_of_valid hvalid hk
    have hdvd : p.bpr ∣ inp.length := by
      by_contra hdvd
      have hbad := p.badPlainLength_eq_true_iff inp |>.2 ⟨hk, fun h => hdvd (Nat.dvd_of_mod_eq_zero h)⟩
      rw [hplain] at hbad
      cases hbad
    have hlen : inp.length = inp.length / p.bpr * p.bpr := (Nat.div_mul_cancel hdvd).symm
    rw [prePredict, if_neg hk, PostState.init, postStage_preRows hp fun x hx => length_of_mem_pieces hp.bpr_pos hlen hx,
      pieces_flatten hp.bpr_pos]

/-! ## PRED.PRE and PRED.POST as codec commands -/

section
variable {s : State} (hvalid : s.predConfig.invalid? s.cfg = none)
include hvalid

theorem codecEmits_predPre_of_valid (hplain : s.predConfig.badPlainLength s.inp = false) :
    codecEmits .predPre s = ⟨prePredict s.predConfig s.inp, .success⟩ := by
  simp only [codecEmits, predPreJob, hvalid, hplain, Bool.false_eq_true, if_false]

theorem predPostJob_of_valid (inp : List Byte) :
    predPostJob s.cfg s.predConfig s.pngLenient inp = postStage s.predConfig s.pngLenient none .init inp := by
  simp only [predPostJob, hvalid]

end

/-- A lenient truncation at a place in the input is reported there: the 32 bits of ERR_POS do not cut it (log 16). -/
theorem codecTruncates_of_emits {i : Instr} {s : State} {pos : Nat} {out : List Byte} (hi : isCodec i = true)
    (hs : CodecReady s) (hjob : codecEmits i s = ⟨out, .lenient pos⟩) (hfit : out.length ≤ s.cfg.outCap)
    (hpos : pos ≤ s.inp.length) : CodecTruncates i s pos out := by
  have h := codecReportsItsJob i s hi hs (by rwa [hjob])
  have hlt : pos < 2 ^ 32 := Nat.lt_of_le_of_lt (State.inp_length s ▸ hpos) s.inLen.isLt
  simpa only [hjob, Nat.mod_eq_of_lt hlt] using h

/-- Settles O40: the stage of PRED.POST undoes what PRED.PRE's rows are. -/
theorem predictorRoundTrip : Obligations.PredictorRoundTrip := by
  intro s hs hvalid hplain hfit
  obtain ⟨t, hexec, hsucc, hleaves⟩ :=
    codecSucceeds_of_emits (i := .predPre) rfl hs (codecEmits_predPre_of_valid hvalid hplain) hfit
  refine ⟨t, hexec, hsucc, hleaves, fun u hu hconfig huvalid hinp hroom => ?_⟩
  have hjob : codecEmits .predPost u = ⟨s.inp, .success⟩ := by
    rw [codecEmits, predPostJob_of_valid huvalid, hinp, hleaves.output, hconfig, postStage_prePredict hvalid hplain]
  exact codecSucceeds_of_emits rfl hu hjob (by rwa [State.inp_length])

/-- Settles O43: behind the rows before it the unknown tag ends the job, by CTRL.PNG_LENIENT one way or the other. -/
theorem unknownPngTagFatalOrLenient : Obligations.UnknownPngTagFatalOrLenient := by
  intro s r hs hvalid hk hknown ⟨tag, htag, hunknown⟩ hroom
  have hp : s.predConfig.Predicts := PredConfig.predicts_of_valid hvalid (fun h1 : s.predKind.toNat = 1 => by omega)
  have hsize : s.predConfig.postRowSize = s.predConfig.bpr + 1 := if_neg fun h2 : s.predKind.toNat = 2 => by omega
  rw [← hsize] at hknown htag ⊢
  obtain ⟨hlt, hget⟩ := List.getElem?_eq_some_iff.1 htag
  obtain ⟨out, last, hlen, halone, hstage⟩ := postStage_firstRows (lenient := s.pngLenient) hp hlt.le fun _ j hj => by
    obtain ⟨tag', htag', hle⟩ := hknown j hj
    rwa [List.getD_eq_getElem?_getD, htag']
  have hjob : codecEmits .predPost s = .emitting out
      (if s.pngLenient then ⟨[], .lenient (r * s.predConfig.postRowSize)⟩
        else .raised .predBadPngTag (r * s.predConfig.postRowSize)) := by
    rw [codecEmits, predPostJob_of_valid hvalid, ← List.take_append_drop (r * s.predConfig.postRowSize) s.inp, hstage,
      List.drop_eq_getElem_cons hlt, hget, postStage_cons hp.kind_ne_one, if_pos ⟨rfl, hk, hunknown⟩]
  refine ⟨out, hlen, (predPostJob_of_valid hvalid _).trans halone, ?_⟩
  have hfit : out.length ≤ s.cfg.outCap := hlen.trans_le hroom
  split
  next hlenient =>
    rw [State.pngLenient, if_pos hlenient] at hjob
    exact codecTruncates_of_emits rfl hs (by simpa [JobResult.emitting] using hjob) hfit hlt.le
  next hfatal =>
    rw [State.pngLenient, if_neg hfatal] at hjob
    exact codecFails_of_emits rfl hs (by simpa [JobResult.emitting, JobResult.raised] using hjob) hfit hlt.le

/-- Settles O44: the bytes behind the complete rows are a row the stage has begun when its input ends. -/
theorem incompleteTiffRowReported : Obligations.IncompleteTiffRowReported := by
  intro s hs hvalid hk hrows hroom
  have hp : s.predConfig.Predicts := PredConfig.predicts_of_valid hvalid (fun h1 : s.predKind.toNat = 1 => by omega)
  have hsize : s.predConfig.postRowSize = s.predConfig.bpr := if_pos hk
  have hinp := State.inp_length s
  have hsplit := Nat.div_add_mod' s.inLen.toNat s.predConfig.bpr
  have hmod := Nat.mod_lt s.inLen.toNat hp.bpr_pos
  have hle : s.inLen.toNat / s.predConfig.bpr * s.predConfig.bpr ≤ s.inp.length := by omega
  obtain ⟨out, last, hlen, halone, hstage⟩ := postStage_firstRows (lenient := s.pngLenient) hp
    (n := s.inLen.toNat / s.predConfig.bpr) (by rwa [hsize]) fun hpng : 10 ≤ s.predKind.toNat => by omega
  rw [hsize] at halone hstage
  set whole := s.inLen.toNat / s.predConfig.bpr * s.predConfig.bpr
  have hrest : (s.inp.drop whole).length = s.inLen.toNat % s.predConfig.bpr := by rw [List.length_drop]; omega
  have hjob : codecEmits .predPost s = ⟨out, .error .predBadLength whole⟩ := by
    have hbegun : s.inp.drop whole ≠ [] := fun hnil => hrows (by rw [← hrest, hnil, List.length_nil])
    have hpartial := postStage_append_partial (lenient := s.pngLenient) (fault := none) hp (up := last) (row := [])
      (vs := s.inp.drop whole) whole [] (by rwa [List.nil_append, hrest, hsize])
      fun hpng : 10 ≤ s.predKind.toNat => by omega
    rw [List.append_nil, List.nil_append] at hpartial
    rw [codecEmits, predPostJob_of_valid hvalid, ← List.take_append_drop whole s.inp, hstage, hpartial, postStage_nil,
      if_pos hbegun, Nat.add_sub_cancel]
    simp [JobResult.emitting, JobResult.raised]
  exact ⟨out, hlen, (predPostJob_of_valid hvalid _).trans halone, codecFails_of_emits rfl hs hjob (by omega) hle⟩

end Sys2Proof.Machine
end

section
/-! PROOF. pixel_predictor_engine, PRED.PRE with a PNG kind (spec/43_predictor.md R288 to R292): every byte of its output. -/

namespace Sys2Proof.Machine

/-! ## Where a row of the output stands -/

section
variable {p : PredConfig} {m : Nat} {rows : List (List Byte)} (hm : ∀ x ∈ rows, ∀ up, (preRow p up x).length = m)
include hm

theorem preRows_length (up : List Byte) : (preRows p up rows).length = rows.length * m := by
  induction rows generalizing up with
  | nil => simp [preRows]
  | cons x rest ih =>
    obtain ⟨hx, hrest⟩ := List.forall_mem_cons.1 hm
    rw [preRows_cons, List.length_append, hx, ih hrest, List.length_cons, Nat.succ_mul, Nat.add_comm]

/-- Row `r` of the output is what is written for input row `r` below the row before it. -/
theorem preRows_getElem? (up : List Byte) {r k : Nat} (hr : r < rows.length) (hk : k < m) :
    (preRows p up rows)[r * m + k]? = (preRow p ((up :: rows).getD r []) (rows.getD r []))[k]? := by
  induction rows generalizing up r with
  | nil => simp at hr
  | cons x rest ih =>
    obtain ⟨hx, hrest⟩ := List.forall_mem_cons.1 hm
    cases r with
    | zero =>
      rw [preRows_cons, Nat.zero_mul, Nat.zero_add, List.getElem?_append_left (by rwa [hx])]
      rfl
    | succ r =>
      have hpos : (r + 1) * m + k = m + (r * m + k) := by rw [Nat.succ_mul]; omega
      rw [preRows_cons, List.getElem?_append_right (by rw [hx]; omega), hx, hpos, Nat.add_sub_cancel_left,
        ih hrest x (Nat.lt_of_succ_lt_succ hr)]
      rfl

end

/-! ## The neighbours of a byte (R288) -/

/-- The input row above row `r`; the empty list stands for the zero bytes above the first. -/
def rowAbove (n : Nat) (l : List Byte) (r : Nat) : List Byte := if r = 0 then [] else rowAt n l (r - 1)

theorem rowByte_rowAbove {n i : Nat} (hi : i < n) (l : List Byte) (r : Nat) :
    rowByte (rowAbove n l r) i = if r = 0 then 0 else (l.getD ((r - 1) * n + i) 0).toNat := by
  unfold rowAbove
  split
  · rfl
  · exact rowByte_rowAt hi l (r - 1)

/-- The prediction of byte `i` of row `r` by R289's table, its neighbours being bytes of the whole input. -/
theorem pngPredict_rowAt {t bpp n i : Nat} (ht : t ≤ 4) (hi : i < n) (l : List Byte) (r : Nat) :
    let a := if bpp ≤ i then (l.getD (r * n + i - bpp) 0).toNat else 0
    let b := if r = 0 then 0 else (l.getD ((r - 1) * n + i) 0).toNat
    let c := if r = 0 ∨ i < bpp then 0 else (l.getD ((r - 1) * n + i - bpp) 0).toNat
    pngPredict t bpp (rowAt n l r) (rowAbove n l r) i = [0, a, b, (a + b) / 2, paeth a b c].getD t 0 := by
  intro a b c
  have hleft : (if bpp ≤ i then rowByte (rowAt n l r) (i - bpp) else 0) = a := by
    split
    next h => rw [rowByte_rowAt (by omega), ← Nat.add_sub_assoc h]; exact (if_pos h).symm
    next h => exact (if_neg h).symm
  have hupperLeft : (if bpp ≤ i then rowByte (rowAbove n l r) (i - bpp) else 0) = c := by
    split
    next h =>
      rw [rowByte_rowAbove (by omega), ← Nat.add_sub_assoc h]
      simp only [c, Nat.not_lt.2 h, or_false]
    next h => exact (if_pos (.inr (Nat.lt_of_not_le h))).symm
  rw [pngPredict, hleft, hupperLeft, rowByte_rowAbove hi, pngPrediction_eq_getD ht]

/-! ## PRED.PRE's output row by row -/

theorem preRow_png {p : PredConfig} (hpng : 10 ≤ p.kind) (up x : List Byte) :
    preRow p up x = BitVec.ofNat 8 p.preTag :: pngFiltered p.preTag p.bpp up x := if_neg (by omega)

theorem preRow_png_length {p : PredConfig} (hpng : 10 ≤ p.kind) (up : List Byte) {x : List Byte} (hx : x.length = p.bpr) :
    (preRow p up x).length = p.bpr + 1 := by
  rw [preRow_png hpng, List.length_cons, pngFiltered_length, hx]

section
variable {p : PredConfig} (hp : p.Predicts) (hpng : 10 ≤ p.kind) {inp : List Byte} {rows : Nat}
  (hinp : inp.length = rows * p.bpr)
include hp hpng hinp

theorem prePredict_png_length : (prePredict p inp).length = rows * (p.bpr + 1) := by
  rw [prePredict, if_neg hp.kind_ne_one, preRows_length fun x hx up =>
    preRow_png_length hpng up (length_of_mem_pieces hp.bpr_pos hinp hx), pieces_length hp.bpr_pos hinp]

theorem prePredict_png_getElem? {r k : Nat} (hr : r < rows) (hk : k < p.bpr + 1) :
    (prePredict p inp)[r * (p.bpr + 1) + k]? =
      (BitVec.ofNat 8 p.preTag :: pngFiltered p.preTag p.bpp (rowAbove p.bpr inp r) (rowAt p.bpr inp r))[k]? := by
  have hrow : ∀ j < rows, (pieces p.bpr inp).getD j [] = rowAt p.bpr inp j := fun j hj => by
    simp [pieces_eq_map_rowAt hp.bpr_pos hinp, hj]
  have habove : ([] :: pieces p.bpr inp).getD r [] = rowAbove p.bpr inp r := by
    cases r with
    | zero => rfl
    | succ r => exact hrow r (by omega)
  rw [prePredict, if_neg hp.kind_ne_one, preRows_getElem? (fun x hx up =>
    preRow_png_length hpng up (length_of_mem_pieces hp.bpr_pos hinp hx)) [] (by rwa [pieces_length hp.bpr_pos hinp]) hk,
    habove, hrow r hr, preRow_png hpng]

/-- Byte `i` of output row `r`, behind the tag (R291). -/
theorem prePredict_png_byte {r i : Nat} (hr : r < rows) (hi : i < p.bpr) :
    (prePredict p inp)[r * (p.bpr + 1) + 1 + i]? = some ((rowAt p.bpr inp r).getD i 0 -
      BitVec.ofNat 8 (pngPredict p.preTag p.bpp (rowAt p.bpr inp r) (rowAbove p.bpr inp r) i)) := by
  rw [Nat.add_assoc, Nat.add_comm 1, prePredict_png_getElem? hp hpng hinp hr (Nat.succ_lt_succ hi), List.getElem?_cons_succ,
    pngFiltered_getElem? _ _ _ (by rwa [rowAt_length hinp hr])]

end

/-- Settles O60: output row `r` is the tag and then input row `r` less its predictions. -/
theorem pngFiltersRows : Obligations.PngFiltersRows := by
  intro s hs hvalid hpng bpr bpp tag inByte hrows hroom
  have hp : s.predConfig.Predicts := PredConfig.predicts_of_valid hvalid fun h1 : s.predKind.toNat = 1 => by omega
  have hlen : s.inp.length = s.inLen.toNat / bpr * s.predConfig.bpr := by
    rw [State.inp_length]
    exact (Nat.div_mul_cancel (Nat.dvd_of_mod_eq_zero hrows)).symm
  have hplain : s.predConfig.badPlainLength s.inp = false := by
    rw [Bool.eq_false_iff, ne_eq, PredConfig.badPlainLength_eq_true_iff, State.inp_length]
    exact fun h => h.2 hrows
  have hout := prePredict_png_length hp hpng hlen
  refine ⟨_, codecSucceeds_of_emits rfl hs (codecEmits_predPre_of_valid hvalid hplain) (hout.trans_le hroom), hout,
    fun r hr => ⟨?_, fun i hi => ?_⟩⟩
  · exact prePredict_png_getElem? hp hpng hlen hr (k := 0) (Nat.succ_pos _)
  · intro a b c prediction
    refine ⟨_, prePredict_png_byte hp hpng hlen hr hi, ?_⟩
    have hown : ((rowAt s.predConfig.bpr s.inp r).getD i 0).toNat = inByte (r * bpr + i) := rowByte_rowAt hi s.inp r
    have hprediction : pngPredict s.predConfig.preTag s.predConfig.bpp (rowAt s.predConfig.bpr s.inp r)
        (rowAbove s.predConfig.bpr s.inp r) i = prediction := pngPredict_rowAt hp.preTag_le hi s.inp r
    rw [toNat_sub_ofNat, hown, hprediction]

end Sys2Proof.Machine
end

section
/-! PROOF. pixel_predictor_engine, what is checked before a job (spec/43_predictor.md R281, R292, spec/44_lzw.md R346,
spec/45_ccitt_fax.md R410): the configuration of the four commands that use the predictor, and plain input in whole rows. -/

namespace Sys2Proof.Machine

/-! ## Which causes a job can raise (R502) -/

/-- A codec command's ERR_KIND is that of an error of its job, or Resource (R505), or 0. -/
theorem exec_codec_errKind_ne {i : Instr} {s t : State} {k : Nat} (hi : isCodec i = true) (hs : CodecReady s)
    (hzero : k ≠ 0) (hres : k ≠ ErrorKind.resource.code)
    (hjob : ∀ c pos, (codecEmits i s).ending = .error c pos → c.kind.code ≠ k) (h : exec i s = .next t) :
    t.errKind ≠ k := by
  rcases Nat.lt_or_ge s.cfg.outCap (codecEmits i s).out.length with hover | hfit
  · obtain ⟨u, hu, hfailed, -⟩ := (codecRespectsBufferLimits i s hi hs.1).2 hs.2 hover
    cases hu.symm.trans h
    rw [hfailed.report.2.2]
    exact hres.symm
  · have hreport := codecReportsItsJob i s hi hs hfit
    rcases hend : codecEmits i s with ⟨out, ending⟩
    rw [hend] at hreport hjob
    cases ending with
    | success =>
      obtain ⟨u, hu, hsucc, -⟩ := hreport
      cases hu.symm.trans h
      rw [State.errKind, hsucc.1]
      exact hzero.symm
    | lenient pos =>
      obtain ⟨u, hu, htrunc, -⟩ := hreport
      cases hu.symm.trans h
      rw [State.errKind, htrunc.1]
      exact hzero.symm
    | error c pos =>
      obtain ⟨u, hu, hfailed, -⟩ := hreport
      cases hu.symm.trans h
      rw [hfailed.report.2.2]
      exact hjob c pos rfl

/-- The code stream's error is one of the three of R349: the branches of R348's loop in their order. -/
theorem lzwDecodeFrom_cause {fuel : Nat} {entries : List (List Byte)} {prev : Option (List Byte)} {pos q : Nat}
    {rest : List Bool} {c : Cause} (h : (lzwDecodeFrom fuel entries prev pos rest).fault = some (c, q)) :
    c ∈ [.lzwTableFull, .lzwBadFirstCode, .lzwBadCode] := by
  induction fuel generalizing entries prev pos rest with
  | zero => cases h
  | succ fuel ih =>
    rw [lzwDecodeFrom] at h
    simp only at h
    split at h
    · cases h
    split at h
    · exact ih h
    split at h
    · cases h
    split at h
    · cases h; decide
    split at h
    · split at h
      · cases h; decide
      · exact ih h
    · split at h
      · cases h; decide
      · exact ih h

theorem lzwDecodeFrom_kind {fuel : Nat} {entries : List (List Byte)} {prev : Option (List Byte)} {pos q : Nat}
    {rest : List Bool} {c : Cause} (h : (lzwDecodeFrom fuel entries prev pos rest).fault = some (c, q)) :
    c.kind ≠ .configuration := by
  have hkinds : ∀ c ∈ [Cause.lzwTableFull, .lzwBadFirstCode, .lzwBadCode], c.kind ≠ .configuration := by decide
  exact hkinds c (lzwDecodeFrom_cause h)

theorem postStage_kind {p : PredConfig} {lenient : Bool} {fault : Option (Cause × Nat)} {st : PostState}
    {data : List Byte} {c : Cause} {pos : Nat} (hfault : ∀ c pos, fault = some (c, pos) → c.kind ≠ .configuration)
    (h : (postStage p lenient fault st data).ending = .error c pos) : c.kind ≠ .configuration := by
  rcases postStage_cause h with hfed | rfl | rfl
  · exact hfault c pos hfed
  · decide
  · decide

theorem ErrorKind.code_ne_two {k : ErrorKind} (h : k ≠ .configuration) : k.code ≠ 2 := by
  cases k with
  | configuration => exact absurd rfl h
  | _ => decide

/-! ## The four commands that use the predictor -/

/-- PRED.PRE, PRED.POST, LZW.ENC and LZW.DEC, which make the check of R281. -/
def usesPredictor (i : Instr) : Prop := i ∈ [.predPre, .predPost, .lzwEnc, .lzwDec]

theorem usesPredictor_cases {i : Instr} (hi : usesPredictor i) :
    i = .predPre ∨ i = .predPost ∨ i = .lzwEnc ∨ i = .lzwDec := by
  simpa [usesPredictor] using hi

theorem isCodec_of_usesPredictor {i : Instr} (hi : usesPredictor i) : isCodec i = true := by
  rcases usesPredictor_cases hi with rfl | rfl | rfl | rfl <;> rfl

theorem codecEmits_of_invalid {i : Instr} {s : State} {c : Cause} (hi : usesPredictor i)
    (h : s.predConfig.invalid? s.cfg = some c) : codecEmits i s = .raised c 0 := by
  rcases usesPredictor_cases hi with rfl | rfl | rfl | rfl <;>
    simp only [codecEmits, predPreJob, predPostJob, lzwEncJob, lzwDecJob, h]

/-- With a valid configuration no job raises a Configuration error. -/
theorem codecEmits_kind_of_valid {i : Instr} {s : State} {c : Cause} {pos : Nat} (hi : usesPredictor i)
    (h : s.predConfig.invalid? s.cfg = none) (hend : (codecEmits i s).ending = .error c pos) :
    c.kind ≠ .configuration := by
  rcases usesPredictor_cases hi with rfl | rfl | rfl | rfl
  · simp only [codecEmits, predPreJob, h] at hend
    split at hend <;> cases hend
    decide
  · simp only [codecEmits, predPostJob, h] at hend
    exact postStage_kind (fun _ _ hnone => by cases hnone) hend
  · simp only [codecEmits, lzwEncJob, h] at hend
    split at hend <;> cases hend
    decide
  · simp only [codecEmits, lzwDecJob, h] at hend
    exact postStage_kind (fun _ _ => lzwDecodeFrom_kind) hend

/-- How a command that uses the predictor ends by the verdict of `validate_pred()` alone. -/
def EndsByVerdict (i : Instr) (s : State) : Option Cause → Prop
  | some c => CodecFails i s c 0 []
  | none => ∀ t, exec i s = .next t → t.errKind ≠ 2

theorem endsByVerdict_invalid? {i : Instr} {s : State} (hi : usesPredictor i) (hs : CodecReady s) :
    EndsByVerdict i s (s.predConfig.invalid? s.cfg) := by
  cases hverdict : s.predConfig.invalid? s.cfg with
  | some c =>
    exact codecFails_of_emits (isCodec_of_usesPredictor hi) hs (codecEmits_of_invalid hi hverdict) (Nat.zero_le _)
      (Nat.zero_le _)
  | none =>
    intro t ht
    refine exec_codec_errKind_ne (isCodec_of_usesPredictor hi) hs (by decide) (by decide) (fun c pos hend => ?_) ht
    exact ErrorKind.code_ne_two (codecEmits_kind_of_valid hi hverdict hend)

/-- Settles O27: each branch of the rule's chain is what the verdict of that branch makes the command do. -/
theorem predictorConfigurationChecked : Obligations.PredictorConfigurationChecked := by
  intro i s hi hs
  have h := endsByVerdict_invalid? hi hs
  rw [PredConfig.invalid?_eq] at h
  simp only [apply_ite (EndsByVerdict i s)] at h
  exact h

/-! ## Plain input in whole rows (R292, R346, R410) -/

/-- A valid number of columns is the register's unsigned value (R401). -/
theorem State.faxConfig_rowBytes {s : State} (h : s.faxConfig.invalid? s.cfg = none) :
    s.faxConfig.rowBytes = (s.faxColumns.toNat + 7) / 8 := by
  have hcolumns : 1 ≤ s.faxColumns.toInt := by
    by_contra hlt
    have hlt : s.faxConfig.columns < 1 := Int.not_le.1 hlt
    simp only [FaxConfig.invalid?, if_pos hlt] at h
    split_ifs at h
  have hwidth : s.faxColumns.toInt.toNat = s.faxColumns.toNat := by
    rw [BitVec.toInt_eq_toNat_cond] at hcolumns ⊢
    split at hcolumns <;> omega
  exact congrArg (ceilDiv · 8) hwidth

/-- Settles O29: each of the three encoders raises its PLAIN_LENGTH error before any output. -/
theorem plainInputMustBeWholeRows : Obligations.PlainInputMustBeWholeRows := by
  intro s hs
  have hlen := State.inp_length s
  refine ⟨fun i hi hvalid hk hrows => ?_, fun hvalid hrows => ?_⟩
  · have hbad : s.predConfig.badPlainLength s.inp = true := by
      rw [PredConfig.badPlainLength_eq_true_iff, hlen]
      exact ⟨hk, hrows⟩
    have hemits : isCodec i = true ∧ codecEmits i s = .raised .predPlainLength s.inLen.toNat := by
      obtain rfl | rfl : i = .predPre ∨ i = .lzwEnc := by simpa using hi
      · exact ⟨rfl, by simp only [codecEmits, predPreJob, hvalid, if_pos hbad, hlen]⟩
      · exact ⟨rfl, by simp only [codecEmits, lzwEncJob, hvalid, if_pos hbad, hlen]⟩
    exact codecFails_of_emits hemits.1 hs hemits.2 (Nat.zero_le _) hlen.ge
  · have hemits : codecEmits .faxEnc s = .raised .faxPlainLength s.inLen.toNat := by
      have hbad : s.inLen.toNat % s.faxConfig.rowBytes ≠ 0 := by rwa [State.faxConfig_rowBytes hvalid]
      simp only [codecEmits, faxEncJob, hvalid, hlen, if_pos hbad]
    exact codecFails_of_emits rfl hs hemits (Nat.zero_le _) hlen.ge

end Sys2Proof.Machine
end

section
/-! PROOF. lzw_encoder (spec/44_lzw.md R340 to R346): code widths, what a dictionary code says about its string, and the
code stream from CLEAR to END, with the statements about both. -/

namespace Sys2Proof.Machine

/-! ## Code widths (R341) -/

theorem wenc_eq (n : Nat) : wenc n = if n < 512 then 9 else if n < 1024 then 10 else if n < 2048 then 11 else 12 := by
  unfold wenc lzwWidth
  split_ifs <;> omega

theorem wdec_eq (d : Nat) : wdec d = if d < 511 then 9 else if d < 1023 then 10 else if d < 2047 then 11 else 12 := by
  unfold wdec lzwWidth
  split_ifs <;> omega

/-- The decoder, one entry behind, reads at the width the encoder writes. -/
theorem wenc_succ (d : Nat) : wenc (d + 1) = wdec d := rfl

theorem wenc_mem_range (n : Nat) : 9 ≤ wenc n ∧ wenc n ≤ 12 := by
  rw [wenc_eq]
  split_ifs <;> omega

/-- A code below the next free code fits the width the encoder gives it. -/
theorem lt_two_pow_wenc {c n : Nat} (hc : c < n) (hn : n ≤ 4096) : c < 2 ^ wenc n := by
  rw [wenc_eq]
  split_ifs <;> omega

theorem controlCode_lt_two_pow {c w : Nat} (hc : c ≤ lzwEnd) (hw : 9 ≤ w) : c < 2 ^ w :=
  calc c < 2 ^ 9 := Nat.lt_of_le_of_lt hc (by decide)
    _ ≤ 2 ^ w := Nat.pow_le_pow_right (by decide) hw

/-- Settles O45. -/
theorem lzwCodeWidths : Obligations.LzwCodeWidths := by
  refine ⟨wenc_eq, wdec_eq, fun n hn => ?_⟩
  obtain ⟨d, rfl⟩ := Nat.exists_eq_add_of_le' hn
  exact wenc_succ d

/-! ## Dictionary codes (R340, R342) -/

@[simp] theorem nextCode_append (entries new : List (List Byte)) :
    nextCode (entries ++ new) = nextCode entries + new.length := by
  simp [nextCode, Nat.add_assoc]

@[simp] theorem dictCode?_singleton (entries : List (List Byte)) (b : Byte) :
    dictCode? entries [b] = some b.toNat := rfl

/-- A string's code is the byte it consists of, or the place of an entry that is this string. -/
theorem dictCode?_cases {entries : List (List Byte)} {s : List Byte} {c : Nat} (h : dictCode? entries s = some c) :
    (∃ b : Byte, s = [b] ∧ c = b.toNat) ∨ ∃ i, entries[i]? = some s ∧ c = 258 + i := by
  have hplace : (entries.idxOf? s).map (258 + ·) = some c → ∃ i, entries[i]? = some s ∧ c = 258 + i := fun hmap => by
    obtain ⟨i, hi, rfl⟩ := Option.map_eq_some_iff.1 hmap
    rw [List.idxOf?, List.findIdx?_eq_some_iff_getElem] at hi
    obtain ⟨hlt, heq, -⟩ := hi
    exact ⟨i, by rw [List.getElem?_eq_getElem hlt, eq_of_beq heq], rfl⟩
  match s, h with
  | [b], h => exact .inl ⟨b, rfl, (Option.some.inj h).symm⟩
  | [], h => exact .inr (hplace h)
  | _ :: _ :: _, h => exact .inr (hplace h)

theorem lt_nextCode_of_dictCode? {entries : List (List Byte)} {s : List Byte} {c : Nat}
    (h : dictCode? entries s = some c) : c < nextCode entries := by
  rcases dictCode?_cases h with ⟨b, -, rfl⟩ | ⟨i, hi, rfl⟩
  · have := b.isLt
    unfold nextCode
    omega
  · obtain ⟨hlt, -⟩ := List.getElem?_eq_some_iff.1 hi
    unfold nextCode
    omega

theorem dictCode_lt_nextCode (entries : List (List Byte)) (s : List Byte) : dictCode entries s < nextCode entries := by
  rcases h : dictCode? entries s with - | c
  · rw [dictCode, h]
    exact Nat.lt_of_lt_of_le (by decide) (Nat.le_add_right 258 _)
  · rw [dictCode, h]
    exact lt_nextCode_of_dictCode? h

/-! ## The code stream (R343 to R346) -/

theorem lzwCodesFrom_nil_nil (entries : List (List Byte)) :
    lzwCodesFrom entries [] [] = [(lzwEnd, wenc (nextCode entries))] := rfl

theorem lzwCodesFrom_nil (entries : List (List Byte)) {s : List Byte} (hs : s ≠ []) :
    lzwCodesFrom entries s [] =
      [(dictCode entries s, wenc (nextCode entries)), (lzwEnd, wenc (nextCode entries + 1))] := if_pos hs

/-- A match goes on while the dictionary holds the longer string. -/
theorem lzwCodesFrom_extend {entries : List (List Byte)} {s : List Byte} {x : Byte}
    (h : (dictCode? entries (s ++ [x])).isSome = true) (rest : List Byte) :
    lzwCodesFrom entries s (x :: rest) = lzwCodesFrom entries (s ++ [x]) rest := by
  rw [lzwCodesFrom, if_pos h]

/-- A match ends: its code, and the longer string becomes an entry. -/
theorem lzwCodesFrom_emit {entries : List (List Byte)} {s : List Byte} {x : Byte}
    (h : dictCode? entries (s ++ [x]) = none) (hroom : nextCode entries ≠ 4095) (rest : List Byte) :
    lzwCodesFrom entries s (x :: rest) =
      (dictCode entries s, wenc (nextCode entries)) :: lzwCodesFrom (entries ++ [s ++ [x]]) [x] rest := by
  rw [lzwCodesFrom, if_neg (by simp [h]), if_neg (by omega)]

/-- A match ends with the entry that fills the table: its code, then CLEAR, and the dictionary is the seeded one. -/
theorem lzwCodesFrom_emit_full {entries : List (List Byte)} {s : List Byte} {x : Byte}
    (h : dictCode? entries (s ++ [x]) = none) (hfull : nextCode entries = 4095) (rest : List Byte) :
    lzwCodesFrom entries s (x :: rest) =
      (dictCode entries s, wenc 4095) :: (lzwClear, wenc 4096) :: lzwCodesFrom [] [x] rest := by
  rw [lzwCodesFrom, if_neg (by simp [h]), if_pos (by omega), hfull]

/-- The encoder's loop as an induction: the end of the data, and the three ways to take a byte. The dictionary has room
for an entry throughout. -/
theorem lzwCodesFrom_induction
    {P : ∀ entries : List (List Byte), List Byte → List Byte → nextCode entries < 4096 → Prop}
    (nil : ∀ entries s h, P entries s [] h)
    (extend : ∀ entries s x rest h, (dictCode? entries (s ++ [x])).isSome = true → P entries (s ++ [x]) rest h →
      P entries s (x :: rest) h)
    (emit : ∀ entries s x rest h h', dictCode? entries (s ++ [x]) = none → nextCode entries ≠ 4095 →
      P (entries ++ [s ++ [x]]) [x] rest h' → P entries s (x :: rest) h)
    (full : ∀ entries s x rest h h', dictCode? entries (s ++ [x]) = none → nextCode entries = 4095 → P [] [x] rest h' →
      P entries s (x :: rest) h)
    (entries : List (List Byte)) (s data : List Byte) (h : nextCode entries < 4096) : P entries s data h := by
  induction data generalizing entries s with
  | nil => exact nil _ _ h
  | cons x rest ih =>
    rcases hcode : dictCode? entries (s ++ [x]) with - | c
    · by_cases hfull : nextCode entries = 4095
      · exact full _ _ _ _ _ (by decide) hcode hfull (ih ..)
      · exact emit _ _ _ _ _ (by rw [nextCode_append, List.length_singleton]; omega) hcode hfull (ih ..)
    · exact extend _ _ _ _ _ (by rw [hcode]; rfl) (ih ..)

section
variable {entries : List (List Byte)} (s data : List Byte) (h : nextCode entries < 4096)
include h

/-- The next code is written at the width of the present table. -/
theorem lzwCodesFrom_head?_width :
    (lzwCodesFrom entries s data).head?.map Prod.snd = some (wenc (nextCode entries)) := by
  induction entries, s, data, h using lzwCodesFrom_induction with
  | nil entries s =>
    by_cases hs : s = []
    · rw [hs, lzwCodesFrom_nil_nil]; rfl
    · rw [lzwCodesFrom_nil _ hs]; rfl
  | extend entries s x rest _ hcode ih => rwa [lzwCodesFrom_extend hcode]
  | emit entries s x rest _ _ hcode hroom => rw [lzwCodesFrom_emit hcode hroom]; rfl
  | full entries s x rest _ _ hcode hfull => rw [lzwCodesFrom_emit_full hcode hfull, hfull]; rfl

theorem lzwCodesFrom_ends : ∃ codes w, lzwCodesFrom entries s data = codes ++ [(lzwEnd, w)] := by
  induction entries, s, data, h using lzwCodesFrom_induction with
  | nil entries s =>
    by_cases hs : s = []
    · exact ⟨[], _, by rw [hs, lzwCodesFrom_nil_nil]; rfl⟩
    · exact ⟨[_], _, lzwCodesFrom_nil _ hs⟩
  | extend entries s x rest _ hcode ih => rwa [lzwCodesFrom_extend hcode]
  | emit entries s x rest _ _ hcode hroom ih =>
    obtain ⟨codes, w, hcodes⟩ := ih
    exact ⟨_ :: codes, w, by rw [lzwCodesFrom_emit hcode hroom, hcodes]; rfl⟩
  | full entries s x rest _ _ hcode hfull ih =>
    obtain ⟨codes, w, hcodes⟩ := ih
    exact ⟨_ :: _ :: codes, w, by rw [lzwCodesFrom_emit_full hcode hfull, hcodes]; rfl⟩

end

/-- A code that stands in the stream: 9 to 12 bits wide, and it fits its width. -/
def CodeFits (code : Nat × Nat) : Prop := 9 ≤ code.2 ∧ code.2 ≤ 12 ∧ code.1 < 2 ^ code.2

theorem codeFits_dictCode {entries : List (List Byte)} (s : List Byte) (h : nextCode entries < 4096) :
    CodeFits (dictCode entries s, wenc (nextCode entries)) :=
  let ⟨hlo, hhi⟩ := wenc_mem_range (nextCode entries)
  ⟨hlo, hhi, lt_two_pow_wenc (dictCode_lt_nextCode entries s) h.le⟩

theorem codeFits_control {c : Nat} (hc : c ≤ lzwEnd) (n : Nat) : CodeFits (c, wenc n) :=
  let ⟨hlo, hhi⟩ := wenc_mem_range n
  ⟨hlo, hhi, controlCode_lt_two_pow hc hlo⟩

theorem codeFits_of_mem_lzwCodesFrom {entries : List (List Byte)} (s data : List Byte) (h : nextCode entries < 4096) :
    ∀ c ∈ lzwCodesFrom entries s data, CodeFits c := by
  induction entries, s, data, h using lzwCodesFrom_induction with
  | nil entries s h =>
    have hend (n : Nat) : CodeFits (lzwEnd, wenc n) := codeFits_control (Nat.le_refl _) n
    by_cases hs : s = []
    · simpa [hs, lzwCodesFrom_nil_nil] using hend _
    · simpa [lzwCodesFrom_nil _ hs] using ⟨codeFits_dictCode s h, hend _⟩
  | extend entries s x rest _ hcode ih => rwa [lzwCodesFrom_extend hcode]
  | emit entries s x rest h _ hcode hroom ih =>
    rw [lzwCodesFrom_emit hcode hroom]
    exact List.forall_mem_cons.2 ⟨codeFits_dictCode s h, ih⟩
  | full entries s x rest h _ hcode hfull ih =>
    have hclear : CodeFits (lzwClear, wenc 4096) := codeFits_control (by decide) _
    rw [lzwCodesFrom_emit_full hcode hfull, ← hfull]
    exact List.forall_mem_cons.2 ⟨codeFits_dictCode s h, List.forall_mem_cons.2 ⟨hclear, ih⟩⟩

theorem codeFits_of_mem_lzwCodes {data : List Byte} : ∀ c ∈ lzwCodes data, CodeFits c :=
  List.forall_mem_cons.2 ⟨codeFits_control (by decide) _, codeFits_of_mem_lzwCodesFrom _ _ (by decide)⟩

/-! ## LZW.ENC as a codec command (R346) -/

theorem codecEmits_lzwEnc_of_valid {s : State} (hvalid : s.predConfig.invalid? s.cfg = none)
    (hplain : s.predConfig.badPlainLength s.inp = false) :
    codecEmits .lzwEnc s = ⟨lzwCompress (prePredict s.predConfig s.inp), .success⟩ := by
  simp only [codecEmits, lzwEncJob, hvalid, hplain, Bool.false_eq_true, if_false]

/-- Kind 1, no prediction, is a valid configuration whatever the other registers hold (R281). -/
theorem PredConfig.invalid?_of_kind_one {p : PredConfig} (hk : p.kind = 1) (params : Params) :
    p.invalid? params = none := by
  rw [p.invalid?_eq, hk]
  simp

/-- Settles O46. -/
theorem lzwEncodesCodeStream : Obligations.LzwEncodesCodeStream := by
  intro s hs (hk : s.predConfig.kind = 1) hfit
  have hplain : s.predConfig.badPlainLength s.inp = false := by simp [PredConfig.badPlainLength, hk]
  have hjob : codecEmits .lzwEnc s = ⟨lzwCompress s.inp, .success⟩ := by
    rw [codecEmits_lzwEnc_of_valid (PredConfig.invalid?_of_kind_one hk _) hplain, prePredict, if_pos hk]
  refine ⟨codecSucceeds_of_emits rfl hs hjob hfit, rfl, ?_, codeFits_of_mem_lzwCodes⟩
  obtain ⟨codes, w, hcodes⟩ := lzwCodesFrom_ends (entries := []) [] s.inp (by decide)
  rw [lzwCodes, hcodes, ← List.cons_append, List.getLast?_concat]
  rfl

end Sys2Proof.Machine
end

section
/-! PROOF. lzw_decoder (spec/44_lzw.md R347 to R351): what the loop does with each kind of code, the first code of a
stream, and how the decoder keeps one entry behind the encoder and gives its data back. -/

namespace Sys2Proof.Machine

/-! ## What the loop does with a code (R348) -/

section
variable (fuel pos : Nat) (entries : List (List Byte)) (prev : Option (List Byte)) (rest : List Bool)

/-- The bits of a code give it back, and the rest of the stream stays. -/
theorem read_lowBits {c w : Nat} (hc : c < 2 ^ w) :
    ¬(lowBits c w ++ rest).length < w ∧ natOfBits ((lowBits c w ++ rest).take w) = c ∧
      (lowBits c w ++ rest).drop w = rest := by
  refine ⟨by simp, ?_, List.drop_left' (lowBits_length c w)⟩
  rw [List.take_left' (lowBits_length c w), natOfBits_lowBits, Nat.mod_eq_of_lt hc]

theorem nine_le_wdec (d : Nat) : 9 ≤ wdec d := (wenc_mem_range (d + 1)).1

theorem lzwDecodeFrom_clear :
    lzwDecodeFrom (fuel + 1) entries prev pos (lowBits lzwClear (wdec (nextCode entries)) ++ rest) =
      lzwDecodeFrom fuel [] none (pos + wdec (nextCode entries)) rest := by
  obtain ⟨hlen, hread, hrest⟩ :=
    read_lowBits rest (controlCode_lt_two_pow (c := lzwClear) (by decide) (nine_le_wdec (nextCode entries)))
  simp only [lzwDecodeFrom, hlen, hread, hrest, if_false, if_true]

theorem lzwDecodeFrom_end :
    lzwDecodeFrom (fuel + 1) entries prev pos (lowBits lzwEnd (wdec (nextCode entries)) ++ rest) = ⟨[], none⟩ := by
  obtain ⟨hlen, hread, -⟩ :=
    read_lowBits rest (controlCode_lt_two_pow (Nat.le_refl lzwEnd) (nine_le_wdec (nextCode entries)))
  have hne : lzwEnd ≠ lzwClear := by decide
  simp only [lzwDecodeFrom, hlen, hread, hne, if_false, if_true]

/-- The first code after a reset stands for its byte and adds no entry (R347). -/
theorem lzwDecodeFrom_literal (b : Byte) :
    lzwDecodeFrom (fuel + 1) [] none pos (lowBits b.toNat 9 ++ rest) =
      .after [b] (lzwDecodeFrom fuel [] (some [b]) (pos + 9) rest) := by
  have hb : b.toNat < 256 := b.isLt
  obtain ⟨hlen, hread, hrest⟩ := read_lowBits rest (c := b.toNat) (w := 9) (by omega)
  have hw : wdec (nextCode []) = 9 := rfl
  have hclear : b.toNat ≠ lzwClear := hb.ne
  have hend : b.toNat ≠ lzwEnd := (hb.trans (by decide)).ne
  have hroom : nextCode [] ≠ 4095 := by decide
  simp only [lzwDecodeFrom, hw, hlen, hread, hrest, hclear, hend, hroom, hb.not_ge, if_false, BitVec.ofNat_toNat,
    BitVec.setWidth_eq]

/-- The first code after a reset must not be that of an entry (R349). -/
theorem lzwDecodeFrom_badFirstCode {c : Nat} (hc : 258 ≤ c) (hc9 : c < 2 ^ 9) :
    lzwDecodeFrom (fuel + 1) [] none pos (lowBits c 9 ++ rest) = ⟨[], some (.lzwBadFirstCode, pos)⟩ := by
  obtain ⟨hlen, hread, -⟩ := read_lowBits rest hc9
  have hw : wdec (nextCode []) = 9 := rfl
  have hclear : c ≠ lzwClear := (Nat.lt_of_lt_of_le (by decide) hc).ne'
  have hend : c ≠ lzwEnd := (Nat.lt_of_lt_of_le (by decide) hc).ne'
  have hroom : nextCode [] ≠ 4095 := by decide
  have hbad : 256 ≤ c := by omega
  simp only [lzwDecodeFrom, hw, hlen, hread, hclear, hend, hroom, hbad, if_false, if_true]

/-- A later code stands for its string and adds an entry (R347). -/
theorem lzwDecodeFrom_code {c : Nat} (str : List Byte) (hbits : c < 2 ^ wdec (nextCode entries)) (hclear : c ≠ lzwClear)
    (hend : c ≠ lzwEnd) (hroom : nextCode entries ≠ 4095) (hc : c ≤ nextCode entries) :
    lzwDecodeFrom (fuel + 1) entries (some str) pos (lowBits c (wdec (nextCode entries)) ++ rest) =
      .after (codeString entries str c)
        (lzwDecodeFrom fuel (entries ++ [str ++ (codeString entries str c).take 1]) (some (codeString entries str c))
          (pos + wdec (nextCode entries)) rest) := by
  obtain ⟨hlen, hread, hrest⟩ := read_lowBits rest hbits
  simp only [lzwDecodeFrom, hlen, hread, hrest, hclear, hend, hroom, hc.not_gt, if_false]

end

/-! ## LZW.DEC as a codec command (R348) -/

theorem codecEmits_lzwDec_of_valid {s : State} (hvalid : s.predConfig.invalid? s.cfg = none) :
    codecEmits .lzwDec s =
      postStage s.predConfig s.pngLenient (lzwDecompress s.inp).fault .init (lzwDecompress s.inp).bytes := by
  simp only [codecEmits, lzwDecJob, hvalid]

/-- A stream that ends in an error before it gives a byte, at a bit position that ERR_POS holds (log 16). -/
theorem codecFails_lzwDec_of_fault {s : State} (hs : CodecReady s) (hk : s.predConfig.kind = 1) {c : Cause} {pos : Nat}
    (hpos : pos < 2 ^ 32) (hdec : lzwDecompress s.inp = ⟨[], some (c, pos)⟩) : CodecFails .lzwDec s c pos [] := by
  have hjob : codecEmits .lzwDec s = .raised c pos := by
    rw [codecEmits_lzwDec_of_valid (PredConfig.invalid?_of_kind_one hk _), hdec]; rfl
  have h := codecReportsItsJob .lzwDec s rfl hs (by rw [hjob]; exact Nat.zero_le _)
  rw [hjob] at h
  simpa only [JobResult.raised, Nat.mod_eq_of_lt hpos] using h

/-- The bits of a stream that holds a whole code are that code's bits and the rest. -/
theorem lowBits_append_drop {bits : List Bool} {w : Nat} (h : w ≤ bits.length) :
    lowBits (natOfBits (bits.take w)) w ++ bits.drop w = bits := by
  have hcode := lowBits_natOfBits (bits.take w)
  rw [List.length_take_of_le h] at hcode
  rw [hcode, List.take_append_drop]

theorem natOfBits_take_lt (bits : List Bool) (w : Nat) : natOfBits (bits.take w) < 2 ^ w :=
  (natOfBits_lt _).trans_le (Nat.pow_le_pow_right (by decide) (List.length_take_le ..))

/-- Settles O48: the loop's first code, in the reset state, or its second, in the state CLEAR leaves. -/
theorem lzwFirstCodeMustBeLiteral : Obligations.LzwFirstCodeMustBeLiteral := by
  intro s hs hk
  have hbits : (bitsOf s.inp).length = 8 * s.inLen.toNat := by rw [bitsOf_length, State.inp_length]
  refine ⟨fun hlen hbad => ?_, fun hlen hclear hbad => ?_⟩
  · obtain ⟨fuel, hfuel⟩ : ∃ fuel, 8 * s.inp.length = fuel + 1 :=
      Nat.exists_eq_add_of_le' (by rw [State.inp_length]; omega)
    refine codecFails_lzwDec_of_fault hs hk (by decide) ?_
    rw [lzwDecompress, hfuel, ← lowBits_append_drop (hlen.trans_eq hbits.symm),
      lzwDecodeFrom_badFirstCode _ _ _ hbad (natOfBits_take_lt _ 9)]
  · obtain ⟨fuel, hfuel⟩ : ∃ fuel, 8 * s.inp.length = fuel + 2 :=
      Nat.exists_eq_add_of_le' (by rw [State.inp_length]; omega)
    have hsecond : 9 ≤ ((bitsOf s.inp).drop 9).length := by rw [List.length_drop]; omega
    refine codecFails_lzwDec_of_fault hs hk (by decide) ?_
    rw [lzwDecompress, hfuel, ← lowBits_append_drop (bits := bitsOf s.inp) (w := 9) (by omega), hclear]
    refine (lzwDecodeFrom_clear (fuel + 1) 0 [] none _).trans ?_
    rw [← lowBits_append_drop hsecond, lzwDecodeFrom_badFirstCode _ _ _ hbad (natOfBits_take_lt _ 9)]
    rfl

/-! ## The decoder one entry behind the encoder (R341, R347) -/

/-- The encoder's dictionary and match string beside the decoder's table and previous string, between two codes. Behind
a CLEAR both tables are the seeded one. Later the encoder has one entry more, which begins with the previous string and
ends with the match string's first byte: the entry the decoder adds with the next code. -/
inductive LzwSync :
    (dict : List (List Byte)) → (s : List Byte) → (table : List (List Byte)) → (prev : Option (List Byte)) → Prop
  | fresh {s : List Byte} (hs : s.length ≤ 1) : LzwSync [] s [] none
  | behind {table : List (List Byte)} {str s : List Byte} (hstr : str ≠ []) (hs : s ≠ [])
      (hknown : (dictCode? (table ++ [str ++ s.take 1]) s).isSome = true) :
      LzwSync (table ++ [str ++ s.take 1]) s table (some str)

theorem take_one_append {s : List Byte} (hs : s ≠ []) (t : List Byte) : (s ++ t).take 1 = s.take 1 :=
  List.take_append_of_le_length (List.length_pos_of_ne_nil hs)

/-- The code of a string is read as this string, the entry the decoder lacks as its KwKwK case (R347). -/
theorem codeString_dictCode? {table : List (List Byte)} {str s : List Byte} {c : Nat} (hstr : str ≠ [])
    (h : dictCode? (table ++ [str ++ s.take 1]) s = some c) : codeString table str c = s := by
  rcases dictCode?_cases h with ⟨b, rfl, rfl⟩ | ⟨i, hi, rfl⟩
  · simp [codeString, b.isLt]
  · have hcode : ¬258 + i < 256 := by omega
    have hplace : 258 + i < nextCode table ↔ i < table.length := by unfold nextCode; omega
    rcases Nat.lt_trichotomy i table.length with hlt | rfl | hgt
    · rw [List.getElem?_append_left hlt] at hi
      rw [codeString, if_neg hcode, if_pos (hplace.2 hlt), Nat.add_sub_cancel_left, List.getD_eq_getElem?_getD, hi]
      rfl
    · have hs : str ++ s.take 1 = s := by simpa using hi
      have hfirst : s.take 1 = str.take 1 := by rw [← hs, take_one_append hstr]
      rw [codeString, if_neg hcode, if_neg (by omega), ← hfirst, hs]
    · simp [List.getElem?_eq_none (l := table ++ [str ++ s.take 1]) (i := i) (by simp; omega)] at hi

theorem dictCode?_ne_control {entries : List (List Byte)} {s : List Byte} {c : Nat} (h : dictCode? entries s = some c) :
    c ≠ lzwClear ∧ c ≠ lzwEnd := by
  unfold lzwClear lzwEnd
  rcases dictCode?_cases h with ⟨b, -, rfl⟩ | ⟨i, -, rfl⟩
  · have := b.isLt
    omega
  · omega

namespace LzwSync
variable {dict table : List (List Byte)} {s : List Byte} {prev : Option (List Byte)}

/-- The decoder reads the code of the match string at the width it has, and its table becomes the dictionary. -/
theorem lzwDecodeFrom_dictCode (h : LzwSync dict s table prev) (hs : s ≠ []) (hroom : nextCode dict < 4096)
    (fuel pos : Nat) (rest : List Bool) :
    lzwDecodeFrom (fuel + 1) table prev pos (lowBits (dictCode dict s) (wenc (nextCode dict)) ++ rest) =
      .after s (lzwDecodeFrom fuel dict (some s) (pos + wenc (nextCode dict)) rest) := by
  cases h with
  | fresh hlen =>
    obtain ⟨b, rfl⟩ := List.length_eq_one_iff.1 (Nat.le_antisymm hlen (List.length_pos_of_ne_nil hs))
    exact lzwDecodeFrom_literal fuel pos rest b
  | @behind table str s hstr _ hknown =>
    obtain ⟨c, hc⟩ := Option.isSome_iff_exists.1 hknown
    have hnext : nextCode (table ++ [str ++ s.take 1]) = nextCode table + 1 := nextCode_append ..
    have hcode : dictCode (table ++ [str ++ s.take 1]) s = c := by rw [dictCode, hc]; rfl
    have hlt := lt_nextCode_of_dictCode? hc
    have hfits := lt_two_pow_wenc hlt hroom.le
    obtain ⟨hclear, hend⟩ := dictCode?_ne_control hc
    rw [hnext] at hlt hroom hfits
    rw [hcode, hnext, wenc_succ,
      lzwDecodeFrom_code fuel pos table rest str hfits hclear hend (by omega) (Nat.le_of_lt_succ hlt),
      codeString_dictCode? hstr hc]

/-- The match goes on. -/
theorem extend (h : LzwSync dict s table prev) {x : Byte} (hknown : (dictCode? dict (s ++ [x])).isSome = true) :
    LzwSync dict (s ++ [x]) table prev := by
  cases h with
  | fresh hlen =>
    match s, hlen with
    | [], _ => exact fresh (Nat.le_refl 1)
    | [a], _ => cases hknown
  | @behind table str s hstr hs _ =>
    rw [← take_one_append hs [x]] at hknown ⊢
    exact behind hstr (List.append_ne_nil_of_left_ne_nil hs _) hknown

/-- The decoder has the encoder's dictionary, and the encoder adds its entry and begins the next match. -/
theorem insert (hs : s ≠ []) (x : Byte) : LzwSync (dict ++ [s ++ [x]]) [x] dict (some s) :=
  behind (s := [x]) hs (by simp) (by simp)

end LzwSync

/-! ## The round trip (R351) -/

theorem flatMap_codeBits_cons (code : Nat × Nat) (codes : List (Nat × Nat)) (pad : List Bool) :
    (code :: codes).flatMap codeBits ++ pad = lowBits code.1 code.2 ++ (codes.flatMap codeBits ++ pad) := by
  rw [List.flatMap_cons, List.append_assoc]
  rfl

/-- A byte that ends a match has one to end. -/
theorem ne_nil_of_dictCode?_concat {entries : List (List Byte)} {s : List Byte} {x : Byte}
    (h : dictCode? entries (s ++ [x]) = none) : s ≠ [] := by
  rintro rfl
  cases h

/-- From every pair of states in step, the decoder gives back the match string and the data behind it. -/
theorem lzwDecodeFrom_lzwCodesFrom {dict : List (List Byte)} (s data : List Byte) (h : nextCode dict < 4096)
    {table : List (List Byte)} {prev : Option (List Byte)} (hsync : LzwSync dict s table prev) {fuel : Nat}
    (hfuel : (lzwCodesFrom dict s data).length ≤ fuel) (pos : Nat) (pad : List Bool) :
    lzwDecodeFrom fuel table prev pos ((lzwCodesFrom dict s data).flatMap codeBits ++ pad) = ⟨s ++ data, none⟩ := by
  induction dict, s, data, h using lzwCodesFrom_induction generalizing table prev fuel pos with
  | nil dict s h =>
    by_cases hs : s = []
    · subst hs
      cases hsync with
      | behind _ hne => exact absurd rfl hne
      | fresh =>
        rw [lzwCodesFrom_nil_nil] at hfuel ⊢
        obtain ⟨fuel, rfl⟩ := Nat.exists_eq_add_of_le' hfuel
        rw [flatMap_codeBits_cons]
        exact lzwDecodeFrom_end fuel pos [] none _
    · rw [lzwCodesFrom_nil _ hs] at hfuel ⊢
      obtain ⟨fuel, rfl⟩ : ∃ k, fuel = k + 2 := Nat.exists_eq_add_of_le' hfuel
      rw [flatMap_codeBits_cons, hsync.lzwDecodeFrom_dictCode hs h, flatMap_codeBits_cons, wenc_succ, lzwDecodeFrom_end]
      rfl
  | extend dict s x rest _ hcode ih =>
    rw [lzwCodesFrom_extend hcode] at hfuel ⊢
    rw [ih (hsync.extend hcode) hfuel, List.append_assoc]
    rfl
  | emit dict s x rest h _ hcode hroom ih =>
    have hs := ne_nil_of_dictCode?_concat hcode
    rw [lzwCodesFrom_emit hcode hroom] at hfuel ⊢
    obtain ⟨fuel, rfl⟩ := Nat.exists_eq_add_of_le' (Nat.one_le_of_lt hfuel)
    rw [flatMap_codeBits_cons, hsync.lzwDecodeFrom_dictCode hs h, ih (.insert hs x) (Nat.le_of_succ_le_succ hfuel)]
    rfl
  | full dict s x rest h _ hcode hfull ih =>
    have hs := ne_nil_of_dictCode?_concat hcode
    rw [lzwCodesFrom_emit_full hcode hfull] at hfuel ⊢
    obtain ⟨fuel, rfl⟩ := Nat.exists_eq_add_of_le' ((Nat.le_add_left 2 _).trans hfuel)
    have hclear : wenc 4096 = wdec (nextCode dict) := by rw [hfull]; rfl
    rw [← hfull, flatMap_codeBits_cons, hsync.lzwDecodeFrom_dictCode hs h, flatMap_codeBits_cons, hclear,
      lzwDecodeFrom_clear, ih (.fresh (Nat.le_refl 1)) (Nat.le_of_add_le_add_right (b := 2) hfuel)]
    rfl

theorem length_le_flatMap_codeBits {codes : List (Nat × Nat)} (h : ∀ c ∈ codes, CodeFits c) :
    codes.length ≤ (codes.flatMap codeBits).length := by
  induction codes with
  | nil => exact Nat.zero_le _
  | cons code codes ih =>
    obtain ⟨⟨hwidth, -⟩, hrest⟩ := List.forall_mem_cons.1 h
    have := ih hrest
    rw [List.flatMap_cons, List.length_append, List.length_cons, codeBits, lowBits_length]
    omega

/-- The decoder undoes the encoder, before the predictor is undone. -/
theorem lzwDecompress_lzwCompress (data : List Byte) : lzwDecompress (lzwCompress data) = ⟨data, none⟩ := by
  have hbits : bitsOf (lzwCompress data) = (lzwCodes data).flatMap codeBits ++ alignPad _ := bitsOf_packBits _
  have hfuel : (lzwCodes data).length ≤ 8 * (lzwCompress data).length := by
    rw [← bitsOf_length, hbits, List.length_append]
    exact (length_le_flatMap_codeBits codeFits_of_mem_lzwCodes).trans (Nat.le_add_right _ _)
  rw [lzwDecompress, hbits]
  obtain ⟨fuel, hsucc⟩ := Nat.exists_eq_add_of_le' (Nat.one_le_of_lt hfuel)
  rw [hsucc] at hfuel ⊢
  rw [lzwCodes, flatMap_codeBits_cons]
  exact (lzwDecodeFrom_clear fuel 0 [] none _).trans
    (lzwDecodeFrom_lzwCodesFrom [] data (by decide) (.fresh (Nat.zero_le 1)) (Nat.le_of_succ_le_succ hfuel) _ _)

/-- A code that fills the table is followed by CLEAR at 12 bits, and the next code has 9 (R343, R351). -/
theorem lzwCodesFrom_boundary {entries : List (List Byte)} {str : List Byte} {x : Byte}
    (hfull : nextCode entries = 4095) (h : dictCode? entries (str ++ [x]) = none) (rest : List Byte) :
    ∃ c, lzwCodesFrom entries str (x :: rest) = (c, 12) :: (256, 12) :: lzwCodesFrom [] [x] rest ∧
      (lzwCodesFrom [] [x] rest).head?.map Prod.snd = some 9 :=
  ⟨_, lzwCodesFrom_emit_full h hfull rest, lzwCodesFrom_head?_width _ _ (by decide)⟩

/-- Settles O47: the decoder stays one entry behind the encoder up to END, and the predictor stage undoes the prediction;
the boundary is the encoder's branch for a full table. -/
theorem lzwRoundTrip : Obligations.LzwRoundTrip := by
  refine ⟨fun s hs hvalid hplain hfit => ?_, fun _ _ _ _ hfull h => lzwCodesFrom_boundary hfull h _, rfl, rfl⟩
  obtain ⟨t, hexec, hsucc, hleaves⟩ :=
    codecSucceeds_of_emits (i := .lzwEnc) rfl hs (codecEmits_lzwEnc_of_valid hvalid hplain) hfit
  refine ⟨t, hexec, hsucc, hleaves, fun u hu hconfig huvalid hinp hroom => ?_⟩
  have hjob : codecEmits .lzwDec u = ⟨s.inp, .success⟩ := by
    rw [codecEmits_lzwDec_of_valid huvalid, hinp, hleaves.output, lzwDecompress_lzwCompress, hconfig,
      postStage_prePredict hvalid hplain]
  exact codecSucceeds_of_emits rfl hu hjob (by rwa [State.inp_length])

end Sys2Proof.Machine
end

section
/-! PROOF. ccitt_fax_decoder, codewords (spec/46_huffman_tables.md R470 to R474, spec/45_ccitt_fax.md R405, R411): no two
codes of a colour can be read at one place, so the lookup finds the code that was written, and a written run decodes. -/

namespace Sys2Proof.Machine

/-! ## Peeking at a stream (R170) -/

/-- Zero-padded peeks at one place agree on the bits they share. -/
theorem peekBits_div (rest : List Bool) {m n : Nat} (h : m ≤ n) :
    peekBits n rest / 2 ^ (n - m) = peekBits m rest := by
  have hshort : (rest.take n ++ zeroBits (n - rest.length)).take m = rest.take m ++ zeroBits (m - rest.length) := by
    rw [List.take_append, List.take_take, List.length_take, Nat.min_eq_left h, zeroBits, List.take_replicate]
    congr 2
    omega
  have hrest : ((rest.take n ++ zeroBits (n - rest.length)).drop m).length = n - m := by
    simp only [zeroBits, List.length_drop, List.length_append, List.length_take, List.length_replicate]
    omega
  have hlow := natOfBits_lt ((rest.take n ++ zeroBits (n - rest.length)).drop m)
  rw [hrest] at hlow
  rw [peekBits, peekBits, ← List.take_append_drop m (rest.take n ++ _), hshort, natOfBits_append, hrest, Nat.add_comm,
    Nat.add_mul_div_right _ _ (Nat.two_pow_pos _), Nat.div_eq_of_lt hlow, Nat.zero_add]

theorem peekBits_lowBits_append {v n : Nat} (h : v < 2 ^ n) (rest : List Bool) : peekBits n (lowBits v n ++ rest) = v := by
  have hlen : n - (lowBits v n ++ rest).length = 0 := by simp
  rw [peekBits, List.take_left' (lowBits_length v n), hlen, zeroBits, List.replicate_zero, List.append_nil,
    natOfBits_lowBits, Nat.mod_eq_of_lt h]

theorem peekBits_of_allZero {rest : List Bool} (h : allZero rest = true) (n : Nat) : peekBits n rest = 0 := by
  have hzero : rest.take n = zeroBits (rest.take n).length := by
    rw [zeroBits, List.eq_replicate_iff]
    refine ⟨rfl, fun b hb => ?_⟩
    simpa using List.all_eq_true.1 h b (List.mem_of_mem_take hb)
  rw [peekBits, hzero, natOfBits_append, natOfBits_zeroBits, natOfBits_zeroBits, Nat.zero_mul]

/-! ## The codes of a colour (R470 to R472) -/

/-- The 104 codes of a colour as (pattern, length). -/
def codeTable (col : Colour) : List (Nat × Nat) := terminalCodes col ++ makeupCodes col

/-- EOL as a (pattern, length) code (R406). -/
def eolCode : Nat × Nat := (1, 12)

/-- Neither of two codes begins with the other: cut to the shorter length they differ (R471). -/
def PrefixFree (a b : Nat × Nat) : Prop := a.1 / 2 ^ (a.2 - b.2) ≠ b.1 / 2 ^ (b.2 - a.2)

theorem codes_pairwise_prefixFree (col : Colour) : (eolCode :: codeTable col).Pairwise PrefixFree := by
  unfold PrefixFree
  cases col <;> decide +kernel

theorem code_fits_of_mem {col : Colour} : ∀ c ∈ codeTable col, (2 ≤ c.2 ∧ c.2 ≤ 13) ∧ 0 < c.1 ∧ c.1 < 2 ^ c.2 := by
  cases col <;> decide +kernel

/-- The stream at `rest` reads as the code `c`. -/
def ReadsCode (c : Nat × Nat) (rest : List Bool) : Prop := peekBits c.2 rest = c.1

theorem readsCode_codeBits {c : Nat × Nat} (h : c.1 < 2 ^ c.2) (rest : List Bool) : ReadsCode c (codeBits c ++ rest) :=
  peekBits_lowBits_append h rest

theorem ReadsCode.not_prefixFree {a b : Nat × Nat} {rest : List Bool} (ha : ReadsCode a rest) (hb : ReadsCode b rest) :
    ¬PrefixFree a b := by
  rw [PrefixFree, not_not, ← ha, ← hb]
  rcases Nat.le_total a.2 b.2 with h | h
  · rw [peekBits_div rest h, Nat.sub_eq_zero_of_le h, Nat.pow_zero, Nat.div_one]
  · rw [peekBits_div rest h, Nat.sub_eq_zero_of_le h, Nat.pow_zero, Nat.div_one]

/-- At one place at most one code of a colour can be read, EOL counting as a code of either (R471). -/
theorem ReadsCode.unique {col : Colour} {a b : Nat × Nat} {rest : List Bool} (ha : ReadsCode a rest)
    (hb : ReadsCode b rest) (hamem : a ∈ eolCode :: codeTable col) (hbmem : b ∈ eolCode :: codeTable col) : a = b := by
  have hsymm : Std.Symm PrefixFree := ⟨fun _ _ h => Ne.symm h⟩
  by_contra hne
  exact ha.not_prefixFree hb ((codes_pairwise_prefixFree col).forall hamem hbmem hne)

/-! ## The lookup (R474) -/

theorem idxOf?_getElem_of_nodup {l : List (Nat × Nat)} (h : l.Nodup) {i : Nat} (hi : i < l.length) :
    l.idxOf? l[i] = some i := by
  rw [List.idxOf?, List.findIdx?_eq_some_iff_getElem]
  refine ⟨hi, beq_self_eq_true _, fun j hj heq => ?_⟩
  exact hj.ne ((h.getElem_inj_iff).1 (eq_of_beq heq))

theorem codeTable_nodup (col : Colour) : (codeTable col).Nodup := by
  refine List.Pairwise.imp (fun h heq => ?_) (List.Pairwise.of_cons (codes_pairwise_prefixFree col))
  subst heq
  exact h rfl

theorem mem_codeTable_of_findCode {col : Colour} {p len : Nat} {m : CodeMatch} (h : findCode col p len = some m) :
    (p, len) ∈ codeTable col := by
  by_contra hmem
  rw [codeTable, List.mem_append, not_or, ← List.idxOf?_eq_none_iff, ← List.idxOf?_eq_none_iff] at hmem
  simp only [findCode, hmem.1, hmem.2, reduceCtorEq] at h

theorem findCode_terminal {col : Colour} {r : Nat} (hr : r < (terminalCodes col).length) :
    findCode col (terminalCodes col)[r].1 (terminalCodes col)[r].2 = some ⟨false, r, (terminalCodes col)[r].2⟩ := by
  have hnodup := (List.nodup_append.1 (codeTable_nodup col)).1
  simp only [findCode, Prod.mk.eta, idxOf?_getElem_of_nodup hnodup hr]

theorem findCode_makeup {col : Colour} {k : Nat} (hk : k < (makeupCodes col).length) :
    findCode col (makeupCodes col)[k].1 (makeupCodes col)[k].2 =
      some ⟨true, 64 * (k + 1), (makeupCodes col)[k].2⟩ := by
  obtain ⟨-, hnodup, hdisjoint⟩ := List.nodup_append.1 (codeTable_nodup col)
  have hterm : (terminalCodes col).idxOf? (makeupCodes col)[k] = none := by
    rw [List.idxOf?_eq_none_iff]
    exact fun hmem => hdisjoint _ hmem _ (List.getElem_mem hk) rfl
  simp only [findCode, Prod.mk.eta, hterm, idxOf?_getElem_of_nodup hnodup hk]

/-- Where nothing of the table can be read, the lookup finds nothing. -/
theorem FaxReader.lookup_eq_none {col : Colour} {r : FaxReader} (h : ∀ c ∈ codeTable col, ¬ReadsCode c r.rest) :
    r.lookup col = none := by
  rw [FaxReader.lookup, List.findSome?_eq_none_iff]
  intro len _
  by_contra hsome
  obtain ⟨m, hm⟩ := Option.ne_none_iff_exists'.1 hsome
  exact h _ (mem_codeTable_of_findCode hm) rfl

theorem FaxReader.lookup_of_allZero {col : Colour} {r : FaxReader} (h : allZero r.rest = true) : r.lookup col = none := by
  refine FaxReader.lookup_eq_none fun c hc hreads => ?_
  have hpos := (code_fits_of_mem c hc).2.1
  rw [← hreads, peekBits_of_allZero h] at hpos
  exact absurd hpos (Nat.lt_irrefl 0)

theorem FaxReader.lookup_eol {col : Colour} (pos : Nat) (rest : List Bool) :
    (FaxReader.mk pos (eolBits ++ rest)).lookup col = none := by
  have heol : ReadsCode eolCode (eolBits ++ rest) := peekBits_lowBits_append (by decide) rest
  refine FaxReader.lookup_eq_none fun c hc hreads => ?_
  have hmem : eolCode ∈ codeTable col :=
    heol.unique hreads List.mem_cons_self (List.mem_cons_of_mem _ hc) ▸ hc
  exact (List.pairwise_cons.1 (codes_pairwise_prefixFree col)).1 eolCode hmem rfl

/-- Behind the codeword of a code the lookup finds what the table holds for that code. -/
theorem FaxReader.lookup_codeBits {col : Colour} {c : Nat × Nat} {m : CodeMatch} (h : findCode col c.1 c.2 = some m)
    (pos : Nat) (rest : List Bool) : (FaxReader.mk pos (codeBits c ++ rest)).lookup col = some m := by
  have hc : c ∈ codeTable col := mem_codeTable_of_findCode h
  obtain ⟨⟨hlow, hhigh⟩, -, hfits⟩ := code_fits_of_mem c hc
  have hreads := readsCode_codeBits hfits rest
  have hsplit : [2, 3, 4, 5, 6, 7, 8, 9, 10, 11, 12, 13] =
      List.range' 2 (c.2 - 2) ++ c.2 :: List.range' (c.2 + 1) (13 - c.2) := by
    interval_cases c.2 <;> rfl
  refine List.findSome?_eq_some_iff.2 ⟨_, _, _, hsplit, ?_, fun len hlen => ?_⟩
  · rwa [← hreads] at h
  · by_contra hsome
    obtain ⟨m', hm'⟩ := Option.ne_none_iff_exists'.1 hsome
    have hcode := hreads.unique (b := (peekBits len (codeBits c ++ rest), len)) rfl (List.mem_cons_of_mem _ hc)
      (List.mem_cons_of_mem _ (mem_codeTable_of_findCode hm'))
    have hlt := List.mem_range'_1.1 hlen
    rw [hcode] at hlt
    simp only at hlt
    omega

/-! ## Decoding a run (R411) -/

theorem terminalCodes_length (col : Colour) : (terminalCodes col).length = 64 := by cases col <;> rfl

theorem makeupCodes_length (col : Colour) : (makeupCodes col).length = 40 := by cases col <;> rfl

/-- The runs that have a makeup code (R470). -/
def HasMakeupCode (m : Nat) : Prop := 64 ∣ m ∧ 64 ≤ m ∧ m ≤ 2560

theorem findCode_termCode (col : Colour) {r : Nat} (hr : r < 64) :
    findCode col (termCode col r).1 (termCode col r).2 = some ⟨false, r, (termCode col r).2⟩ := by
  rw [← terminalCodes_length col] at hr
  have hcode : termCode col r = (terminalCodes col)[r] := List.getD_eq_getElem _ _ hr
  rw [hcode]
  exact findCode_terminal hr

theorem findCode_makeupCode (col : Colour) {m : Nat} (hm : HasMakeupCode m) :
    findCode col (makeupCode col m).1 (makeupCode col m).2 = some ⟨true, m, (makeupCode col m).2⟩ := by
  obtain ⟨⟨j, rfl⟩, hlow, hhigh⟩ := hm
  have hk : 64 * j / 64 - 1 < (makeupCodes col).length := by rw [makeupCodes_length]; omega
  have hcode : makeupCode col (64 * j) = (makeupCodes col)[64 * j / 64 - 1] := List.getD_eq_getElem _ _ hk
  have hvalue : 64 * (64 * j / 64 - 1 + 1) = 64 * j := by omega
  have hfind := findCode_makeup hk
  rw [hvalue] at hfind
  rwa [hcode]

@[simp] theorem codeBits_length (c : Nat × Nat) : (codeBits c).length = c.2 := lowBits_length _ _

theorem FaxReader.skip_codeBits (c : Nat × Nat) (pos : Nat) (rest : List Bool) :
    (FaxReader.mk pos (codeBits c ++ rest)).skip c.2 = ⟨pos + c.2, rest⟩ := by
  rw [FaxReader.skip, List.drop_left' (codeBits_length c)]

theorem decodeRun_termCode (col : Colour) {r : Nat} (hr : r < 64) (fuel run pos : Nat) (rest : List Bool) :
    decodeRun col (fuel + 1) run ⟨pos, codeBits (termCode col r) ++ rest⟩ =
      .ok (run + r, pos, ⟨pos + (termCode col r).2, rest⟩) := by
  simp [decodeRun, FaxReader.lookup_codeBits (findCode_termCode col hr), FaxReader.skip_codeBits]

theorem decodeRun_makeupCode (col : Colour) {m : Nat} (hm : HasMakeupCode m) (fuel run pos : Nat) (rest : List Bool) :
    decodeRun col (fuel + 1) run ⟨pos, codeBits (makeupCode col m) ++ rest⟩ =
      decodeRun col fuel (run + m) ⟨pos + (makeupCode col m).2, rest⟩ := by
  simp [decodeRun, FaxReader.lookup_codeBits (findCode_makeupCode col hm), FaxReader.skip_codeBits]

/-- Makeup codes, whichever, and a terminal code decode to their sum. -/
theorem decodeRun_makeups (col : Colour) {ms : List Nat} (hms : ∀ m ∈ ms, HasMakeupCode m) {r : Nat} (hr : r < 64)
    {fuel : Nat} (hfuel : ms.length < fuel) (run pos : Nat) (rest : List Bool) :
    ∃ cpos, decodeRun col fuel run
        ⟨pos, ms.flatMap (fun m => codeBits (makeupCode col m)) ++ (codeBits (termCode col r) ++ rest)⟩ =
      .ok (run + ms.sum + r, cpos,
        ⟨pos + (ms.flatMap (fun m => codeBits (makeupCode col m)) ++ codeBits (termCode col r)).length, rest⟩) := by
  obtain ⟨fuel, rfl⟩ := Nat.exists_eq_add_of_le' (Nat.one_le_of_lt hfuel)
  induction ms generalizing fuel run pos with
  | nil => exact ⟨pos, by simpa using decodeRun_termCode col hr fuel run pos rest⟩
  | cons m ms ih =>
    obtain ⟨hm, hms⟩ := List.forall_mem_cons.1 hms
    rw [List.length_cons] at hfuel
    obtain ⟨fuel, rfl⟩ := Nat.exists_eq_add_of_le' (m := 1) (n := fuel) (by omega)
    obtain ⟨cpos, hrest⟩ := ih hms (run + m) (pos + (makeupCode col m).2) fuel (by omega)
    refine ⟨cpos, ?_⟩
    rw [List.flatMap_cons, List.append_assoc, decodeRun_makeupCode col hm, hrest]
    simp only [List.sum_cons, List.length_append, codeBits_length, Nat.add_assoc]

/-! ## The codewords of a run (R405) -/

/-- The runs whose makeup codes `write_run` writes for a run of `r`. -/
def makeupRuns (r : Nat) : List Nat :=
  List.replicate (r / 2560) 2560 ++ if 64 ≤ r % 2560 then [64 * (r % 2560 / 64)] else []

theorem runBits_eq (col : Colour) (r : Nat) :
    runBits col r =
      (makeupRuns r).flatMap (fun m => codeBits (makeupCode col m)) ++ codeBits (termCode col (r % 2560 % 64)) := by
  rw [runBits, makeupRuns, List.flatMap_append, List.flatMap_replicate]
  split <;> simp

theorem hasMakeupCode_of_mem_makeupRuns {r m : Nat} (h : m ∈ makeupRuns r) : HasMakeupCode m := by
  rcases List.mem_append.1 h with h | h
  · rw [List.eq_of_mem_replicate h]
    exact ⟨by decide, by decide, by decide⟩
  · split at h
    · rw [List.mem_singleton.1 h]
      exact ⟨Nat.dvd_mul_right _ _, by omega, by omega⟩
    · cases h

theorem makeupRuns_sum (r : Nat) : (makeupRuns r).sum + r % 2560 % 64 = r := by
  rw [makeupRuns, List.sum_append, List.sum_replicate, smul_eq_mul]
  split
  · rw [List.sum_singleton]; omega
  · rw [List.sum_nil]; omega

theorem codeBits_length_pos {col : Colour} {c : Nat × Nat} {m : CodeMatch} (h : findCode col c.1 c.2 = some m) :
    0 < (codeBits c).length := by
  rw [codeBits_length]
  exact Nat.zero_lt_of_lt (code_fits_of_mem c (mem_codeTable_of_findCode h)).1.1

theorem length_le_length_flatMap {α : Type} {f : α → List Bool} {l : List α} (h : ∀ x ∈ l, 0 < (f x).length) :
    l.length ≤ (l.flatMap f).length := by
  rw [List.length_flatMap, ← List.length_map (f := fun x => (f x).length)]
  refine List.length_le_sum_of_one_le _ fun n hn => ?_
  obtain ⟨x, hx, rfl⟩ := List.mem_map.1 hn
  exact h x hx

theorem makeupRuns_length_lt (col : Colour) (r : Nat) : (makeupRuns r).length < (runBits col r).length := by
  have hmakeups := length_le_length_flatMap (f := fun m => codeBits (makeupCode col m)) (l := makeupRuns r)
    fun m hm => codeBits_length_pos (findCode_makeupCode col (hasMakeupCode_of_mem_makeupRuns hm))
  have hterm := codeBits_length_pos (findCode_termCode col (r := r % 2560 % 64) (by omega))
  rw [runBits_eq, List.length_append]
  omega

/-- Settles O51: a run is written as makeup codes and a terminal code whose values sum to it, and the lookup finds each
code whatever follows, since no two codes can be read at one place. -/
theorem writtenRunDecodes : Obligations.WrittenRunDecodes := by
  intro col run pos rest
  have hlen := makeupRuns_length_lt col run
  obtain ⟨cpos, h⟩ := decodeRun_makeups col (fun m hm => hasMakeupCode_of_mem_makeupRuns hm) (r := run % 2560 % 64)
    (by omega) (ms := makeupRuns run) (fuel := (runBits col run ++ rest).length + 1)
    (by rw [List.length_append]; omega) 0 pos rest
  rw [← List.append_assoc, ← runBits_eq, Nat.zero_add, makeupRuns_sum] at h
  exact ⟨cpos, h⟩

end Sys2Proof.Machine
end

section
/-! PROOF. ccitt_fax_encoder and ccitt_fax_decoder, what is checked before a line is decoded (spec/45_ccitt_fax.md R401,
R413 to R415): the configuration, the causes of R414, and the EOL that a line must start with. -/

namespace Sys2Proof.Machine

/-! ## Which causes FAX.DEC raises (R414) -/

/-- The causes of R414. -/
def faxDecodeCauses : List Cause := [.faxBadCode, .faxTruncated, .faxRunOverflow, .faxMissingEol]

theorem decodeRun_cause {col : Colour} {fuel run pos : Nat} {r : FaxReader} {c : Cause}
    (h : decodeRun col fuel run r = .error (c, pos)) : c ∈ faxDecodeCauses := by
  induction fuel generalizing run r with
  | zero => cases h; decide
  | succ fuel ih =>
    rw [decodeRun] at h
    split at h
    · cases h; decide
    · split_ifs at h
      · cases h; decide
      · exact ih h

theorem decodeLine_cause {f : FaxConfig} {fuel pos : Nat} {col : Colour} {line : List Bool} {r : FaxReader} {c : Cause}
    (h : decodeLine f fuel col line r = .error (c, pos)) : c ∈ faxDecodeCauses := by
  induction fuel generalizing col line r with
  | zero => cases h; decide
  | succ fuel ih =>
    rw [decodeLine] at h
    split_ifs at h
    split at h
    · next hrun => cases h; exact decodeRun_cause hrun
    · split_ifs at h
      · cases h; decide
      · exact ih h

theorem lineStart_cause {f : FaxConfig} {pos : Nat} {r : FaxReader} {c : Cause}
    (h : lineStart f r = .error (c, pos)) : c ∈ faxDecodeCauses := by
  unfold lineStart at h
  split_ifs at h
  cases h
  decide

/-- The row-count limit of R413 (1). -/
abbrev FaxConfig.AtRowLimit (f : FaxConfig) (rows : Nat) : Prop := f.eob = false ∧ 0 < f.rows ∧ (rows : Int) = f.rows

theorem faxDecodeFrom_cause {f : FaxConfig} {fuel rows pos : Nat} {r : FaxReader} {c : Cause}
    (h : (faxDecodeFrom f fuel rows r).ending = .error c pos) : c ∈ faxDecodeCauses := by
  induction fuel generalizing rows r with
  | zero => cases h
  | succ fuel ih =>
    rw [faxDecodeFrom] at h
    split at h
    · cases h
    generalize (if f.byteAlign = true then r.align else r) = r1 at h
    dsimp only at h
    split at h
    · cases h
    split at h
    · next hstart => cases h; exact lineStart_cause hstart
    · cases h
    · split at h
      · next hline => cases h; exact decodeLine_cause hline
      · exact ih h

/-! ## The configuration (R401) -/

theorem FaxConfig.columns_of_valid {f : FaxConfig} {params : Params} (h : f.invalid? params = none) :
    f.k = 0 ∧ 1 ≤ f.columns := by
  unfold invalid? at h
  split_ifs at h
  omega

theorem State.faxColumns_toInt_toNat {s : State} (h : 1 ≤ s.faxColumns.toInt) :
    s.faxColumns.toInt.toNat = s.faxColumns.toNat := by
  rw [BitVec.toInt_eq_toNat_cond] at h ⊢
  split at h <;> omega

theorem State.faxConfig_invalid?_eq (s : State) :
    s.faxConfig.invalid? s.cfg =
      if s.faxK.toInt < 0 then some .fax2dUnsupported
      else if 0 < s.faxK.toInt then some .faxMixedUnsupported
      else if s.faxColumns.toInt < 1 then some .faxBadColumns
      else if s.faxRows.toInt < 0 then some .faxBadRows
      else if s.cfg.lineCap.any (fun cap => cap < (s.faxColumns.toNat + 7) / 8) = true then some .faxRowTooLong
      else none := by
  rw [FaxConfig.invalid?]
  by_cases hcolumns : s.faxColumns.toInt < 1
  · rw [if_pos (show s.faxConfig.columns < 1 from hcolumns), if_pos hcolumns]
    rfl
  · have hbytes : s.faxConfig.rowBytes = (s.faxColumns.toNat + 7) / 8 :=
      congrArg (ceilDiv · 8) (State.faxColumns_toInt_toNat (Int.not_lt.1 hcolumns))
    rw [Params.rowTooLong_eq, hbytes]
    rfl

/-- How a fax command ends by the verdict of `validate_fax()` alone. -/
def FaxEndsByVerdict (i : Instr) (s : State) : Option Cause → Prop
  | some c => CodecFails i s c 0 []
  | none => ∀ t, exec i s = .next t → t.errKind ≠ 2 ∧ t.errKind ≠ 3

/-- With a valid configuration neither job raises an UnsupportedScheme or a Configuration error. -/
theorem codecEmits_fax_kind_of_valid {i : Instr} {s : State} {c : Cause} {pos : Nat} (hi : i = .faxEnc ∨ i = .faxDec)
    (h : s.faxConfig.invalid? s.cfg = none) (hend : (codecEmits i s).ending = .error c pos) :
    c.kind.code ≠ 2 ∧ c.kind.code ≠ 3 := by
  rcases hi with rfl | rfl
  · simp only [codecEmits, faxEncJob, h] at hend
    split at hend <;> cases hend
    decide
  · simp only [codecEmits, faxDecJob, h] at hend
    have hkinds : ∀ c ∈ faxDecodeCauses, c.kind.code ≠ 2 ∧ c.kind.code ≠ 3 := by decide
    exact hkinds c (faxDecodeFrom_cause hend)

theorem faxEndsByVerdict_invalid? {i : Instr} {s : State} (hi : i = .faxEnc ∨ i = .faxDec) (hs : CodecReady s) :
    FaxEndsByVerdict i s (s.faxConfig.invalid? s.cfg) := by
  have hcodec : isCodec i = true := by rcases hi with rfl | rfl <;> rfl
  cases hverdict : s.faxConfig.invalid? s.cfg with
  | some c =>
    have hemits : codecEmits i s = .raised c 0 := by
      rcases hi with rfl | rfl
      · simp only [codecEmits, faxEncJob, hverdict]
      · simp only [codecEmits, faxDecJob, hverdict]
    exact codecFails_of_emits hcodec hs hemits (Nat.zero_le _) (Nat.zero_le _)
  | none =>
    intro t ht
    have hkind := fun c pos => codecEmits_fax_kind_of_valid (c := c) (pos := pos) hi hverdict
    exact ⟨exec_codec_errKind_ne hcodec hs (by decide) (by decide) (fun c pos hend => (hkind c pos hend).1) ht,
      exec_codec_errKind_ne hcodec hs (by decide) (by decide) (fun c pos hend => (hkind c pos hend).2) ht⟩

/-- Settles O28: each branch of the rule's chain is what the verdict of that branch makes the command do. -/
theorem faxConfigurationChecked : Obligations.FaxConfigurationChecked := by
  intro i s hi hs
  have h := faxEndsByVerdict_invalid? (by simpa using hi) hs
  rw [State.faxConfig_invalid?_eq] at h
  simp only [apply_ite (FaxEndsByVerdict i s)] at h
  exact h

/-! ## The start of a line (R413 (2) to (5)) -/

/-- The reader after R413 (2): at a byte boundary if the lines are aligned. -/
def FaxReader.toLine (f : FaxConfig) (r : FaxReader) : FaxReader := if f.byteAlign then r.align else r

/-- The padding before a line that starts behind `n` bits (R407). -/
def alignBits (f : FaxConfig) (n : Nat) : List Bool := if f.byteAlign then alignPad n else []

/-- The reader skips the encoder's padding. -/
theorem FaxReader.toLine_alignBits (f : FaxConfig) (n : Nat) (rest : List Bool) :
    (FaxReader.mk n (alignBits f n ++ rest)).toLine f = ⟨n + (alignBits f n).length, rest⟩ := by
  rw [FaxReader.toLine, alignBits]
  split
  · have hlen : (alignPad n).length = 8 * ceilDiv n 8 - n := List.length_replicate
    rw [FaxReader.align, FaxReader.skip, List.drop_left' hlen, hlen]
  · rfl

@[simp] theorem alignBits_zero (f : FaxConfig) : alignBits f 0 = [] := by
  rw [alignBits]
  split <;> rfl

@[simp] theorem eolBits_length : eolBits.length = 12 := lowBits_length 1 12

/-- The check for an EOL (R413 (5)) finds exactly the twelve bits of R406. -/
theorem eol_present_iff (rest : List Bool) : (12 ≤ rest.length ∧ peekBits 12 rest = 1) ↔ rest.take 12 = eolBits := by
  constructor
  · rintro ⟨hlen, hpeek⟩
    have htake : (rest.take 12).length = 12 := List.length_take_of_le hlen
    rw [peekBits, Nat.sub_eq_zero_of_le hlen, zeroBits, List.replicate_zero, List.append_nil] at hpeek
    have hbits := lowBits_natOfBits (rest.take 12)
    rw [htake, hpeek] at hbits
    exact hbits.symm
  · intro heol
    have hlen := congrArg List.length heol
    rw [List.length_take, eolBits_length] at hlen
    refine ⟨by omega, ?_⟩
    rw [← List.take_append_drop 12 rest, heol]
    exact peekBits_lowBits_append (by decide) _

theorem lineStart_eol {f : FaxConfig} (pos : Nat) {rest : List Bool} (h : allZero rest = false) :
    lineStart f ⟨pos, eolBits ++ rest⟩ = .ok (some ⟨pos + 12, rest⟩) := by
  have hskip : (FaxReader.mk pos (eolBits ++ rest)).skip 12 = ⟨pos + 12, rest⟩ := by
    rw [FaxReader.skip, List.drop_left' eolBits_length]
  rw [lineStart, if_pos ((eol_present_iff _).2 (List.take_left' eolBits_length)), hskip, if_neg (by simp [h])]

theorem lineStart_of_not_eol {f : FaxConfig} {r : FaxReader} (h : r.rest.take 12 ≠ eolBits) :
    lineStart f r = if f.eol then .error (.faxMissingEol, r.pos) else .ok (some r) := by
  rw [lineStart, if_neg (mt (eol_present_iff _).1 h)]

/-- Data that holds a 1 and does not start with an EOL stops the decoder neither as exhausted nor as RTC. -/
theorem faxStops_of_not_eol {f : FaxConfig} {r : FaxReader} (hone : allZero r.rest = false)
    (h : r.rest.take 12 ≠ eolBits) : faxStops f r = false := by
  have hrtc : r.rest.take 72 ≠ rtcBits := by
    intro heq
    have hfirst := congrArg (List.take 12) heq
    rw [List.take_take] at hfirst
    exact h hfirst
  simp [faxStops, hone, hrtc]

section
variable {f : FaxConfig} {rows : Nat} {r : FaxReader}

theorem faxDecodeFrom_of_rowLimit (hlimit : f.AtRowLimit rows) (fuel : Nat) : faxDecodeFrom f fuel rows r = .done := by
  cases fuel with
  | zero => rfl
  | succ fuel => rw [faxDecodeFrom, if_pos hlimit]

theorem faxDecodeFrom_of_stops (hstop : faxStops f (r.toLine f) = true) (fuel : Nat) :
    faxDecodeFrom f fuel rows r = .done := by
  cases fuel with
  | zero => rfl
  | succ fuel =>
    rw [faxDecodeFrom]
    split
    · rfl
    · exact if_pos hstop

theorem faxDecodeFrom_of_badStart {c : Cause} {pos : Nat} (hlimit : ¬f.AtRowLimit rows)
    (hstop : faxStops f (r.toLine f) = false) (hstart : lineStart f (r.toLine f) = .error (c, pos)) (fuel : Nat) :
    faxDecodeFrom f (fuel + 1) rows r = .raised c pos := by
  rw [FaxReader.toLine] at hstop hstart
  simp only [faxDecodeFrom, if_neg hlimit, hstop, hstart, Bool.false_eq_true, if_false]

theorem faxDecodeFrom_of_line {r2 r3 : FaxReader} {line : List Bool} (hlimit : ¬f.AtRowLimit rows)
    (hstop : faxStops f (r.toLine f) = false) (hstart : lineStart f (r.toLine f) = .ok (some r2))
    (hline : decodeLine f (r2.rest.length + 1) .white [] r2 = .ok (line, r3)) (fuel : Nat) :
    faxDecodeFrom f (fuel + 1) rows r = .emitting (packBits line) (faxDecodeFrom f fuel (rows + 1) r3) := by
  rw [FaxReader.toLine] at hstop hstart
  simp only [faxDecodeFrom, if_neg hlimit, hstop, hstart, hline, Bool.false_eq_true, if_false]

end

theorem allZero_eq_false_of_mem {rest : List Bool} (h : true ∈ rest) : allZero rest = false := by
  rw [allZero, List.all_eq_false]
  exact ⟨true, h, by decide⟩

/-- Settles O52: at bit 0 the reader is aligned, no row is decoded, and neither stop condition holds. -/
theorem faxMissingEolReported : Obligations.FaxMissingEolReported := by
  intro s hs hvalid heol hone hmissing
  have haligned : (FaxReader.mk 0 (bitsOf s.inp)).toLine s.faxConfig = ⟨0, bitsOf s.inp⟩ := by
    simpa using FaxReader.toLine_alignBits s.faxConfig 0 (bitsOf s.inp)
  have hlimit : ¬s.faxConfig.AtRowLimit 0 := fun ⟨_, hpos, heq⟩ => hpos.ne heq
  have hjob : codecEmits .faxDec s = .raised .faxMissingEol 0 := by
    simp only [codecEmits, faxDecJob, hvalid]
    refine faxDecodeFrom_of_badStart hlimit ?_ ?_ _ <;> rw [haligned]
    · exact faxStops_of_not_eol (allZero_eq_false_of_mem hone) hmissing
    · rw [lineStart_of_not_eol hmissing]
      exact if_pos heol
  exact codecFails_of_emits rfl hs hjob (Nat.zero_le _) (Nat.zero_le _)

end Sys2Proof.Machine
end

section
/-! PROOF. ccitt_fax_encoder and ccitt_fax_decoder, the round trip (spec/45_ccitt_fax.md R404 to R416): the runs of a line
decode to its pixels, a coded line is neither exhausted data nor an EOL, and the decoder follows the encoder row by row. -/

namespace Sys2Proof.Machine

/-! ## The runs of a line (R404, R412) -/

/-- The colour of a pixel given as "is black". -/
def colourOf (black : Bool) : Colour := if black then .black else .white

theorem pixelBit_colourOf_isBlack (blackIs1 bit : Bool) : pixelBit blackIs1 (colourOf (isBlack blackIs1 bit)) = bit := by
  cases blackIs1 <;> cases bit <;> rfl

theorem colourOf_eq_of_eq {col : Colour} {black : Bool} (h : black = decide (col = .black)) : colourOf black = col := by
  subst h
  cases col <;> rfl

theorem colourOf_eq_otherColour {col : Colour} {black : Bool} (h : black ≠ decide (col = .black)) :
    colourOf black = otherColour col := by
  rw [Bool.eq_not_of_ne h]
  cases col <;> rfl

theorem runBits_length_pos (col : Colour) (r : Nat) : 0 < (runBits col r).length :=
  Nat.zero_lt_of_lt (makeupRuns_length_lt col r)

/-- The codewords of a line's runs. -/
def runsBits (runs : List (Colour × Nat)) : List Bool := runs.flatMap fun run => runBits run.1 run.2

theorem runsBits_cons (col : Colour) (r : Nat) (runs : List (Colour × Nat)) (rest : List Bool) :
    runsBits ((col, r) :: runs) ++ rest = runBits col r ++ (runsBits runs ++ rest) := by
  rw [runsBits, List.flatMap_cons, List.append_assoc]
  rfl

theorem length_le_runsBits (runs : List (Colour × Nat)) : runs.length ≤ (runsBits runs).length :=
  length_le_length_flatMap fun run _ => runBits_length_pos run.1 run.2

section
variable {f : FaxConfig} {fuel : Nat} {col : Colour} {line : List Bool}

theorem decodeLine_of_full {r : FaxReader} (h : f.width ≤ line.length) :
    decodeLine f (fuel + 1) col line r = .ok (line, r) := if_pos h

/-- A written run that fits the line joins it, and the other colour follows. -/
theorem decodeLine_runBits {run : Nat} (hopen : line.length < f.width) (hfit : line.length + run ≤ f.width) (pos : Nat)
    (rest : List Bool) :
    decodeLine f (fuel + 1) col line ⟨pos, runBits col run ++ rest⟩ =
      decodeLine f fuel (otherColour col) (line ++ List.replicate run (pixelBit f.blackIs1 col))
        ⟨pos + (runBits col run).length, rest⟩ := by
  obtain ⟨cpos, hrun⟩ := writtenRunDecodes col run pos rest
  simp only [decodeLine, if_neg hopen.not_ge, hrun, if_neg hfit.not_gt]

end

/-- The runs of the pixels left, `count` of them read already, complete the line. -/
theorem decodeLine_lineRuns {f : FaxConfig} {col : Colour} {count : Nat} {pixels line : List Bool}
    (hwidth : line.length + count + pixels.length = f.width) (hleft : 0 < count + pixels.length) {fuel : Nat}
    (hfuel : (lineRuns col count pixels).length < fuel) (pos : Nat) (rest : List Bool) :
    decodeLine f fuel col line ⟨pos, runsBits (lineRuns col count pixels) ++ rest⟩ =
      .ok (line ++ List.replicate count (pixelBit f.blackIs1 col)
          ++ pixels.map (fun black => pixelBit f.blackIs1 (colourOf black)),
        ⟨pos + (runsBits (lineRuns col count pixels)).length, rest⟩) := by
  induction pixels generalizing col count line fuel pos with
  | nil =>
    obtain ⟨fuel, rfl⟩ : ∃ k, fuel = k + 2 := Nat.exists_eq_add_of_le' hfuel
    simp only [List.length_nil, Nat.add_zero] at hwidth hleft
    rw [lineRuns, runsBits_cons, decodeLine_runBits (by omega) (by omega), decodeLine_of_full (by simp; omega)]
    simp [runsBits]
  | cons black pixels ih =>
    rw [List.length_cons] at hwidth
    rw [lineRuns] at hfuel ⊢
    split_ifs at hfuel ⊢ with hsame
    · rw [ih (by omega) (by omega) hfuel, List.replicate_succ', List.map_cons, colourOf_eq_of_eq hsame]
      simp only [List.append_assoc, List.singleton_append]
    · obtain ⟨fuel, rfl⟩ := Nat.exists_eq_add_of_le' (Nat.one_le_of_lt hfuel)
      rw [runsBits_cons, decodeLine_runBits (by omega) (by omega),
        ih (by simp; omega) (by omega) (Nat.lt_of_succ_lt_succ hfuel), List.map_cons, colourOf_eq_otherColour hsame]
      simp [runsBits, Nat.add_assoc]

/-! ## Coded lines (R410, R412) -/

theorem lineBits_eq (f : FaxConfig) (row : List Byte) :
    lineBits f row = runsBits (lineRuns .white 0 (((bitsOf row).take f.width).map (isBlack f.blackIs1))) := rfl

theorem FaxConfig.width_pos_of_valid {f : FaxConfig} {params : Params} (h : f.invalid? params = none) : 0 < f.width := by
  have hcolumns := (FaxConfig.columns_of_valid h).2
  rw [FaxConfig.width]
  omega

theorem FaxConfig.rowBytes_pos {f : FaxConfig} (hwidth : 0 < f.width) : 0 < f.rowBytes := by
  rw [FaxConfig.rowBytes, ceilDiv]
  omega

/-- The row is whole and its pad bits are 0 (R402). -/
structure FaxConfig.PlainRow (f : FaxConfig) (row : List Byte) : Prop where
  length : row.length = f.rowBytes
  pad : allZero ((bitsOf row).drop f.width) = true

section
variable {f : FaxConfig} {row : List Byte}

theorem FaxConfig.PlainRow.width_le (h : f.PlainRow row) : f.width ≤ (bitsOf row).length := by
  rw [bitsOf_length, h.length, FaxConfig.rowBytes, ceilDiv]
  omega

/-- The first C pixels of the row, padded again, are the row. -/
theorem FaxConfig.PlainRow.packBits_take (h : f.PlainRow row) : packBits ((bitsOf row).take f.width) = row := by
  have hbits : bitsOf (packBits ((bitsOf row).take f.width)) = bitsOf row := by
    have hpad : (bitsOf row).drop f.width = alignPad f.width := by
      rw [alignPad, zeroBits, List.eq_replicate_iff]
      refine ⟨?_, fun b hb => by simpa using List.all_eq_true.1 h.pad b hb⟩
      rw [List.length_drop, bitsOf_length, h.length, FaxConfig.rowBytes]
    rw [bitsOf_packBits, List.length_take_of_le h.width_le, ← hpad, List.take_append_drop]
  rw [← packBits_bitsOf (packBits _), hbits, packBits_bitsOf]

/-- A coded line decodes to the row's pixels whatever follows. -/
theorem decodeLine_lineBits (hwidth : 0 < f.width) (h : f.PlainRow row) (pos : Nat) (rest : List Bool) :
    decodeLine f ((lineBits f row ++ rest).length + 1) .white [] ⟨pos, lineBits f row ++ rest⟩ =
      .ok ((bitsOf row).take f.width, ⟨pos + (lineBits f row).length, rest⟩) := by
  have hlen := List.length_take_of_le h.width_le
  have hruns := length_le_runsBits (lineRuns .white 0 (((bitsOf row).take f.width).map (isBlack f.blackIs1)))
  have hline := decodeLine_lineRuns (f := f) (line := []) (col := .white) (count := 0)
    (pixels := ((bitsOf row).take f.width).map (isBlack f.blackIs1)) (by simpa using hlen) (by rw [List.length_map]; omega)
    (fuel := (lineBits f row ++ rest).length + 1) (by rw [List.length_append, lineBits_eq]; omega) pos rest
  simpa only [← lineBits_eq, List.map_map, Function.comp_def, pixelBit_colourOf_isBlack, List.map_id',
    List.replicate_zero, List.nil_append] using hline

/-- A coded line starts with a code of the table. -/
theorem lookup_lineBits (hwidth : 0 < f.width) (h : f.PlainRow row) (rest : List Bool) :
    (FaxReader.mk 0 (lineBits f row ++ rest)).lookup .white ≠ none := by
  intro hnone
  have hline := decodeLine_lineBits hwidth h 0 rest
  simp only [decodeLine, decodeRun, hnone, List.length_nil, if_neg hwidth.not_ge, reduceCtorEq] at hline

/-- A coded line holds a 1, so condition R413 (3) cannot swallow it (R471). -/
theorem lineBits_not_allZero (hwidth : 0 < f.width) (h : f.PlainRow row) (rest : List Bool) :
    allZero (lineBits f row ++ rest) = false :=
  Bool.eq_false_iff.2 fun hzero => lookup_lineBits hwidth h rest (FaxReader.lookup_of_allZero hzero)

/-- A coded line does not start with an EOL (R471). -/
theorem lineBits_not_eol (hwidth : 0 < f.width) (h : f.PlainRow row) (rest : List Bool) :
    (lineBits f row ++ rest).take 12 ≠ eolBits := by
  intro heol
  have hsplit := List.take_append_drop 12 (lineBits f row ++ rest)
  rw [heol] at hsplit
  exact lookup_lineBits hwidth h rest (hsplit ▸ FaxReader.lookup_eol 0 _)

end

/-! ## A row of the stream (R410, R413) -/

/-- The EOL before a line (R410). -/
def eolMark (f : FaxConfig) : List Bool := if f.eol then eolBits else []

section
variable {f : FaxConfig} {body : List Bool}

/-- The decoder does not stop at a line, whether an EOL precedes it or not. -/
theorem faxStops_eolMark (hone : allZero body = false) (heol : body.take 12 ≠ eolBits) (pos : Nat) :
    faxStops f ⟨pos, eolMark f ++ body⟩ = false := by
  rw [eolMark]
  split
  · have hzero : allZero (eolBits ++ body) = false := by
      rw [allZero, List.all_append]
      exact Bool.and_eq_false_imp.2 fun _ => hone
    have hrtc : (eolBits ++ body).take 72 ≠ rtcBits := by
      intro heq
      have hsecond := congrArg (fun l => (l.drop 12).take 12) heq
      simp only [List.drop_take, List.take_take, List.drop_left' eolBits_length] at hsecond
      exact heol hsecond
    simp [faxStops, hzero, hrtc]
  · exact faxStops_of_not_eol hone heol

theorem lineStart_eolMark (hone : allZero body = false) (heol : body.take 12 ≠ eolBits) (pos : Nat) :
    lineStart f ⟨pos, eolMark f ++ body⟩ = .ok (some ⟨pos + (eolMark f).length, body⟩) := by
  rw [eolMark]
  split
  · rw [lineStart_eol pos hone, eolBits_length]
  · next hoff => rw [lineStart_of_not_eol (by exact heol), if_neg hoff]; rfl

end

/-- The bits the encoder writes for a row behind `n` bits. -/
def faxRow (f : FaxConfig) (n : Nat) (row : List Byte) : List Bool := alignBits f n ++ (eolMark f ++ lineBits f row)

/-- The decoder emits a coded row and goes on behind it. -/
theorem faxDecodeFrom_faxRow {f : FaxConfig} (hwidth : 0 < f.width) {row : List Byte} (h : f.PlainRow row) {rows : Nat}
    (hlimit : ¬f.AtRowLimit rows) (fuel n : Nat) (rest : List Bool) :
    faxDecodeFrom f (fuel + 1) rows ⟨n, faxRow f n row ++ rest⟩ =
      .emitting row (faxDecodeFrom f fuel (rows + 1) ⟨n + (faxRow f n row).length, rest⟩) := by
  have hone := lineBits_not_allZero hwidth h rest
  have heol := lineBits_not_eol hwidth h rest
  have hline := decodeLine_lineBits hwidth h (n + (alignBits f n).length + (eolMark f).length) rest
  have hrow := faxDecodeFrom_of_line (r := ⟨n, alignBits f n ++ (eolMark f ++ (lineBits f row ++ rest))⟩) hlimit
    (by rw [FaxReader.toLine_alignBits]; exact faxStops_eolMark hone heol _)
    (by rw [FaxReader.toLine_alignBits]; exact lineStart_eolMark hone heol _) hline fuel
  rw [h.packBits_take] at hrow
  simpa only [faxRow, List.append_assoc, List.length_append, Nat.add_assoc] using hrow

/-! ## The whole stream (R410, R413) -/

/-- What the encoder writes behind the last row, `n` bits being written: the RTC if there is one (R410). -/
def faxEnd (f : FaxConfig) (n : Nat) : List Bool := if f.eob then alignBits f n ++ rtcBits else []

/-- What the encoder writes for rows and the end, `n` bits being written. -/
def faxStream (f : FaxConfig) (n : Nat) : List (List Byte) → List Bool
  | [] => faxEnd f n
  | row :: rows => faxRow f n row ++ faxStream f (n + (faxRow f n row).length) rows

/-- The encoder's accumulating loop writes that stream. -/
theorem faxClose_faxRowsBits (f : FaxConfig) (acc : List Bool) (rows : List (List Byte)) :
    faxClose f (faxRowsBits f acc rows) = acc ++ faxStream f acc.length rows := by
  induction rows generalizing acc with
  | nil =>
    rw [faxRowsBits, faxClose, faxStream, faxEnd]
    split
    · rw [alignBits, List.append_assoc]
    · rw [List.append_nil]
  | cons row rows ih =>
    have hacc : acc ++ (if f.byteAlign then alignPad acc.length else []) ++ (if f.eol then eolBits else [])
        ++ lineBits f row = acc ++ faxRow f acc.length row := by
      simp only [faxRow, alignBits, eolMark, List.append_assoc]
    rw [faxRowsBits, hacc, ih, faxStream, List.length_append, List.append_assoc]

/-- At the end of the stream the decoder stops: at the RTC if there is one, else because only padding is left. -/
theorem faxDecodeFrom_faxEnd (f : FaxConfig) (fuel rows n k : Nat) :
    faxDecodeFrom f fuel rows ⟨n, faxEnd f n ++ zeroBits k⟩ = .done := by
  apply faxDecodeFrom_of_stops
  rw [faxEnd]
  split
  · next heob =>
    have hrtc : (rtcBits ++ zeroBits k).take 72 = rtcBits := List.take_left' rfl
    have hlen : 72 ≤ (rtcBits ++ zeroBits k).length := by
      rw [List.length_append]
      exact Nat.le_add_right _ _
    rw [List.append_assoc, FaxReader.toLine_alignBits]
    simp only [faxStops, heob, hrtc, hlen, decide_true, Bool.and_self, Bool.or_true]
  · have hzero : ∀ j, allZero ((zeroBits k).drop j) = true := by simp [allZero, zeroBits]
    have hrest : allZero ((FaxReader.mk n (zeroBits k)).toLine f).rest = true := by
      rw [FaxReader.toLine]
      split
      · exact hzero _
      · exact hzero 0
    rw [List.nil_append, faxStops, hrest, Bool.true_or]

/-- The decoder follows the encoder through all rows; a row count, if it applies, is that of the stream. -/
theorem faxDecodeFrom_faxStream {f : FaxConfig} (hwidth : 0 < f.width) {rows : List (List Byte)}
    (hrows : ∀ row ∈ rows, f.PlainRow row) {done : Nat}
    (hcount : f.eob = false → f.rows = 0 ∨ f.rows = (done + rows.length : Nat)) {fuel : Nat} (hfuel : rows.length ≤ fuel)
    (n k : Nat) :
    faxDecodeFrom f fuel done ⟨n, faxStream f n rows ++ zeroBits k⟩ = ⟨rows.flatten, .success⟩ := by
  induction rows generalizing done fuel n with
  | nil => exact faxDecodeFrom_faxEnd f fuel done n k
  | cons row rows ih =>
    obtain ⟨hrow, hrows⟩ := List.forall_mem_cons.1 hrows
    rw [List.length_cons] at hcount hfuel
    obtain ⟨fuel, rfl⟩ := Nat.exists_eq_add_of_le' (Nat.one_le_of_lt hfuel)
    have hlimit : ¬f.AtRowLimit done := by
      rintro ⟨heob, hpos, heq⟩
      rcases hcount heob with h | h <;> omega
    rw [faxStream, List.append_assoc, faxDecodeFrom_faxRow hwidth hrow hlimit,
      ih hrows (fun heob => by have := hcount heob; omega) (by omega)]
    rfl

theorem faxStream_length_ge {f : FaxConfig} (hwidth : 0 < f.width) {rows : List (List Byte)}
    (hrows : ∀ row ∈ rows, f.PlainRow row) (n : Nat) : rows.length ≤ (faxStream f n rows).length := by
  induction rows generalizing n with
  | nil => exact Nat.zero_le _
  | cons row rows ih =>
    obtain ⟨hrow, hrows⟩ := List.forall_mem_cons.1 hrows
    have hline : 0 < (lineBits f row).length := by
      refine List.length_pos_of_ne_nil fun hnil => ?_
      have hone := lineBits_not_allZero hwidth hrow []
      rw [hnil] at hone
      cases hone
    have hrest := ih hrows (n + (faxRow f n row).length)
    simp only [faxStream, faxRow, List.length_append, List.length_cons] at hrest ⊢
    omega

/-! ## The round trip (R416) -/

/-- The encoder does not look at the row count (R410). -/
theorem faxCompress_rows (f : FaxConfig) (r : Int) (inp : List Byte) :
    faxCompress { f with rows := r } inp = faxCompress f inp := by
  have hloop : ∀ acc rows, faxRowsBits { f with rows := r } acc rows = faxRowsBits f acc rows := by
    intro acc rows
    induction rows generalizing acc with
    | nil => rfl
    | cons row rows ih => exact ih _
  exact congrArg (fun bits => packBits (faxClose f bits)) (hloop [] _)

/-- FAX.DEC's loop undoes FAX.ENC for whole rows with zero pad bits. -/
theorem faxDecodeFrom_faxCompress {f : FaxConfig} (hwidth : 0 < f.width) {inp : List Byte}
    (hrows : ∀ row ∈ pieces f.rowBytes inp, f.PlainRow row)
    (hcount : f.eob = false → f.rows = 0 ∨ f.rows = ((pieces f.rowBytes inp).length : Nat)) :
    faxDecodeFrom f (8 * (faxCompress f inp).length + 1) 0 ⟨0, bitsOf (faxCompress f inp)⟩ = ⟨inp, .success⟩ := by
  obtain ⟨k, hbits⟩ : ∃ k, bitsOf (faxCompress f inp) = faxStream f 0 (pieces f.rowBytes inp) ++ zeroBits k :=
    ⟨_, by rw [faxCompress, bitsOf_packBits, faxClose_faxRowsBits, List.nil_append, List.length_nil, alignPad]⟩
  have hlen := faxStream_length_ge hwidth hrows 0
  have hfuel := bitsOf_length (faxCompress f inp)
  rw [hbits, List.length_append] at hfuel
  rw [hbits, faxDecodeFrom_faxStream hwidth hrows (by simpa using hcount) (by omega),
    pieces_flatten (FaxConfig.rowBytes_pos hwidth)]

/-- The decoder may have another row count than the encoder. -/
theorem faxDecodeFrom_faxCompress_rows {f : FaxConfig} (hwidth : 0 < f.width) {inp : List Byte}
    (hrows : ∀ row ∈ pieces f.rowBytes inp, f.PlainRow row) {r : Int}
    (hcount : f.eob = false → r = 0 ∨ r = ((pieces f.rowBytes inp).length : Nat)) :
    faxDecodeFrom { f with rows := r } (8 * (faxCompress f inp).length + 1) 0 ⟨0, bitsOf (faxCompress f inp)⟩ =
      ⟨inp, .success⟩ := by
  have h := faxDecodeFrom_faxCompress (f := { f with rows := r }) (inp := inp) hwidth
    (fun row hrow => ⟨(hrows row hrow).length, (hrows row hrow).pad⟩) hcount
  rwa [faxCompress_rows] at h

/-- Equal columns and flags make valid fax configurations equal but for the row count. -/
theorem State.faxConfig_eq_of_valid {s u : State} (hs : s.faxConfig.invalid? s.cfg = none)
    (hu : u.faxConfig.invalid? u.cfg = none) (hcolumns : u.faxColumns = s.faxColumns)
    (hflags : u.faxFlags = s.faxFlags) : u.faxConfig = { s.faxConfig with rows := u.faxRows.toInt } := by
  have hk : u.faxK.toInt = s.faxK.toInt :=
    (FaxConfig.columns_of_valid hu).1.trans (FaxConfig.columns_of_valid hs).1.symm
  simp only [State.faxConfig, State.faxEol, State.faxByteAlign, State.faxEob, State.faxBlackIs1, hk, hcolumns, hflags]

/-- Settles O49: the decoder follows the encoder's stream row by row, each coded line giving its pixels back, and stops
where the encoder did. -/
theorem faxRoundTrip : Obligations.FaxRoundTrip := by
  intro s hs hvalid hwhole hpad hfit
  have hwidth := FaxConfig.width_pos_of_valid hvalid
  have hbytes := FaxConfig.rowBytes_pos hwidth
  have hlen : s.inp.length = s.inLen.toNat / s.faxConfig.rowBytes * s.faxConfig.rowBytes := by
    rw [State.inp_length, Nat.div_mul_cancel (Nat.dvd_of_mod_eq_zero hwhole)]
  have henc : codecEmits .faxEnc s = ⟨faxCompress s.faxConfig s.inp, .success⟩ := by
    have hnot : ¬s.inp.length % s.faxConfig.rowBytes ≠ 0 := by rwa [State.inp_length, not_not]
    simp only [codecEmits, faxEncJob, hvalid, if_neg hnot]
  obtain ⟨t, hexec, hsucc, hleaves⟩ := codecSucceeds_of_emits (i := .faxEnc) rfl hs henc hfit
  refine ⟨t, hexec, hsucc, hleaves, fun u hu huvalid hcolumns hflags hcount hinp hroom => ?_⟩
  have hconfig := State.faxConfig_eq_of_valid hvalid huvalid hcolumns hflags
  have hrows : ∀ row ∈ pieces s.faxConfig.rowBytes s.inp, s.faxConfig.PlainRow row := fun row hrow =>
    ⟨length_of_mem_pieces hbytes hlen hrow, hpad row hrow⟩
  have heob : u.faxEob = s.faxEob := by rw [State.faxEob, State.faxEob, hflags]
  have hdec := faxDecodeFrom_faxCompress_rows (r := u.faxRows.toInt) hwidth hrows
    (fun hoff => (pieces_length hbytes hlen).symm ▸ hcount (heob.trans hoff))
  rw [← hconfig] at hdec
  have hjob : codecEmits .faxDec u = ⟨s.inp, .success⟩ := by
    simpa only [codecEmits, faxDecJob, huvalid, hinp, hleaves.output] using hdec
  exact codecSucceeds_of_emits rfl hu hjob (by rwa [State.inp_length])

end Sys2Proof.Machine
end

section
/-! PROOF. huffman_codeword_lookup (spec/46_huffman_tables.md R470 to R481): the code tables as bit strings, and what
HUF.LOOKUP and HUF.CODE answer from them. -/

namespace Sys2Proof.Machine

open Sys2Proof.Laws

/-! ## The code tables as bit strings (R471) -/

theorem codewordsWithEol_eq_map (col : Colour) :
    codewordsWithEol col = (codeTable col ++ [eolCode]).map codeBits := by
  rw [List.map_append]
  rfl

theorem codeTable_length (col : Colour) : (codeTable col).length = 104 := by
  rw [codeTable, List.length_append, terminalCodes_length, makeupCodes_length]

/-- Every code and EOL has a 1 bit in its pattern, and the pattern fits its length. -/
theorem code_fits_of_mem_withEol {col : Colour} {c : Nat × Nat} (h : c ∈ codeTable col ++ [eolCode]) :
    0 < c.1 ∧ c.1 < 2 ^ c.2 := by
  rcases List.mem_append.1 h with h | h
  · exact (code_fits_of_mem c h).2
  · rw [List.mem_singleton.1 h]
    decide

/-- A codeword that begins with another one reads as both codes. -/
theorem PrefixFree.not_isPrefix_codeBits {a b : Nat × Nat} (h : PrefixFree a b) (ha : a.1 < 2 ^ a.2)
    (hb : b.1 < 2 ^ b.2) : ¬codeBits a <+: codeBits b := by
  rintro ⟨rest, hrest⟩
  have hreadsA : ReadsCode a (codeBits b) := hrest ▸ readsCode_codeBits ha rest
  have hreadsB : ReadsCode b (codeBits b) := List.append_nil (codeBits b) ▸ readsCode_codeBits hb []
  exact hreadsA.not_prefixFree hreadsB h

theorem PrefixFree.symm {a b : Nat × Nat} (h : PrefixFree a b) : PrefixFree b a := Ne.symm h

theorem codewordsWithEol_pairwise (col : Colour) :
    (codewordsWithEol col).Pairwise fun a b => ¬a <+: b ∧ ¬b <+: a := by
  have hcodes : (codeTable col ++ [eolCode]).Pairwise PrefixFree :=
    (codes_pairwise_prefixFree col).perm (List.perm_append_singleton _ _).symm PrefixFree.symm
  rw [codewordsWithEol_eq_map, List.pairwise_map]
  refine hcodes.imp_of_mem fun ha hb h => ?_
  have hfitA := (code_fits_of_mem_withEol ha).2
  have hfitB := (code_fits_of_mem_withEol hb).2
  exact ⟨h.not_isPrefix_codeBits hfitA hfitB, h.symm.not_isPrefix_codeBits hfitB hfitA⟩

/-- The bits of a number that is not 0 are not all 0. -/
theorem true_mem_lowBits {v n : Nat} (hpos : 0 < v) (hfit : v < 2 ^ n) : true ∈ lowBits v n := by
  by_contra hmem
  have hzero : lowBits v n = zeroBits n :=
    List.eq_replicate_iff.2 ⟨lowBits_length v n, fun b hb => Bool.eq_false_iff.2 fun h => hmem (h ▸ hb)⟩
  have hvalue := natOfBits_lowBits v n
  rw [hzero, natOfBits_zeroBits, Nat.mod_eq_of_lt hfit] at hvalue
  omega

theorem true_mem_of_mem_codewordsWithEol {col : Colour} {w : List Bool} (h : w ∈ codewordsWithEol col) : true ∈ w := by
  rw [codewordsWithEol_eq_map] at h
  obtain ⟨c, hc, rfl⟩ := List.mem_map.1 h
  obtain ⟨hpos, hfit⟩ := code_fits_of_mem_withEol hc
  exact true_mem_lowBits hpos hfit

/-- The Kraft sum over 2^13, the longest code having 13 bits (R471 (d)). -/
theorem kraftSum_codewordsWithEol (col : Colour) :
    ((codewordsWithEol col).map fun w => 2 ^ (13 - w.length)).sum = 8162 := by
  rw [codewordsWithEol_eq_map, List.map_map]
  simp only [Function.comp_def, codeBits_length]
  cases col <;> decide +kernel

/-- Settles O50: of the codes as numbers the tables are run through; their bit strings follow. -/
theorem codewordTableProperties : Obligations.CodewordTableProperties := by
  refine fun col => ⟨?_, codewordsWithEol_pairwise col, ?_, fun _ => true_mem_of_mem_codewordsWithEol,
    kraftSum_codewordsWithEol col⟩
  · rw [codewordsWithEol_eq_map, List.length_map, List.length_append, codeTable_length, List.length_singleton]
  · cases col <;> decide +kernel

/-! ## The words of the two commands (R113, R115) -/

theorem packCommand_toNat (u o : BitVec 4) (n : BitVec 6) (c : BitVec 1) :
    (packCommand u o n c).toNat = c.toNat * 2 ^ 14 + n.toNat * 2 ^ 8 + u.toNat * 2 ^ 4 + o.toNat := by
  have hop : o.toNat = (packCommand u o n c).toNat % 16 := by rw [← fieldOp_toNat, fieldOp_packCommand]
  have hunit : u.toNat = (packCommand u o n c).toNat / 16 % 16 := by rw [← fieldUnit_toNat, fieldUnit_packCommand]
  have hn : n.toNat = (packCommand u o n c).toNat / 256 % 64 := by rw [← fieldN_toNat, fieldN_packCommand]
  have hc : c.toNat = (packCommand u o n c).toNat / 16384 % 2 := by rw [← fieldC_toNat, fieldC_packCommand]
  have hrsv : 0 = (packCommand u o n c).toNat / 32768 := by rw [← fieldRsv_toNat, fieldRsv_packCommand]; rfl
  omega

theorem colourBit_toNat (c : Colour) : (colourBit c).toNat = if c = .black then 1 else 0 := by cases c <;> rfl

theorem encode_hufLookup_toNat (c : Colour) (n : BitVec 6) :
    (encode (.hufLookup c n)).toNat = (if c = .black then 1 else 0) * 2 ^ 14 + n.toNat * 2 ^ 8 + 0x70 := by
  simp [encode, packCommand_toNat, colourBit_toNat]

theorem encode_hufCode_toNat (c : Colour) :
    (encode (.hufCode c)).toNat = (if c = .black then 1 else 0) * 2 ^ 14 + 0x71 := by
  simp [encode, packCommand_toNat, colourBit_toNat]

/-- The range of N is checked last, so the word of an ill-formed command fails that check alone. -/
theorem decode_encode_of_not_wellFormed {i : Instr} (h : i.wellFormed = false) :
    decode (encode i) = .error .badBitcount := by
  obtain ⟨hmap, hrsv⟩ := encodeFields i
  have hn : ¬(fieldN (encode i) ≠ 0#6 ∧ i.usesN = false) := fun ⟨hne, huses⟩ => hne (fieldN_encode_of_not_usesN huses)
  have hc : ¬(fieldC (encode i) ≠ 0#1 ∧ i.usesC = false) := fun ⟨hne, huses⟩ => hne (fieldC_encode_of_not_usesC huses)
  rw [decode, hmap]
  dsimp only
  rw [if_neg (fun hne => hne hrsv), if_neg hn, if_neg hc, if_pos h]

theorem hufLookup_wellFormed_eq_false {n : BitVec 6} (c : Colour) (h : n.toNat = 0 ∨ 13 < n.toNat) :
    (Instr.hufLookup c n).wellFormed = false := by
  rw [Instr.wellFormed, Bool.and_eq_false_iff, decide_eq_false_iff_not, decide_eq_false_iff_not]
  omega

/-! ## The codes of a table and the runs they stand for (R470 to R474) -/

theorem exists_termCode_of_mem {col : Colour} {c : Nat × Nat} (h : c ∈ terminalCodes col) :
    ∃ r ≤ 63, termCode col r = c := by
  obtain ⟨r, hr, rfl⟩ := List.getElem_of_mem h
  have hlen := terminalCodes_length col
  exact ⟨r, by omega, List.getD_eq_getElem _ _ hr⟩

theorem exists_makeupCode_of_mem {col : Colour} {c : Nat × Nat} (h : c ∈ makeupCodes col) :
    ∃ m, HasMakeupCode m ∧ makeupCode col m = c := by
  obtain ⟨k, hk, rfl⟩ := List.getElem_of_mem h
  have hlen := makeupCodes_length col
  have hindex : 64 * (k + 1) / 64 - 1 = k := by omega
  refine ⟨64 * (k + 1), ⟨Nat.dvd_mul_right _ _, by omega, by omega⟩, ?_⟩
  rw [makeupCode, hindex]
  exact List.getD_eq_getElem _ _ hk

/-- The lookup misses a pair that is no run's code. -/
theorem findCode_eq_none {col : Colour} {p len : Nat} (hterm : ∀ r ≤ 63, termCode col r ≠ (p, len))
    (hmakeup : ∀ m, HasMakeupCode m → makeupCode col m ≠ (p, len)) : findCode col p len = none := by
  by_contra hsome
  obtain ⟨m, hm⟩ := Option.ne_none_iff_exists'.1 hsome
  rcases List.mem_append.1 (mem_codeTable_of_findCode hm) with hmem | hmem
  · obtain ⟨r, hr, hcode⟩ := exists_termCode_of_mem hmem
    exact hterm r hr hcode
  · obtain ⟨m, hm, hcode⟩ := exists_makeupCode_of_mem hmem
    exact hmakeup m hm hcode

/-! ## RESULT of the two commands (R480, R481) -/

/-- A run lies below the HIT and MAKEUP bits. -/
theorem lookupResult_some_toNat {m : CodeMatch} (h : m.value < 2 ^ 30) :
    (lookupResult (some m)).toNat = (if m.makeup then 0xC0000000 else 0x80000000) + m.value := by
  have hflags : (if m.makeup then 0xC0000000 else 0x80000000 : Word).toNat = (if m.makeup then 3 else 2) <<< 30 := by
    cases m.makeup <;> rfl
  have hvalue : (BitVec.ofNat 32 m.value).toNat = m.value := by
    rw [BitVec.toNat_ofNat, Nat.mod_eq_of_lt (by omega)]
  rw [lookupResult, BitVec.toNat_or, hflags, hvalue, ← Nat.shiftLeft_add_eq_or_of_lt h]
  cases m.makeup <;> rfl

/-- A code of a table fits the fields of RESULT. -/
theorem codeResult_toNat {col : Colour} {c : Nat × Nat} (h : c ∈ codeTable col) (makeup : Bool) :
    (codeResult makeup c).toNat = makeup.toNat * 2 ^ 30 + c.2 * 2 ^ 16 + c.1 := by
  obtain ⟨⟨-, hlen⟩, -, hfit⟩ := code_fits_of_mem c h
  have hpattern : c.1 < 2 ^ 13 := hfit.trans_le (Nat.pow_le_pow_right (by omega) hlen)
  have hmakeup := Bool.toNat_le makeup
  rw [codeResult, BitVec.toNat_ofNat, Nat.mod_eq_of_lt (by omega)]

/-- A command that only sets RESULT and finishes keeps everything else. -/
theorem succeeds_with_result {i : Instr} {s : State} {w : Word} (hs : OutDefined s)
    (h : exec i s = .next (State.finish { s.issue with result := w })) :
    ∃ t, exec i s = .next t ∧ Succeeded t ∧ CursorsKept s t ∧ OutputKept s t ∧ SettingsKept s t ∧ t.result = w :=
  ⟨_, h, succeeded_finish _, ⟨rfl, rfl, rfl⟩, outputKept_disownTail hs rfl rfl, settingsKept_update, rfl⟩

/-- Settles O53: a code of the table is found with its run, and what is no run's code is not found. -/
theorem lookupFindsCodeword : Obligations.LookupFindsCodeword := by
  refine ⟨encode_hufLookup_toNat,
    fun c n hn => decode_encode_of_not_wellFormed (hufLookup_wellFormed_eq_false c hn), fun s c n _ _ hs => ?_⟩
  obtain ⟨t, hexec, hsucc, hcursors, hout, hset, hresult⟩ := succeeds_with_result (i := .hufLookup c n) hs rfl
  refine ⟨t, hexec, hsucc, hcursors, hout, hset, fun r hr hcode => ?_, fun m hmod hlow hhigh hcode => ?_,
    fun hterm hmakeup => ?_⟩
  · have hfind := findCode_termCode c (Nat.lt_succ_of_le hr)
    rw [hcode] at hfind
    rw [hresult, State.argLow, hfind, lookupResult_some_toNat (show r < 2 ^ 30 by omega)]
    rfl
  · have hfind := findCode_makeupCode c ⟨Nat.dvd_of_mod_eq_zero hmod, hlow, hhigh⟩
    rw [hcode] at hfind
    rw [hresult, State.argLow, hfind, lookupResult_some_toNat (show m < 2 ^ 30 by omega)]
    rfl
  · have hmiss := findCode_eq_none hterm fun m ⟨hdvd, hlow, hhigh⟩ =>
      hmakeup m (Nat.mod_eq_zero_of_dvd hdvd) hlow hhigh
    rw [hresult, State.argLow, hmiss]
    rfl

/-- Settles O54: the three branches of the command, by the run in ARG. -/
theorem codeOfRunGiven : Obligations.CodeOfRunGiven := by
  refine ⟨encode_hufCode_toNat, fun s c hs => ⟨fun hterm => ?_, fun hmod hlow hhigh => ?_, fun hlow hbad => ?_⟩⟩
  · obtain ⟨t, hexec, hsucc, hcursors, hout, hset, hresult⟩ :=
      succeeds_with_result (i := .hufCode c) hs (if_pos hterm)
    have hmem := mem_codeTable_of_findCode (findCode_termCode c (Nat.lt_succ_of_le hterm))
    refine ⟨t, hexec, hsucc, hcursors, hout, hset, ?_⟩
    rw [hresult, State.argRun, codeResult_toNat hmem, Bool.toNat_false, Nat.zero_mul, Nat.zero_add]
  · have hnoterm : ¬s.arg.toNat ≤ 63 := by omega
    obtain ⟨t, hexec, hsucc, hcursors, hout, hset, hresult⟩ :=
      succeeds_with_result (i := .hufCode c) hs ((if_neg hnoterm).trans (if_pos ⟨hmod, hlow, hhigh⟩))
    have hmem := mem_codeTable_of_findCode
      (findCode_makeupCode c ⟨Nat.dvd_of_mod_eq_zero hmod, hlow, hhigh⟩)
    refine ⟨t, hexec, hsucc, hcursors, hout, hset, ?_⟩
    rw [hresult, State.argRun, codeResult_toNat hmem, Bool.toNat_true, Nat.one_mul]
  · have hnocode : ¬(s.arg.toNat % 64 = 0 ∧ 64 ≤ s.arg.toNat ∧ s.arg.toNat ≤ 2560) := by omega
    exact ⟨_, (if_neg (Nat.not_le.2 hlow)).trans (if_neg hnocode), ⟨statusError_toNat _, by simp [State.argRun]⟩,
      ⟨rfl, rfl, rfl⟩, ⟨rfl, fun _ => rfl⟩, rfl, settingsKept_update⟩

end Sys2Proof.Machine
end

section
/-! PROOF. SYS.NOP (spec/60_exceptions.md R520), SYS.SRESET and the state after a hardware reset
(spec/70_reset_and_hazards.md R550, R552). -/

namespace Sys2Proof.Machine

/-- Settles O55: `finish` disowns OUT beyond OUT_LEN, and a byte OUT holds a value for below it stays. -/
theorem nopChangesOnlyStatus : Obligations.NopChangesOnlyStatus :=
  ⟨rfl, fun s => ⟨_, rfl, succeeded_finish _, rfl, ⟨rfl, rfl, rfl⟩, settingsKept_update, rfl,
    State.readOut_finish s.issue⟩⟩

/-! ## SYS.SRESET (R552) -/

theorem succeeded_succeed (s : State) : Succeeded s.succeed := ⟨rfl, rfl⟩

/-- The success that ends SYS.SRESET writes STATUS, and ERR_POS with its reset value. -/
theorem State.readReg_resetRegs_succeed {r : Reg} (hr : r ≠ .status) (s : State) :
    s.resetRegs.succeed.readReg r = State.reset.readReg r := by
  cases r with
  | status => exact absurd rfl hr
  | _ => rfl

/-- A busy block only takes a command word from the host's queue (R94). -/
theorem step_hostCmd_busy {s : State} {i : Instr} {rest : List HostAction} (hbusy : s.busy = true)
    (hhost : s.host = hostCmd s.cfg i :: rest) : step s = .next (s.afterWriteTaken rest) := by
  have htarget : busTarget s.cfg (s.cfg.base + Reg.cmd.offset) = .register Reg.cmd.offset :=
    busTarget_register s.cfg (by decide)
  exact (step_write hhost).trans
    (busWrite_busy (s := s.afterWriteTaken rest) hbusy (by simp [State.afterWriteTaken, htarget]) 4 _)

/-- Settles O56: the command's end is the reset registers with success, and BUSY gates the write that starts it. -/
theorem softResetRestoresRegisters : Obligations.SoftResetRestoresRegisters :=
  ⟨rfl, fun s => ⟨_, rfl, succeeded_succeed _, fun _ hr => State.readReg_resetRegs_succeed hr s.issue,
    fun _ => rfl, fun _ => rfl, rfl, rfl, rfl, fun _ hbusy hhost => step_hostCmd_busy hbusy hhost⟩⟩

/-! ## The hardware reset (R550) -/

/-- After reset neither buffer holds a value, so what a read of a byte returns is free. -/
theorem State.reset_buffers_read? (i : Nat) :
    State.reset.inBuf.read? i = none ∧ State.reset.outBuf.read? i = none :=
  ⟨Memory.read?_nil i, Memory.read?_nil i⟩

theorem State.reset_not_busy_not_done : State.reset.busy = false ∧ State.reset.done = false := by decide

/-- Settles O57: the register values are the fields of the reset state. -/
theorem resetRegisterValues : Obligations.ResetRegisterValues := by
  obtain ⟨hbusy, hdone⟩ := State.reset_not_busy_not_done
  exact ⟨rfl, rfl, rfl, rfl, rfl, rfl, rfl, rfl, rfl, rfl, rfl, rfl, rfl, rfl, rfl, rfl, rfl, rfl, hbusy, hdone,
    State.reset_buffers_read?⟩

end Sys2Proof.Machine
end
